-- ==== Sys2Proof/Word.lean ====
section
/-! DEFINITION. The word types of the block (spec/00_scope.md R6, R9, R12). -/

namespace Sys2Proof

/-- A `u64`: a scalar register, a modulus, a table entry, a coefficient (R6, R12). -/
abbrev Word := BitVec 64

/-- A command word (30_encoding.md R90). -/
abbrev CmdWord := BitVec 32

/-- The number of values of a `u64` (R12). -/
abbrev two64 : Nat := 2 ^ 64

/-- The bound no modulus reaches (R6: `2 ≤ q < 2^63`). -/
abbrev two63 : Nat := 2 ^ 63

end Sys2Proof
end

