-- ==== Sys2Proof/Config.lean ====
section
/-! DEFINITION. What an implementation fixes (spec/00_scope.md R7, R8) and the values the spec leaves
open (spec/93_implementation_defined.md U1, U2, U7, U17): opaque constants, so that nothing can be
proved of the value of any of them. -/

namespace Sys2Proof

/-- The open parameters a model takes as arguments: NMAX (R7) and NPOLY (R8). -/
structure Config where
  /-- the largest degree, the depth in words of every table and buffer -/
  nmax : Nat
  /-- the number of polynomial buffers -/
  npoly : Nat
deriving DecidableEq, Repr

/-- The parameters of spec/95_test_vectors.md. DESIGN CHOICE (assumption log 3); unsafe for a claim
about reset alone, which is then a claim about these values. -/
def Config.reference : Config := { nmax := 1024, npoly := 4 }

/-- The ranges R7 and R8 give the parameters: NMAX a power of two from 1 to 2^61, NPOLY from 1 to 16. -/
abbrev Config.ok (c : Config) : Prop :=
  (∃ k ∈ List.range 62, c.nmax = 2 ^ k) ∧ 1 ≤ c.npoly ∧ c.npoly ≤ 16

/-- A `u64` the spec leaves arbitrary (U1, U2, and the raw draws of U17), one for each value of the
state's counter `free`. Assumption log 10; safe. -/
opaque Config.freeWord : Nat → Word

/-- A choice the spec leaves open: whether the primitive-root scan of a CTXINIT that met an unspecified power ends in
SearchExhausted (42_transform_context.md R192: "the model must allow the fault"). Assumption log 13; safe. -/
opaque Config.freeChoice : Nat → Bool

/-- What word `i` of memory number `m` holds while nothing has written it (20_memory.md R62, U7).
Assumption log 9; safe. -/
opaque Config.unwrittenWord : (m : Nat) → (i : Nat) → Word

end Sys2Proof
end

