-- ==== Sys2Proof/Syntax.lean ====
section
/-! DEFINITION. The 38 commands of spec/30_encoding.md R95, one constructor per row of
spec/opcode_table.json, operands in the order of the row's assembly. -/

namespace Sys2Proof

/-- A scalar register number, `S0` to `S15` (10_state.md R21). -/
abbrev Reg := Fin 16

/-- A polynomial-buffer number, `P0` to `P15` (10_state.md R40). It is legal below NPOLY only (R94),
which is the business of `Instr.wf`. -/
abbrev Buf := Fin 16

/-- The control registers CSRR reads (10_state.md R38, numbers 0 to 9 in this order). -/
inductive Csr where
  | status | q | logq | mu | n | logn | invN | invNShoup | nmax | npoly
deriving DecidableEq, Repr

/-- The table TWRD reads (30_encoding.md R94, selectors 0 to 3 in this order). -/
inductive Tbl where
  | tf | tfShoup | itf | itfShoup
deriving DecidableEq, Repr

/-- The commands (30_encoding.md R95). -/
inductive Instr where
  -- 45_move_and_status.md
  | movz (rd : Reg) (imm : BitVec 16) (hw : Fin 4)
  | movk (rd : Reg) (imm : BitVec 16) (hw : Fin 4)
  | get (rs1 : Reg)
  | csrr (rd : Reg) (csr : Csr)
  -- 40_modular_arithmetic.md
  | setmod (rs1 : Reg)
  | modadd (rd rs1 rs2 : Reg)
  | modsub (rd rs1 rs2 : Reg)
  | modneg (rd rs1 : Reg)
  | modmul (rd rs1 rs2 : Reg)
  | modsqr (rd rs1 : Reg)
  | modexp (rd rs1 rs2 : Reg)
  | modinv (rd rs1 : Reg)
  | shouppre (rd rs1 : Reg)
  | modmulsh (rd rs1 rs2 rs3 : Reg)
  -- 41_number_theory.md
  | fprimeup (rd rs1 rs2 : Reg)
  | fprimedn (rd rs1 rs2 : Reg)
  | nprimeup (rd rs1 rs2 : Reg)
  | nprimedn (rd rs1 rs2 : Reg)
  | findroot (rd rs1 : Reg)
  | findgen (rd rs1 rs2 : Reg)
  -- 42_transform_context.md
  | ctxinit (rs1 rs2 : Reg)
  | twrd (rd : Reg) (tbl : Tbl) (rs1 : Reg)
  -- 43_polynomial_ring.md
  | pzero (pd : Buf)
  | prand (pd : Buf)
  | pwr (pd : Buf) (rs1 rs2 : Reg)
  | prd (rd : Reg) (pa : Buf) (rs2 : Reg)
  | pcopy (pd pa : Buf)
  | padd (pd pa pb : Buf)
  | psub (pd pa pb : Buf)
  | pneg (pd pa : Buf)
  | pmulpw (pd pa pb : Buf)
  -- 44_ntt_and_convolution.md
  | ntt (pd : Buf)
  | intt (pd : Buf)
  | nttsh (pd : Buf)
  | inttsh (pd : Buf)
  | convnaive (pd pa pb : Buf)
  | conv (pd pa pb : Buf)
  | convsh (pd pa pb : Buf)
deriving DecidableEq, Repr

end Sys2Proof
end

