-- ==== Sys2Proof/WellFormed.lean ====
section
/-! DEFINITION. Legality of a decoded command: the only operand whose legality depends on the
implementation is a polynomial slot, legal below NPOLY (spec/30_encoding.md R94, R96 (c)). The other
two limits, a CSR number up to 9 and a table selector up to 3, are in the types `Csr` and `Tbl`. -/

namespace Sys2Proof

/-- The polynomial slots of a command ("P" in the map of R95), destination first. -/
def Instr.bufs : Instr → List Buf
  | .movz _ _ _ | .movk _ _ _ | .get _ | .csrr _ _ => []
  | .setmod _ | .modadd _ _ _ | .modsub _ _ _ | .modneg _ _ | .modmul _ _ _ | .modsqr _ _ => []
  | .modexp _ _ _ | .modinv _ _ | .shouppre _ _ | .modmulsh _ _ _ _ => []
  | .fprimeup _ _ _ | .fprimedn _ _ _ | .nprimeup _ _ _ | .nprimedn _ _ _ => []
  | .findroot _ _ | .findgen _ _ _ | .ctxinit _ _ | .twrd _ _ _ => []
  | .pzero pd | .prand pd | .pwr pd _ _ => [pd]
  | .prd _ pa _ => [pa]
  | .pcopy pd pa | .pneg pd pa => [pd, pa]
  | .padd pd pa pb | .psub pd pa pb | .pmulpw pd pa pb => [pd, pa, pb]
  | .ntt pd | .intt pd | .nttsh pd | .inttsh pd => [pd]
  | .convnaive pd pa pb | .conv pd pa pb | .convsh pd pa pb => [pd, pa, pb]

/-- Every polynomial slot names an existing buffer (R96 (c)). -/
def Instr.wf (npoly : Nat) (i : Instr) : Bool := i.bufs.all fun p => decide (p.val < npoly)

end Sys2Proof
end

