-- ==== Sys2Proof/Decode.lean ====
section
/-! DEFINITION. The decoder and the encoder (spec/30_encoding.md R90 to R98). Decoding is total: every
32-bit word decodes to one command or to none (R97); none is IllegalCommand (R96, R325). -/

namespace Sys2Proof

/-- `w[hi:lo]`: bits `hi` down to `lo` inclusive, read as an unsigned integer (00_scope.md R12). -/
def bits (w hi lo : Nat) : Nat := w / 2 ^ lo % 2 ^ (hi - lo + 1)

/-- A 4-bit operand slot of format R (R91). -/
def slot (w hi lo : Nat) : Fin 16 := Fin.ofNat 16 (bits w hi lo)

/-- Slot A, bits 11:8: the destination. -/
def slotA (w : Nat) : Fin 16 := slot w 11 8
/-- Slot B, bits 15:12: the first source. -/
def slotB (w : Nat) : Fin 16 := slot w 15 12
/-- Slot C, bits 19:16: the second source or the table selector. -/
def slotC (w : Nat) : Fin 16 := slot w 19 16
/-- Slot D, bits 23:20: the third source. -/
def slotD (w : Nat) : Fin 16 := slot w 23 20

/-- Format R (R91): `i` when bits 31:24 are 0 and every slot the command does not use is 0. The four
marks say which of the slots A, B, C, D it uses. -/
def formatR (w : Nat) (a b c d : Bool) (i : Instr) : Option Instr :=
  if bits w 31 24 = 0 ∧ (a ∨ bits w 11 8 = 0) ∧ (b ∨ bits w 15 12 = 0) ∧ (c ∨ bits w 19 16 = 0) ∧ (d ∨ bits w 23 20 = 0)
  then some i else none

/-- Format I (R92): IMM16 in bits 31:16, HW in 13:12, rd in 11:8; bits 15:14 must be 0. -/
def formatI (w : Nat) (mk : Reg → BitVec 16 → Fin 4 → Instr) : Option Instr :=
  if bits w 15 14 = 0 then some (mk (slotA w) (BitVec.ofNat 16 (bits w 31 16)) (Fin.ofNat 4 (bits w 13 12))) else none

/-- The control register of a number (10_state.md R38); none above 9 (R96 (d)). -/
def csrOf : Nat → Option Csr
  | 0 => some .status | 1 => some .q | 2 => some .logq | 3 => some .mu | 4 => some .n
  | 5 => some .logn | 6 => some .invN | 7 => some .invNShoup | 8 => some .nmax | 9 => some .npoly
  | _ => none

/-- The table of a selector (R94); none above 3 (R96 (e)). -/
def tblOf : Nat → Option Tbl
  | 0 => some .tf | 1 => some .tfShoup | 2 => some .itf | 3 => some .itfShoup
  | _ => none

/-- Format C (R93): CSR in bits 23:16, rd in 11:8; bits 31:24 and 15:12 must be 0. -/
def formatC (w : Nat) : Option Instr :=
  if bits w 31 24 = 0 ∧ bits w 15 12 = 0 then (csrOf (bits w 23 16)).map (.csrr (slotA w)) else none

/-- The command of a word given as a number: the opcode map of R95 on bits 7:0, row by row. -/
def decodeNat (w : Nat) : Option Instr :=
  match bits w 7 0 with
  | 0x01 => formatI w .movz
  | 0x02 => formatI w .movk
  | 0x03 => formatR w false true false false (.get (slotB w))
  | 0x04 => formatC w
  | 0x10 => formatR w false true false false (.setmod (slotB w))
  | 0x11 => formatR w true true true false (.modadd (slotA w) (slotB w) (slotC w))
  | 0x12 => formatR w true true true false (.modsub (slotA w) (slotB w) (slotC w))
  | 0x13 => formatR w true true false false (.modneg (slotA w) (slotB w))
  | 0x14 => formatR w true true true false (.modmul (slotA w) (slotB w) (slotC w))
  | 0x15 => formatR w true true false false (.modsqr (slotA w) (slotB w))
  | 0x16 => formatR w true true true false (.modexp (slotA w) (slotB w) (slotC w))
  | 0x17 => formatR w true true false false (.modinv (slotA w) (slotB w))
  | 0x18 => formatR w true true false false (.shouppre (slotA w) (slotB w))
  | 0x19 => formatR w true true true true (.modmulsh (slotA w) (slotB w) (slotC w) (slotD w))
  | 0x20 => formatR w true true true false (.fprimeup (slotA w) (slotB w) (slotC w))
  | 0x21 => formatR w true true true false (.fprimedn (slotA w) (slotB w) (slotC w))
  | 0x22 => formatR w true true true false (.nprimeup (slotA w) (slotB w) (slotC w))
  | 0x23 => formatR w true true true false (.nprimedn (slotA w) (slotB w) (slotC w))
  | 0x24 => formatR w true true false false (.findroot (slotA w) (slotB w))
  | 0x25 => formatR w true true true false (.findgen (slotA w) (slotB w) (slotC w))
  | 0x30 => formatR w false true true false (.ctxinit (slotB w) (slotC w))
  | 0x31 => (tblOf (bits w 19 16)).bind fun t => formatR w true true true false (.twrd (slotA w) t (slotB w))
  | 0x40 => formatR w true false false false (.pzero (slotA w))
  | 0x41 => formatR w true false false false (.prand (slotA w))
  | 0x42 => formatR w true true true false (.pwr (slotA w) (slotB w) (slotC w))
  | 0x43 => formatR w true true true false (.prd (slotA w) (slotB w) (slotC w))
  | 0x44 => formatR w true true false false (.pcopy (slotA w) (slotB w))
  | 0x45 => formatR w true true true false (.padd (slotA w) (slotB w) (slotC w))
  | 0x46 => formatR w true true true false (.psub (slotA w) (slotB w) (slotC w))
  | 0x47 => formatR w true true false false (.pneg (slotA w) (slotB w))
  | 0x48 => formatR w true true true false (.pmulpw (slotA w) (slotB w) (slotC w))
  | 0x50 => formatR w true false false false (.ntt (slotA w))
  | 0x51 => formatR w true false false false (.intt (slotA w))
  | 0x52 => formatR w true false false false (.nttsh (slotA w))
  | 0x53 => formatR w true false false false (.inttsh (slotA w))
  | 0x58 => formatR w true true true false (.convnaive (slotA w) (slotB w) (slotC w))
  | 0x59 => formatR w true true true false (.conv (slotA w) (slotB w) (slotC w))
  | 0x5A => formatR w true true true false (.convsh (slotA w) (slotB w) (slotC w))
  | _ => none

/-- The command a word decodes to, with any buffer number (R95, R96 (a), (b), (d), (e)). -/
def decode (w : CmdWord) : Option Instr := decodeNat w.toNat

/-- The command a word decodes to with legal operands, in a block of `npoly` buffers (R96, R97). -/
def decodeLegal (npoly : Nat) (w : CmdWord) : Option Instr := (decode w).filter fun i => i.wf npoly

/-- A format R word from its opcode and slot values (R91). -/
def encodeR (op a b c d : Nat) : Nat := op + a * 2 ^ 8 + b * 2 ^ 12 + c * 2 ^ 16 + d * 2 ^ 20

/-- A format I word (R92). -/
def encodeI (op rd : Nat) (imm : BitVec 16) (hw : Nat) : Nat := op + rd * 2 ^ 8 + hw * 2 ^ 12 + imm.toNat * 2 ^ 16

/-- The number of a control register (10_state.md R38). -/
def csrNum : Csr → Nat
  | .status => 0 | .q => 1 | .logq => 2 | .mu => 3 | .n => 4
  | .logn => 5 | .invN => 6 | .invNShoup => 7 | .nmax => 8 | .npoly => 9

/-- The selector of a table (R94). -/
def tblNum : Tbl → Nat
  | .tf => 0 | .tfShoup => 1 | .itf => 2 | .itfShoup => 3

/-- The word of a command as a number, row by row from R95. -/
def encodeNat : Instr → Nat
  | .movz rd imm hw => encodeI 0x01 rd imm hw
  | .movk rd imm hw => encodeI 0x02 rd imm hw
  | .get rs1 => encodeR 0x03 0 rs1 0 0
  | .csrr rd csr => 0x04 + rd * 2 ^ 8 + csrNum csr * 2 ^ 16
  | .setmod rs1 => encodeR 0x10 0 rs1 0 0
  | .modadd rd rs1 rs2 => encodeR 0x11 rd rs1 rs2 0
  | .modsub rd rs1 rs2 => encodeR 0x12 rd rs1 rs2 0
  | .modneg rd rs1 => encodeR 0x13 rd rs1 0 0
  | .modmul rd rs1 rs2 => encodeR 0x14 rd rs1 rs2 0
  | .modsqr rd rs1 => encodeR 0x15 rd rs1 0 0
  | .modexp rd rs1 rs2 => encodeR 0x16 rd rs1 rs2 0
  | .modinv rd rs1 => encodeR 0x17 rd rs1 0 0
  | .shouppre rd rs1 => encodeR 0x18 rd rs1 0 0
  | .modmulsh rd rs1 rs2 rs3 => encodeR 0x19 rd rs1 rs2 rs3
  | .fprimeup rd rs1 rs2 => encodeR 0x20 rd rs1 rs2 0
  | .fprimedn rd rs1 rs2 => encodeR 0x21 rd rs1 rs2 0
  | .nprimeup rd rs1 rs2 => encodeR 0x22 rd rs1 rs2 0
  | .nprimedn rd rs1 rs2 => encodeR 0x23 rd rs1 rs2 0
  | .findroot rd rs1 => encodeR 0x24 rd rs1 0 0
  | .findgen rd rs1 rs2 => encodeR 0x25 rd rs1 rs2 0
  | .ctxinit rs1 rs2 => encodeR 0x30 0 rs1 rs2 0
  | .twrd rd tbl rs1 => encodeR 0x31 rd rs1 (tblNum tbl) 0
  | .pzero pd => encodeR 0x40 pd 0 0 0
  | .prand pd => encodeR 0x41 pd 0 0 0
  | .pwr pd rs1 rs2 => encodeR 0x42 pd rs1 rs2 0
  | .prd rd pa rs2 => encodeR 0x43 rd pa rs2 0
  | .pcopy pd pa => encodeR 0x44 pd pa 0 0
  | .padd pd pa pb => encodeR 0x45 pd pa pb 0
  | .psub pd pa pb => encodeR 0x46 pd pa pb 0
  | .pneg pd pa => encodeR 0x47 pd pa 0 0
  | .pmulpw pd pa pb => encodeR 0x48 pd pa pb 0
  | .ntt pd => encodeR 0x50 pd 0 0 0
  | .intt pd => encodeR 0x51 pd 0 0 0
  | .nttsh pd => encodeR 0x52 pd 0 0 0
  | .inttsh pd => encodeR 0x53 pd 0 0 0
  | .convnaive pd pa pb => encodeR 0x58 pd pa pb 0
  | .conv pd pa pb => encodeR 0x59 pd pa pb 0
  | .convsh pd pa pb => encodeR 0x5A pd pa pb 0

/-- The word of a command (R90, R95). -/
def encode (i : Instr) : CmdWord := BitVec.ofNat 32 (encodeNat i)

/-- A word of the opcode table: `nbits` bits of `w`, every bit above them 0. Every row has 32. -/
def tableWord (nbits w : Nat) : CmdWord := BitVec.ofNat 32 (w % 2 ^ nbits)

/-- The command the decoder reads from an opcode-table word (whatever NPOLY is). -/
def decodeTableWord (nbits w : Nat) : Option Instr := decode (tableWord nbits w)

end Sys2Proof
end

