-- ==== Sys2Proof/Machine/State.lean ====
section
/-! DEFINITION. The state of the block (spec/10_state.md R20), plain data; the reasons a step stops. -/

namespace Sys2Proof.Machine

/-- A word-addressed memory (20_memory.md R60): the cells written since reset, as (index, word) with
indices strictly rising. An index not listed holds a word nothing has written (`Config.unwrittenWord`).
The spec's smallest unit is the 64-bit word and no byte exists (R63, R65); assumption log 8. -/
abbrev Mem := List (Nat × Word)

/-- The canonical form of a memory: indices strictly rising, so no index twice. -/
abbrev Mem.wf (m : Mem) : Prop := m.Pairwise (fun a b => a.1 < b.1)

/-- A polynomial buffer (10_state.md R40 to R42). -/
structure Poly where
  /-- `POLY[p].VALID`: the buffer holds a polynomial (R41) -/
  valid : Bool
  /-- `POLY[p].TQ`: the modulus of the context it was created under (R42) -/
  tq : Word
  /-- `POLY[p].TN`: the degree of that context (R42) -/
  tn : Word
  /-- `POLY[p].C`: the words (R40) -/
  words : Mem
deriving DecidableEq, Repr

/-- The response of a command (10_state.md R25). -/
structure Response where
  fault : Bool
  cause : BitVec 4
  data : Word
deriving DecidableEq, Repr

/-- What the host gives the block: a command word on CMD or a request on RESET (60_exceptions.md R340). -/
inductive HostInput where
  | cmd (w : CmdWord)
  | reset
deriving DecidableEq, Repr

/-- The causes of a fault of the block (60_exceptions.md R320). Raising one is a NEXT state. -/
inductive Cause where
  | invalidModulus | invalidDegree | modulusMismatch | preconditionViolation | illegalCommand
  | notInitialised | indexOutOfRange | zeroNotInvertible | searchExhausted | shiftUnderflow
deriving DecidableEq, Repr

/-- The memories (20_memory.md R60): each its own address space. -/
inductive Space where
  | poly (p : Fin 16)
  | tf | tfShoup | itf | itfShoup
deriving DecidableEq, Repr

/-- The complete state (10_state.md R20, R48), and the model's own view of the host (assumption log 4, 6, 7,
10, 14). -/
structure State where
  /-- the parameters NMAX and NPOLY (00_scope.md R7, R8); no command writes them (log 3) -/
  cfg : Config
  /-- `S[0..15]` (R21) -/
  sreg : Vector Word 16
  /-- `CSR.Q` (R26) -/
  q : Word
  /-- `CSR.LOGQ` (R27) -/
  logq : BitVec 6
  /-- `CSR.MU` (R28) -/
  mu : Word
  /-- `CSR.MODVALID` (R29) -/
  modvalid : Bool
  /-- `CSR.N` (R31) -/
  n : Word
  /-- `CSR.LOGN` (R31) -/
  logn : BitVec 6
  /-- `CSR.INV_N` (R36) -/
  invN : Word
  /-- `CSR.INV_N_SHOUP` (R36) -/
  invNShoup : Word
  /-- `CSR.CTXVALID` (R37) -/
  ctxvalid : Bool
  /-- `TF` (R32) -/
  tf : Mem
  /-- `TF_SHOUP` (R33) -/
  tfShoup : Mem
  /-- `ITF` (R34) -/
  itf : Mem
  /-- `ITF_SHOUP` (R35) -/
  itfShoup : Mem
  /-- `POLY[0..15]`, of which the first NPOLY exist (R40; log 3) -/
  poly : Vector Poly 16
  /-- `CSR.FAULT` (R45) -/
  fault : Bool
  /-- `CSR.CAUSE` (R45) -/
  cause : BitVec 4
  /-- `CSR.FAULTCMD` (R45) -/
  faultcmd : CmdWord
  /-- the command index (R24) -/
  pc : Nat
  /-- MODEL: what the host presents next, first entry first (60_exceptions.md R340) -/
  inbox : List HostInput
  /-- MODEL: the command word being executed (60_exceptions.md R330, R340) -/
  cmd : CmdWord
  /-- MODEL: the responses given, newest first (R25; 00_scope.md R17) -/
  outbox : List Response
  /-- MODEL: the answers the random source has ready (60_exceptions.md R341) -/
  oracle : List Word
  /-- MODEL: the index of the next free value (93_implementation_defined.md U1, U2, U17) -/
  free : Nat
deriving DecidableEq, Repr

/-- Reasons the MODEL stops. The block's own faults are next states (60_exceptions.md R330). -/
inductive Fault where
  /-- raised by the accesses of Machine/Ops.lean when a command reaches an index at or above NMAX, where no
  word exists (20_memory.md R60, R62: `0 ≤ i < NMAX`). Safe: a stop, and no state that meets the invariant
  of Safety.lean reaches it (assumption log 15). -/
  | noSuchWord
deriving DecidableEq, Repr

/-- Reasons the model has no meaning for a command. -/
inductive Refusal where
  /-- raised only by an arm of Dispatch.lean for a command without a meaning; no arm is left that does.
  Safe: a stop. -/
  | notModelled (mnemonic : String)
deriving DecidableEq, Repr

/-- A buffer after reset (10_state.md R49): VALID = 0; the tag is unspecified, DESIGN CHOICE 0 (log 2), unsafe;
no word has been written. -/
def Poly.reset : Poly := { valid := false, tq := 0, tn := 0, words := [] }

/-- The machine right after reset (10_state.md R49; 70_reset_and_hazards.md R360). `pc`, the fault registers
and every valid flag are 0 as the spec states. The scalar registers (log 1), the descriptor and context
registers and the tags (log 2) are unspecified there: DESIGN CHOICE 0, unsafe. No word of any memory has been
written. The parameters are those of 95_test_vectors.md (log 3), the host's lists are empty (log 4, 6, 14). -/
def State.reset : State where
  cfg := Config.reference
  sreg := Vector.replicate 16 0
  q := 0
  logq := 0
  mu := 0
  modvalid := false
  n := 0
  logn := 0
  invN := 0
  invNShoup := 0
  ctxvalid := false
  tf := []
  tfShoup := []
  itf := []
  itfShoup := []
  poly := Vector.replicate 16 Poly.reset
  fault := false
  cause := 0
  faultcmd := 0
  pc := 0
  inbox := []
  cmd := 0
  outbox := []
  oracle := []
  free := 0

end Sys2Proof.Machine
end

