-- ==== Sys2Proof/Machine/Ops.lean ====
section
/-! DEFINITION. The named operations over registers, memories, free values and the host interface; raising
a fault, refusing and completing a command, and reset (spec/20_memory.md, spec/60_exceptions.md,
spec/70_reset_and_hazards.md). -/

namespace Sys2Proof.Machine

/-! ## Scalar registers (10_state.md R21) -/

/-- `S[i]` (00_scope.md R13). -/
def State.getS (s : State) (i : Fin 16) : Word := s.sreg[i]

/-- `S[i] <- v` (00_scope.md R13). None is hardwired (R21). -/
def State.setS (s : State) (i : Fin 16) (v : Word) : State := { s with sreg := s.sreg.set i v }

/-! ## Memories (20_memory.md R60 to R62) -/

/-- The word last written at an index, if one was. -/
def Mem.find (m : Mem) (i : Nat) : Option Word :=
  match m with
  | [] => none
  | (j, w) :: rest => if i = j then some w else Mem.find rest i

/-- Replaces the word at an index and keeps the cells in rising order. -/
def Mem.write (m : Mem) (i : Nat) (v : Word) : Mem :=
  match m with
  | [] => [(i, v)]
  | (j, w) :: rest =>
    if i < j then (i, v) :: (j, w) :: rest
    else if i = j then (i, v) :: rest
    else (j, w) :: Mem.write rest i v

/-- Writes the words of a list from index `i` up, in increasing index order. -/
def Mem.store (m : Mem) (i : Nat) : List Word → Mem
  | [] => m
  | w :: ws => Mem.store (Mem.write m i w) (i + 1) ws

/-- A number for each memory, to tell their unwritten words apart. -/
def spaceNum : Space → Nat
  | .tf => 0 | .tfShoup => 1 | .itf => 2 | .itfShoup => 3 | .poly p => 4 + p

/-- The cells of a memory. -/
def State.mem (s : State) : Space → Mem
  | .poly p => s.poly[p].words
  | .tf => s.tf
  | .tfShoup => s.tfShoup
  | .itf => s.itf
  | .itfShoup => s.itfShoup

/-- `MemRead(space, i)` (R62). A word nothing has written reads as a free value (U7, assumption log 9). -/
def State.memRead (s : State) (m : Space) (i : Nat) : Word :=
  ((s.mem m).find i).getD (Config.unwrittenWord (spaceNum m) i)

/-- Replaces the cells of a memory. -/
def State.setMem (s : State) (m : Space) (c : Mem) : State :=
  match m with
  | .poly p => { s with poly := s.poly.set p { s.poly[p] with words := c } }
  | .tf => { s with tf := c }
  | .tfShoup => { s with tfShoup := c }
  | .itf => { s with itf := c }
  | .itfShoup => { s with itfShoup := c }

/-- `MemWrite(space, i, v)` (R62). -/
def State.memWrite (s : State) (m : Space) (i : Nat) (v : Word) : State :=
  s.setMem m (Mem.write (s.mem m) i v)

/-- Words 0 to n - 1 of a memory. -/
def State.load (s : State) (m : Space) (n : Nat) : List Word := (List.range n).map (s.memRead m)

/-- Words 0 to length - 1 of a memory replaced, the others kept. -/
def State.store (s : State) (m : Space) (ws : List Word) : State :=
  s.setMem m (Mem.store (s.mem m) 0 ws)

/-! ## Values and free values (93_implementation_defined.md U1, U2) -/

/-- A number an internal unit computes: `none` where the spec leaves it arbitrary (U1, U2). A unit whose
operand is `none`, or outside the unit's precondition, answers `none`: "every word the command writes that
depends on it is an arbitrary u64". -/
abbrev Val := Option Nat

/-- The defined value of a word. -/
def ofWord (w : Word) : Val := some w.toNat

/-- The words a command writes: a defined value as itself, an arbitrary one as the next free value (U1). The
second part is the counter after them. -/
def resolve (k : Nat) : List Val → List Word × Nat
  | [] => ([], k)
  | some v :: vs => let (ws, k') := resolve k vs; (BitVec.ofNat 64 v :: ws, k')
  | none :: vs => let (ws, k') := resolve (k + 1) vs; (Config.freeWord k :: ws, k')

/-- `S[i] <- v` for a value of an internal unit. -/
def State.setVal (s : State) (i : Fin 16) (v : Val) : State :=
  match v with
  | some x => s.setS i (BitVec.ofNat 64 x)
  | none => { s.setS i (Config.freeWord s.free) with free := s.free + 1 }

/-- Words 0 to length - 1 of a memory replaced by values of the internal units. -/
def State.storeVals (s : State) (m : Space) (vs : List Val) : State :=
  { s.store m (resolve s.free vs).1 with free := (resolve s.free vs).2 }

/-- Some value of [lo, hi), for lo < hi. -/
def freeInRange (k lo hi : Nat) : Nat := lo + (Config.freeWord k).toNat % (hi - lo)

/-- `draw RandRange(lo, hi)` (43_polynomial_ring.md R223): the next answer the random source has ready. Where it
has none ready, or holds one outside [lo, hi), which the oracle's law excludes (U17), the answer is a free
value of [lo, hi). Assumption log 14. -/
def State.draw (s : State) (lo hi : Nat) : Word × State :=
  match s.oracle with
  | [] => (BitVec.ofNat 64 (freeInRange s.free lo hi), { s with free := s.free + 1 })
  | v :: rest =>
    if lo ≤ v.toNat ∧ v.toNat < hi then (v, { s with oracle := rest })
    else (BitVec.ofNat 64 (freeInRange s.free lo hi), { s with oracle := rest, free := s.free + 1 })

/-- `n` draws from one range, in order (R224). -/
def State.draws (s : State) (lo hi : Nat) : Nat → List Word × State
  | 0 => ([], s)
  | n + 1 =>
    let (v, s1) := s.draw lo hi
    let (vs, s2) := State.draws s1 lo hi n
    (v :: vs, s2)

/-! ## Ending a command (60_exceptions.md R326 step 7, R330, R331) -/

/-- The code of a cause (R320). -/
def Cause.code : Cause → BitVec 4
  | .invalidModulus => 1 | .invalidDegree => 2 | .modulusMismatch => 3 | .preconditionViolation => 4
  | .illegalCommand => 5 | .notInitialised => 6 | .indexOutOfRange => 7 | .zeroNotInvertible => 8
  | .searchExhausted => 9 | .shiftUnderflow => 10

/-- The response of a command, added to the responses given (10_state.md R25). -/
def State.respond (s : State) (r : Response) : State := { s with outbox := r :: s.outbox }

/-- TAKING A FAULT: `raise c` (R330): FAULT, CAUSE, FAULTCMD and the response; nothing else changes, `pc`
stays at the faulting command. There is no return from a fault (R332); reset is `State.resetBlock`. -/
def State.raise (s : State) (c : Cause) : State :=
  { s with fault := true, cause := c.code, faultcmd := s.cmd }.respond { fault := true, cause := c.code, data := 0 }

/-- The refusal of a command while FAULT = 1 (R331): the recorded cause answers, no state changes. -/
def State.refuse (s : State) : State := s.respond { fault := true, cause := s.cause, data := 0 }

/-- A command completes (R326 step 7): `pc <- pc + 1`, response (0, 0, data) (10_state.md R24, R25). -/
def State.complete (s : State) (data : Word) : State :=
  { s with pc := s.pc + 1 }.respond { fault := false, cause := 0, data := data }

/-- RESET (70_reset_and_hazards.md R360: "Power-on and a later reset give the same state"): the block's state is
that of `State.reset`; the parameters and the host's lists are not the block's and stay. There is no response.
DESIGN CHOICE: the free-value counter moves on, so that what the spec left open before a RESET (a free value, the
end of an unspecified root scan) need not come out alike after it, also where a fault took no index of the counter
(42_transform_context.md R198 "need not repeat"). Assumption log 5, 13. -/
def State.resetBlock (s : State) : State :=
  { State.reset with
    cfg := s.cfg, inbox := s.inbox, outbox := s.outbox, oracle := s.oracle,
    free := s.free + 1 }

/-- Why a command ends before it completes: a fault of the block, or an index where no word exists. -/
inductive Stop where
  | raised (c : Cause)
  | noSuchWord
deriving DecidableEq, Repr

/-- The checks and the operation of a command, in the order of its rule: the first check that fails ends it.
A command's writes take effect only when it completes (R330). -/
abbrev Action := Except Stop State

/-- The outcome of a command that gives no response data: completed, faulted with nothing else changed, or
stopped where no word exists. -/
def commit (s : State) (a : Action) : Host.Outcome State Fault Refusal :=
  match a with
  | .ok t => .next (t.complete 0)
  | .error (.raised c) => .next (s.raise c)
  | .error .noSuchWord => .fault .noSuchWord

/-- A check of a command's rule: `c` is raised where the condition fails. -/
def ensure (ok : Bool) (c : Cause) : Except Stop Unit := if ok then .ok () else .error (.raised c)

/-- Words 0 to n - 1 exist in every memory (20_memory.md R60, R62). Always so in a state that meets the
invariant; assumption log 15. -/
def State.wordsExist (s : State) (n : Nat) : Except Stop Unit :=
  if n ≤ s.cfg.nmax then .ok () else .error .noSuchWord

end Sys2Proof.Machine
end

