-- ==== Sys2Proof/Machine/Flags.lean ====
section
/-! DEFINITION. The flags of the block and the checks that read them. There are no arithmetic condition codes
(spec/10_state.md R46); the only flags are MODVALID, CTXVALID, `POLY[p].VALID` and FAULT. -/

namespace Sys2Proof.Machine

/-- The value of STATUS: bit 0 MODVALID, bit 1 CTXVALID, bits 63:2 read 0 (R38). -/
def State.status (s : State) : Word :=
  BitVec.ofNat 64 ((if s.modvalid then 1 else 0) + (if s.ctxvalid then 2 else 0))

/-- MODVALID = 0 raises NotInitialised (40_modular_arithmetic.md R123 (1)). -/
def State.needDescriptor (s : State) : Except Stop Unit := ensure s.modvalid .notInitialised

/-- CTXVALID = 0 raises NotInitialised (43_polynomial_ring.md R221 (1)). -/
def State.needContext (s : State) : Except Stop Unit := ensure s.ctxvalid .notInitialised

/-- `POLY[p].VALID = 0` raises NotInitialised (R221 (2)). -/
def State.needValid (s : State) (p : Buf) : Except Stop Unit := ensure s.poly[p].valid .notInitialised

/-- LOGQ < 2 raises ShiftUnderflow (40_modular_arithmetic.md R123 (2)). -/
def State.needShift (s : State) : Except Stop Unit := ensure (decide (2 ≤ s.logq.toNat)) .shiftUnderflow

/-- SETMOD's flags: MODVALID set, CTXVALID cleared (R121). -/
def State.flagsSetmod (s : State) : State := { s with modvalid := true, ctxvalid := false }

/-- CTXINIT's flags: both set (42_transform_context.md R192). -/
def State.flagsCtxinit (s : State) : State := { s with modvalid := true, ctxvalid := true }

end Sys2Proof.Machine
end

