-- ==== Sys2Proof/Machine/Operands.lean ====
section
/-! DEFINITION. The operand forms and their checks: residues, degrees, moduli, indices, polynomial buffers,
and the polynomial result (spec/40_modular_arithmetic.md R124, spec/41_number_theory.md R163,
spec/43_polynomial_ring.md R221, R232). -/

namespace Sys2Proof.Machine

/-- `S[r]` as a number. -/
def State.nat (s : State) (r : Reg) : Nat := (s.getS r).toNat

/-- A residue operand: `S[r] ≥ CSR.Q` raises PreconditionViolation (R124). -/
def State.needResidue (s : State) (r : Reg) : Except Stop Unit :=
  ensure (decide (s.nat r < s.q.toNat)) .preconditionViolation

/-- v is a power of two, 0 excluded. -/
def isPow2 (v : Nat) : Bool := v != 0 && v == 2 ^ Nat.log2 v

/-- A degree operand: a power of two with 1 ≤ N ≤ bound, else InvalidDegree (R163, R192 (1)). -/
def needDegree (n bound : Nat) : Except Stop Unit :=
  ensure (isPow2 n && decide (n ≤ bound)) .invalidDegree

/-- A modulus operand: q < 2 or q ≥ 2^63 raises InvalidModulus (R121, R171). -/
def needModulus (q : Nat) : Except Stop Unit :=
  ensure (decide (2 ≤ q) && decide (q < two63)) .invalidModulus

/-- q mod 2N ≠ 1 raises InvalidModulus (R173, R192 (3)). -/
def needCongruent (q n : Nat) : Except Stop Unit :=
  ensure (decide (q % (2 * n) = 1)) .invalidModulus

/-- An index operand: `S[r] ≥ CSR.N` raises IndexOutOfRange (20_memory.md R61); and the word exists. -/
def State.needIndex (s : State) (r : Reg) : Except Stop Unit := do
  ensure (decide (s.nat r < s.n.toNat)) .indexOutOfRange
  s.wordsExist (s.nat r + 1)

/-- The tag of a buffer is the context in force: else ModulusMismatch (R221 (3)). -/
def State.needTag (s : State) (p : Buf) : Except Stop Unit :=
  ensure (decide (s.poly[p].tq = s.q ∧ s.poly[p].tn = s.n)) .modulusMismatch

/-- `PolyCheck([p])` (R221) for a command that reads one buffer. -/
def State.polyCheck1 (s : State) (p : Buf) : Except Stop Unit := do
  s.needContext
  s.needValid p
  s.needTag p

/-- `PolyCheck([pa, pb])` (R221): both VALID flags before both tags, in operand order. -/
def State.polyCheck2 (s : State) (pa pb : Buf) : Except Stop Unit := do
  s.needContext
  s.needValid pa
  s.needValid pb
  s.needTag pa
  s.needTag pb

/-- The coefficients of a buffer: words 0 to CSR.N - 1. -/
def State.coeffs (s : State) (p : Buf) : List Val := (s.load (.poly p) s.n.toNat).map ofWord

/-- VALID and the tag of a buffer (R41, R42). -/
def State.tag (s : State) (p : Buf) (tq tn : Word) : State :=
  { s with poly := s.poly.set p { s.poly[p] with valid := true, tq := tq, tn := tn } }

/-- Writing a polynomial result of words to `POLY[pd]` (R232). -/
def State.putPoly (s : State) (pd : Buf) (ws : List Word) : State :=
  (s.store (.poly pd) ws).tag pd s.q s.n

/-- Writing a polynomial result of values of the internal units to `POLY[pd]` (R232). -/
def State.putPolyVals (s : State) (pd : Buf) (vs : List Val) : State :=
  (s.storeVals (.poly pd) vs).tag pd s.q s.n

end Sys2Proof.Machine
end

