-- ==== Sys2Proof/Machine/Move.lean ====
section
/-! DEFINITION. Operand move, read-back and status: MOVZ, MOVK, GET, CSRR (spec/45_move_and_status.md). -/

namespace Sys2Proof.Machine

/-- MOVZ (R300): `S[rd] <- IMM16 · 2^(16·HW)`. -/
def execMovz (rd : Reg) (imm : BitVec 16) (hw : Fin 4) (s : State) : Host.Outcome State Fault Refusal :=
  commit s (.ok (s.setS rd (BitVec.ofNat 64 (imm.toNat * 2 ^ (16 * hw.val)))))

/-- The word with its 16-bit quarter `hw` replaced by `imm` (R301). -/
def replaceQuarter (old : Nat) (imm hw : Nat) : Nat :=
  old - old / 2 ^ (16 * hw) % 2 ^ 16 * 2 ^ (16 * hw) + imm * 2 ^ (16 * hw)

/-- MOVK (R301): quarter HW of `S[rd]` replaced by IMM16, the other 48 bits kept. -/
def execMovk (rd : Reg) (imm : BitVec 16) (hw : Fin 4) (s : State) : Host.Outcome State Fault Refusal :=
  commit s (.ok (s.setS rd (BitVec.ofNat 64 (replaceQuarter (s.nat rd) imm.toNat hw.val))))

/-- GET (R302): the response carries DATA = `S[rs1]`; no state changes except pc. -/
def execGet (rs1 : Reg) (s : State) : Host.Outcome State Fault Refusal :=
  .next (s.complete (s.getS rs1))

/-- The value of a control register, zero-extended to 64 bits (10_state.md R38). -/
def State.csr (s : State) : Csr → Word
  | .status => s.status
  | .q => s.q
  | .logq => s.logq.setWidth 64
  | .mu => s.mu
  | .n => s.n
  | .logn => s.logn.setWidth 64
  | .invN => s.invN
  | .invNShoup => s.invNShoup
  | .nmax => BitVec.ofNat 64 s.cfg.nmax
  | .npoly => BitVec.ofNat 64 s.cfg.npoly

/-- When a control register is readable (R38, R303), else NotInitialised. -/
def State.needReadable (s : State) : Csr → Except Stop Unit
  | .status | .nmax | .npoly => .ok ()
  | .q | .logq | .mu => s.needDescriptor
  | .n | .logn | .invN | .invNShoup => s.needContext

/-- CSRR (R303): `S[rd] <- zext_64(value of control register CSR)`. -/
def execCsrr (rd : Reg) (csr : Csr) (s : State) : Host.Outcome State Fault Refusal :=
  commit s do
    s.needReadable csr
    return s.setS rd (s.csr csr)

end Sys2Proof.Machine
end

