-- ==== Sys2Proof/Machine/Modular.lean ====
section
/-! DEFINITION. The modular arithmetic engine and its commands (spec/40_modular_arithmetic.md).

The units compute on exact natural numbers and narrow at the end. A unit of the first part is the rule's
formula, total; its checked form (`v…`) is the unit as commands of several steps call it: `none` outside the
unit's precondition (R135, U1; assumption log 10). -/

namespace Sys2Proof.Machine

/-! ## The units -/

/-- `bitlen(v)` (00_scope.md R12). -/
def bitlen (v : Nat) : Nat := if v = 0 then 0 else Nat.log2 v + 1

/-- `trunc64(v)`: v mod 2^64, for any integer (00_scope.md R12). -/
def trunc64 (v : Int) : Nat := (v % 2 ^ 64).toNat

/-- A modulus descriptor (R122): q, k = LOGQ, mu. -/
structure Descriptor where
  q : Nat
  k : Nat
  mu : Nat
deriving DecidableEq, Repr

/-- `MakeDescriptor(q)` (R122). -/
def makeDescriptor (q : Nat) : Descriptor :=
  let k := bitlen (q - 1)
  { q := q, k := k, mu := 2 ^ (2 * k) / q }

/-- The descriptor in force: (CSR.Q, CSR.LOGQ, CSR.MU). -/
def State.desc (s : State) : Descriptor := { q := s.q.toNat, k := s.logq.toNat, mu := s.mu.toNat }

/-- `(CSR.Q, CSR.LOGQ, CSR.MU) <- d` (10_state.md R26 to R28). -/
def State.setDesc (s : State) (d : Descriptor) : State :=
  { s with q := BitVec.ofNat 64 d.q, logq := BitVec.ofNat 6 d.k, mu := BitVec.ofNat 64 d.mu }

/-- `ModAdd(a, b)` (R125). -/
def modAdd (q a b : Nat) : Nat :=
  let s := a + b
  let s := if q ≤ s then s - q else s
  if q ≤ s then s - q else s

/-- `ModSub(a, b)` (R126). -/
def modSub (q a b : Nat) : Nat := if b ≤ a then a - b else a + q - b

/-- `ModNeg(a)` (R127). -/
def modNeg (q a : Nat) : Nat := if a = 0 then 0 else q - a

/-- `Mul128(a, b)`: the exact product (R128). -/
def mul128 (a b : Nat) : Nat := a * b

/-- The quotient estimate of `BarrettMul` (R130). -/
def barrettQuot (d : Descriptor) (a b : Nat) : Nat :=
  let x := mul128 a b
  let A := x >>> (d.k - 2)
  let P := A * d.mu
  P >>> (d.k + 2)

/-- `BarrettMul(a, b)` (R130), one correction. -/
def barrettMul (d : Descriptor) (a b : Nat) : Nat :=
  let x := mul128 a b
  let qe := barrettQuot d a b
  let r := trunc64 ((x : Int) - (qe : Int) * (d.q : Int))
  if d.q ≤ r then r - d.q else r

/-- `ModSquare(a) = BarrettMul(a, a)` (R129). -/
def modSquare (d : Descriptor) (a : Nat) : Nat := barrettMul d a a

/-- `BarrettSafe(q)` (R133): the condition under which `BarrettMul` is exact. No command tests it. -/
def barrettSafe (q : Nat) : Bool :=
  let k := bitlen (q - 1)
  let ρ := 2 ^ (2 * k) % q
  decide (ρ * q ^ 2 + 2 ^ (3 * k - 2) ≤ q * 2 ^ (2 * k))

/-- `ShoupPre(b)` (R145). -/
def shoupPre (q b : Nat) : Nat := b * 2 ^ 64 / q

/-- `MulShoup(a, b, bp)` (R146). -/
def mulShoup (q a b bp : Nat) : Nat :=
  let hi := mul128 a bp >>> 64
  let r := trunc64 ((mul128 a b : Int) - (mul128 hi q : Int))
  if q ≤ r then r - q else r

/-! ## The units inside a command of several steps (R135, U1, U2) -/

/-- An operand that must be a residue: `none` unless it is below q (R14, R135). -/
def residue (q : Nat) (a : Val) : Val := a.filter fun x => decide (x < q)

/-- `ModAdd` of two values. -/
def vAdd (q : Nat) (a b : Val) : Val :=
  match residue q a, residue q b with
  | some x, some y => some (modAdd q x y)
  | _, _ => none

/-- `ModSub` of two values. -/
def vSub (q : Nat) (a b : Val) : Val :=
  match residue q a, residue q b with
  | some x, some y => some (modSub q x y)
  | _, _ => none

/-- `ModNeg` of a value. -/
def vNeg (q : Nat) (a : Val) : Val := (residue q a).map (modNeg q)

/-- One `BarrettMul` of two values: the formula's value in every case (R130, 43_polynomial_ring.md R231); its
precondition asks k ≥ 2 too. -/
def vBarrett (d : Descriptor) (a b : Val) : Val :=
  if d.k < 2 then none
  else match residue d.q a, residue d.q b with
    | some x, some y => some (barrettMul d x y)
    | _, _ => none

/-- A `BarrettMul` whose result goes on to further units. A result below q is the exact product or unspecified: a
truncated estimate can leave a wrong value there (R131 (d)), and a command of several steps is unspecified from the
first inexact call on (90_conflicts.md C2). A result at or above q is kept as the word a table stores
(42_transform_context.md R197); no unit accepts it (`residue`). Assumption log 11. -/
def vMul (d : Descriptor) (a b : Val) : Val :=
  match a, b with
  | some x, some y => (vBarrett d a b).filter fun r => decide (d.q ≤ r) || decide (r = x * y % d.q)
  | _, _ => none

/-- `ModSquare` of a value (R129). -/
def vSquare (d : Descriptor) (a : Val) : Val := vMul d a a

/-- `ShoupPre` of a value (R145). -/
def vShoupPre (q : Nat) (b : Val) : Val := (residue q b).map (shoupPre q)

/-- `MulShoup` of three values: the third must be ShoupPre of the second (R146, U2). -/
def vMulShoup (q : Nat) (a b bp : Val) : Val :=
  match residue q a, residue q b, bp with
  | some x, some y, some z => if z = shoupPre q y then some (mulShoup q x y z) else none
  | _, _, _ => none

/-- The loop of `ModExp` (R141): one pass per bit of e, low to high. -/
def modExpLoop (d : Descriptor) : (passes : Nat) → (r base : Val) → (e : Nat) → Val
  | 0, r, _, _ => r
  | f + 1, r, base, e =>
    if e = 0 then r
    else modExpLoop d f (if e % 2 = 1 then vMul d r base else r) (vSquare d base) (e / 2)

/-- `ModExp(a, e)` (R141), e a `u64`, so at most 64 passes. A result at or above q came from an inexact call and is
unspecified (R135, 90_conflicts.md C2; assumption log 10). -/
def modExp (d : Descriptor) (a : Val) (e : Nat) : Val :=
  match residue d.q a with
  | some x => residue d.q (modExpLoop d 64 (some 1) (some x) e)
  | none => none

/-- `ModInv(a) = ModExp(a, q − 2)`, precondition 0 < a < q (R143). -/
def modInv (d : Descriptor) (a : Val) : Val :=
  if a = some 0 then none else modExp d a (d.q - 2)

/-! ## The commands -/

/-- SETMOD (R121). -/
def execSetmod (rs1 : Reg) (s : State) : Host.Outcome State Fault Refusal :=
  commit s do
    needModulus (s.nat rs1)
    return (s.setDesc (makeDescriptor (s.nat rs1))).flagsSetmod

/-- MODADD (R136). -/
def execModadd (rd rs1 rs2 : Reg) (s : State) : Host.Outcome State Fault Refusal :=
  commit s do
    s.needDescriptor
    s.needResidue rs1
    s.needResidue rs2
    return s.setS rd (BitVec.ofNat 64 (modAdd s.q.toNat (s.nat rs1) (s.nat rs2)))

/-- MODSUB (R137). -/
def execModsub (rd rs1 rs2 : Reg) (s : State) : Host.Outcome State Fault Refusal :=
  commit s do
    s.needDescriptor
    s.needResidue rs1
    s.needResidue rs2
    return s.setS rd (BitVec.ofNat 64 (modSub s.q.toNat (s.nat rs1) (s.nat rs2)))

/-- MODNEG (R138). -/
def execModneg (rd rs1 : Reg) (s : State) : Host.Outcome State Fault Refusal :=
  commit s do
    s.needDescriptor
    s.needResidue rs1
    return s.setS rd (BitVec.ofNat 64 (modNeg s.q.toNat (s.nat rs1)))

/-- MODMUL (R139): the formula's value in every case, also outside BarrettSafe (R135). -/
def execModmul (rd rs1 rs2 : Reg) (s : State) : Host.Outcome State Fault Refusal :=
  commit s do
    s.needDescriptor
    s.needShift
    s.needResidue rs1
    s.needResidue rs2
    return s.setS rd (BitVec.ofNat 64 (barrettMul s.desc (s.nat rs1) (s.nat rs2)))

/-- MODSQR (R140). -/
def execModsqr (rd rs1 : Reg) (s : State) : Host.Outcome State Fault Refusal :=
  commit s do
    s.needDescriptor
    s.needShift
    s.needResidue rs1
    return s.setS rd (BitVec.ofNat 64 (modSquare s.desc (s.nat rs1)))

/-- MODEXP (R142): only the base is a residue operand (R124). -/
def execModexp (rd rs1 rs2 : Reg) (s : State) : Host.Outcome State Fault Refusal :=
  commit s do
    s.needDescriptor
    s.needShift
    s.needResidue rs1
    return s.setVal rd (modExp s.desc (some (s.nat rs1)) (s.nat rs2))

/-- MODINV (R144). -/
def execModinv (rd rs1 : Reg) (s : State) : Host.Outcome State Fault Refusal :=
  commit s do
    s.needDescriptor
    s.needShift
    s.needResidue rs1
    ensure (decide (s.nat rs1 ≠ 0)) .zeroNotInvertible
    return s.setVal rd (modInv s.desc (some (s.nat rs1)))

/-- SHOUPPRE (R147). -/
def execShouppre (rd rs1 : Reg) (s : State) : Host.Outcome State Fault Refusal :=
  commit s do
    s.needDescriptor
    s.needResidue rs1
    return s.setS rd (BitVec.ofNat 64 (shoupPre s.q.toNat (s.nat rs1)))

/-- MODMULSH (R148): `S[rs3]` is not checked; where it is not ShoupPre of `S[rs2]` the result is a free value
(U2; assumption log 12). -/
def execModmulsh (rd rs1 rs2 rs3 : Reg) (s : State) : Host.Outcome State Fault Refusal :=
  commit s do
    s.needDescriptor
    s.needResidue rs1
    s.needResidue rs2
    return s.setVal rd (vMulShoup s.q.toNat (some (s.nat rs1)) (some (s.nat rs2)) (some (s.nat rs3)))

end Sys2Proof.Machine
end

