-- ==== Sys2Proof/Machine/NumberTheory.lean ====
section
/-! DEFINITION. The number-theoretic utilities and their commands (spec/41_number_theory.md). -/

namespace Sys2Proof.Machine

/-! ## The units -/

/-- No divisor of n from d up to √n; `fuel` bounds the candidates. -/
def noDivisorFrom (n : Nat) : (fuel d : Nat) → Bool
  | 0, _ => true
  | f + 1, d => if n < d * d then true else if n % d = 0 then false else noDivisorFrom n f (d + 1)

/-- `IsPrime(n)` (R160): the exact predicate, by trial division (the method is free; assumption log 16). -/
def isPrime (n : Nat) : Bool := decide (2 ≤ n) && noDivisorFrom n n 2

/-- n with every factor d taken out, for d ≥ 2; `fuel` bounds their number. -/
def removeFactor (d : Nat) : (fuel n : Nat) → Nat
  | 0, n => n
  | f + 1, n => if n % d = 0 then removeFactor d f (n / d) else n

/-- The primes that divide n, ascending, where n has no divisor from 2 to d - 1. -/
def primeFactorsFrom : (fuel d n : Nat) → List Nat
  | 0, _, _ => []
  | f + 1, d, n =>
    if n < d * d then (if 1 < n then [n] else [])
    else if n % d = 0 then d :: primeFactorsFrom f (d + 1) (removeFactor d (bitlen n) n)
    else primeFactorsFrom f (d + 1) n

/-- `PrimeFactors(n)`, n ≥ 1 (R161): the distinct primes dividing n, ascending; empty for 1. -/
def primeFactors (n : Nat) : List Nat := primeFactorsFrom (n + 1) 2 n

/-- The direction of a prime search (R162). -/
inductive Dir where
  | up | down
deriving DecidableEq, Repr

/-- `PrimeSearch` (R162) from candidate c; `none` is SearchExhausted. The step is at least 2, so `fuel` = 2^63
bounds the candidates in [2, 2^63). -/
def primeSearchFrom (step : Nat) (dir : Dir) : (fuel : Nat) → (c : Int) → Option Nat
  | 0, _ => none
  | f + 1, c =>
    if c < 2 ∨ (2 : Int) ^ 63 ≤ c then none
    else if isPrime c.toNat then some c.toNat
    else primeSearchFrom step dir f (match dir with | .up => c + step | .down => c - step)

/-- `PrimeSearch(start, step, dir)` (R162): the start candidate is tested before any step. -/
def primeSearch (start : Int) (step : Nat) (dir : Dir) : Option Nat := primeSearchFrom step dir (2 ^ 63) start

/-- What the scan finds of a candidate: it passes, it is rejected, or a power the test needs is unspecified
(R170, R135). -/
inductive Verdict where
  | passes | rejected | unspecified
deriving DecidableEq, Repr

/-- The certification test of candidate r (R170): `ModExp_D(r, φ/p) ≠ 1` for every p of F. "The result is
unspecified where a call leaves its exact band", whatever the other powers are: the order of the factors is not
observable. -/
def certify (d : Descriptor) (F : List Nat) (r : Nat) : Verdict :=
  let powers := F.map fun p => modExp d (some r) ((d.q - 1) / p)
  if powers.any (· == none) then .unspecified
  else if powers.any (· == some 1) then .rejected
  else .passes

/-- The end of the scan: a root, no root below q, or a scan whose course the spec leaves arbitrary. -/
inductive Scan where
  | root (r : Nat) | exhausted | unspecified
deriving DecidableEq, Repr

/-- The scan of `FindPrimitiveRoot` from candidate r, `left` candidates left (R170). -/
def scanRoots (d : Descriptor) (F : List Nat) : (left r : Nat) → Scan
  | 0, _ => .exhausted
  | f + 1, r =>
    match certify d F r with
    | .passes => .root r
    | .unspecified => .unspecified
    | .rejected => scanRoots d F f (r + 1)

/-- `FindPrimitiveRoot(q)` (R170): candidates 2 to q − 1. -/
def findPrimitiveRoot (q : Nat) : Scan :=
  scanRoots (makeDescriptor q) (primeFactors (q - 1)) (q - 2) 2

/-- What a command takes from the scan: the root, or SearchExhausted (R170); `unspecified` where the scan is unspecified. -/
def takeScan (unspecified : Except Stop Val) : Scan → Except Stop Val
  | .root r => .ok (some r)
  | .exhausted => .error (.raised .searchExhausted)
  | .unspecified => unspecified

/-- An unspecified scan that may end either way: a free choice, and then an arbitrary root. DESIGN CHOICE: each
choice is its own; one that raised SearchExhausted need not come out alike after RESET, which moves the counter on
(`State.resetBlock`). Assumption log 13. -/
def freeEnd (s : State) : Except Stop Val :=
  if Config.freeChoice s.free then .error (.raised .searchExhausted) else .ok none

/-- What FINDROOT and FINDGEN take from the scan. Where it is unspecified the root is arbitrary, "no fault is raised and
the command completes", for a composite q too (40_modular_arithmetic.md R135, 93_implementation_defined.md U1).
Assumption log 13. -/
def takeRoot (r : Scan) : Except Stop Val := takeScan (.ok none) r

/-- What CTXINIT takes from the scan. Where it is unspecified "the model must allow the fault"
(42_transform_context.md R192). Assumption log 13. -/
def takeRootContext (s : State) (r : Scan) : Except Stop Val := takeScan (freeEnd s) r

/-- The free-value counter after the scan of CTXINIT: a free choice uses one index. -/
def State.afterScan (s : State) : Scan → State
  | .unspecified => { s with free := s.free + 1 }
  | _ => s

/-- The second line of `FindGenerator(q, N)` (R172), from the root g0. -/
def generatorOf (q n : Nat) (g0 : Val) : Val := modExp (makeDescriptor q) g0 ((q - 1) / (2 * n))

/-! ## The commands -/

/-- The degree bound of the utilities (R163). -/
abbrev maxDegree : Nat := 2 ^ 61

/-- What a command takes from a prime search. -/
def takePrime : Option Nat → Except Stop Nat
  | some p => .ok p
  | none => .error (.raised .searchExhausted)

/-- FPRIMEUP (R164). -/
def execFprimeup (rd rs1 rs2 : Reg) (s : State) : Host.Outcome State Fault Refusal :=
  commit s do
    needDegree (s.nat rs2) maxDegree
    ensure (decide (s.nat rs1 < 63)) .searchExhausted
    let p ← takePrime (primeSearch (2 ^ s.nat rs1 + 1) (2 * s.nat rs2) .up)
    return s.setS rd (BitVec.ofNat 64 p)

/-- FPRIMEDN (R165). -/
def execFprimedn (rd rs1 rs2 : Reg) (s : State) : Host.Outcome State Fault Refusal :=
  commit s do
    needDegree (s.nat rs2) maxDegree
    ensure (decide (s.nat rs1 < 64)) .searchExhausted
    let p ← takePrime (primeSearch (2 ^ s.nat rs1 + 1 - 2 * (s.nat rs2 : Int)) (2 * s.nat rs2) .down)
    return s.setS rd (BitVec.ofNat 64 p)

/-- NPRIMEUP (R166): the first candidate is prev_q + 2N. -/
def execNprimeup (rd rs1 rs2 : Reg) (s : State) : Host.Outcome State Fault Refusal :=
  commit s do
    needDegree (s.nat rs2) maxDegree
    let p ← takePrime (primeSearch ((s.nat rs1 : Int) + 2 * (s.nat rs2 : Int)) (2 * s.nat rs2) .up)
    return s.setS rd (BitVec.ofNat 64 p)

/-- NPRIMEDN (R167): the first candidate is prev_q − 2N. -/
def execNprimedn (rd rs1 rs2 : Reg) (s : State) : Host.Outcome State Fault Refusal :=
  commit s do
    needDegree (s.nat rs2) maxDegree
    let p ← takePrime (primeSearch ((s.nat rs1 : Int) - 2 * (s.nat rs2 : Int)) (2 * s.nat rs2) .down)
    return s.setS rd (BitVec.ofNat 64 p)

/-- FINDROOT (R171). -/
def execFindroot (rd rs1 : Reg) (s : State) : Host.Outcome State Fault Refusal :=
  commit s do
    needModulus (s.nat rs1)
    let g0 ← takeRoot (findPrimitiveRoot (s.nat rs1))
    return s.setVal rd g0

/-- FINDGEN (R173). -/
def execFindgen (rd rs1 rs2 : Reg) (s : State) : Host.Outcome State Fault Refusal :=
  commit s do
    needDegree (s.nat rs2) maxDegree
    needModulus (s.nat rs1)
    needCongruent (s.nat rs1) (s.nat rs2)
    let g0 ← takeRoot (findPrimitiveRoot (s.nat rs1))
    return s.setVal rd (generatorOf (s.nat rs1) (s.nat rs2) g0)

end Sys2Proof.Machine
end

