-- ==== Sys2Proof/Machine/Context.lean ====
section
/-! DEFINITION. The transform context: bit reversal, the twiddle-table generator, CTXINIT and TWRD
(spec/42_transform_context.md). -/

namespace Sys2Proof.Machine

/-! ## The bit-reversal network -/

/-- `BitRev(i, w)` (R194): bit b of i becomes bit w − 1 − b. Bit 0 goes to the top, the bits above it are
reversed below. -/
def bitRev (i : Nat) : (w : Nat) → Nat
  | 0 => 0
  | w + 1 => i % 2 * 2 ^ w + bitRev (i / 2) w

/-! ## The twiddle-table generator -/

/-- Entry i of a list of values; none past its end. -/
def entry (l : List Val) (i : Nat) : Val := l.getD i none

/-- The running powers p, p·g, p·g², … (R196): `count` of them, by repeated `BarrettMul`. -/
def powersFrom (d : Descriptor) (g : Val) : (count : Nat) → (p : Val) → List Val
  | 0, _ => []
  | n + 1, p => p :: powersFrom d g n (vMul d p g)

/-- A table of 2^w words whose word `BitRev(i, w)` is entry i of `ps` (R196). BitRev is an involution (R194), so
word j is entry `BitRev(j, w)`. -/
def bitReversed (w : Nat) (ps : List Val) : List Val := (List.range (2 ^ w)).map fun j => entry ps (bitRev j w)

/-- What `BuildTables` computes (R196). -/
structure Tables where
  tf : List Val
  itf : List Val
  tfShoup : List Val
  itfShoup : List Val
  invN : Val
  invNShoup : Val
deriving DecidableEq, Repr

/-- `BuildTables(q, N)` (R196) from the primitive root g0 of q, N = 2^w. -/
def buildTables (q n : Nat) (g0 : Val) : Tables :=
  let d := makeDescriptor q
  let w := Nat.log2 n
  let g := generatorOf q n g0
  let ginv := modInv d g
  let tf := bitReversed w (powersFrom d g n (some 1))
  let itf := bitReversed w (powersFrom d ginv n (some 1))
  let invN := modInv d (some n)
  { tf := tf, itf := itf, tfShoup := tf.map (vShoupPre q), itfShoup := itf.map (vShoupPre q),
    invN := invN, invNShoup := vShoupPre q invN }

/-- One value stored in a control register: an arbitrary one is the next free value (R135). -/
def takeVal (k : Nat) (v : Val) : Word × Nat :=
  match v with
  | some x => (BitVec.ofNat 64 x, k)
  | none => (Config.freeWord k, k + 1)

/-- The two scalars of the context (10_state.md R36). -/
def State.setInvN (s : State) (v vs : Val) : State :=
  { s with
    invN := (takeVal s.free v).1
    invNShoup := (takeVal (takeVal s.free v).2 vs).1
    free := (takeVal (takeVal s.free v).2 vs).2 }

/-- The degree of the context and its logarithm (R31). -/
def State.setDegree (s : State) (n : Nat) : State :=
  { s with n := BitVec.ofNat 64 n, logn := BitVec.ofNat 6 (Nat.log2 n) }

/-- The context written (R192, Operation): the words 0 to N − 1 of the four tables and the two scalars. -/
def State.setTables (s : State) (t : Tables) : State :=
  ((((s.storeVals .tf t.tf).storeVals .itf t.itf).storeVals .tfShoup t.tfShoup).storeVals .itfShoup t.itfShoup).setInvN
    t.invN t.invNShoup

/-! ## The commands -/

/-- CTXINIT (R192). -/
def execCtxinit (rs1 rs2 : Reg) (s : State) : Host.Outcome State Fault Refusal :=
  commit s do
    needDegree (s.nat rs2) s.cfg.nmax
    needModulus (s.nat rs1)
    needCongruent (s.nat rs1) (s.nat rs2)
    ensure (isPrime (s.nat rs1)) .invalidModulus
    let g0 ← takeRootContext s (findPrimitiveRoot (s.nat rs1))
    return ((((s.afterScan (findPrimitiveRoot (s.nat rs1))).setDesc (makeDescriptor (s.nat rs1))).setDegree
      (s.nat rs2)).setTables (buildTables (s.nat rs1) (s.nat rs2) g0)).flagsCtxinit

/-- The memory of a table (30_encoding.md R94). -/
def tableSpace : Tbl → Space
  | .tf => .tf | .tfShoup => .tfShoup | .itf => .itf | .itfShoup => .itfShoup

/-- TWRD (R199). -/
def execTwrd (rd : Reg) (tbl : Tbl) (rs1 : Reg) (s : State) : Host.Outcome State Fault Refusal :=
  commit s do
    s.needContext
    s.needIndex rs1
    return s.setS rd (s.memRead (tableSpace tbl) (s.nat rs1))

end Sys2Proof.Machine
end

