-- ==== Sys2Proof/Machine/Polynomial.lean ====
section
/-! DEFINITION. Polynomial buffers, coefficient access and elementwise ring operations
(spec/43_polynomial_ring.md). -/

namespace Sys2Proof.Machine

/-- PZERO (R222). -/
def execPzero (pd : Buf) (s : State) : Host.Outcome State Fault Refusal :=
  commit s do
    s.needContext
    s.wordsExist s.n.toNat
    return s.putPoly pd (List.replicate s.n.toNat 0)

/-- PRAND (R224): N draws of RandRange(1, CSR.Q), coefficient 0 first. -/
def execPrand (pd : Buf) (s : State) : Host.Outcome State Fault Refusal :=
  commit s do
    s.needContext
    s.wordsExist s.n.toNat
    let drawn := s.draws 1 s.q.toNat s.n.toNat
    return drawn.2.putPoly pd drawn.1

/-- PWR (R225): the index is tested before the value. -/
def execPwr (pd : Buf) (rs1 rs2 : Reg) (s : State) : Host.Outcome State Fault Refusal :=
  commit s do
    s.polyCheck1 pd
    ensure (decide (s.nat rs1 < s.n.toNat)) .indexOutOfRange
    s.needResidue rs2
    s.wordsExist (s.nat rs1 + 1)
    return s.memWrite (.poly pd) (s.nat rs1) (s.getS rs2)

/-- PRD (R226). -/
def execPrd (rd : Reg) (pa : Buf) (rs2 : Reg) (s : State) : Host.Outcome State Fault Refusal :=
  commit s do
    s.polyCheck1 pa
    s.needIndex rs2
    return s.setS rd (s.memRead (.poly pa) (s.nat rs2))

/-- PCOPY (R227): the source's own TN words and tag; no context needed. -/
def execPcopy (pd pa : Buf) (s : State) : Host.Outcome State Fault Refusal :=
  commit s do
    s.needValid pa
    s.wordsExist s.poly[pa].tn.toNat
    return (s.store (.poly pd) (s.load (.poly pa) s.poly[pa].tn.toNat)).tag pd s.poly[pa].tq s.poly[pa].tn

/-- PADD (R228). -/
def execPadd (pd pa pb : Buf) (s : State) : Host.Outcome State Fault Refusal :=
  commit s do
    s.polyCheck2 pa pb
    s.wordsExist s.n.toNat
    return s.putPolyVals pd (List.zipWith (vAdd s.q.toNat) (s.coeffs pa) (s.coeffs pb))

/-- PSUB (R229). -/
def execPsub (pd pa pb : Buf) (s : State) : Host.Outcome State Fault Refusal :=
  commit s do
    s.polyCheck2 pa pb
    s.wordsExist s.n.toNat
    return s.putPolyVals pd (List.zipWith (vSub s.q.toNat) (s.coeffs pa) (s.coeffs pb))

/-- PNEG (R230). -/
def execPneg (pd pa : Buf) (s : State) : Host.Outcome State Fault Refusal :=
  commit s do
    s.polyCheck1 pa
    s.wordsExist s.n.toNat
    return s.putPolyVals pd ((s.coeffs pa).map (vNeg s.q.toNat))

/-- PMULPW (R231): each word is one BarrettMul, exactly rule R130's value on canonical inputs. -/
def execPmulpw (pd pa pb : Buf) (s : State) : Host.Outcome State Fault Refusal :=
  commit s do
    s.polyCheck2 pa pb
    s.wordsExist s.n.toNat
    return s.putPolyVals pd (List.zipWith (vBarrett s.desc) (s.coeffs pa) (s.coeffs pb))

end Sys2Proof.Machine
end

