-- ==== Sys2Proof/Machine/Transform.lean ====
section
/-! DEFINITION. The butterfly networks, the convolutions and their commands
(spec/44_ntt_and_convolution.md). -/

namespace Sys2Proof.Machine

/-! ## The context as the transforms read it -/

/-- The descriptor, the degree, the tables and the scalars of the context (10_state.md R30 to R36). -/
structure Ctx where
  d : Descriptor
  n : Nat
  tf : List Val
  tfShoup : List Val
  itf : List Val
  itfShoup : List Val
  invN : Val
  invNShoup : Val
deriving DecidableEq, Repr

/-- The context in force. -/
def State.ctx (s : State) : Ctx where
  d := s.desc
  n := s.n.toNat
  tf := (s.load .tf s.n.toNat).map ofWord
  tfShoup := (s.load .tfShoup s.n.toNat).map ofWord
  itf := (s.load .itf s.n.toNat).map ofWord
  itfShoup := (s.load .itfShoup s.n.toNat).map ofWord
  invN := ofWord s.invN
  invNShoup := ofWord s.invNShoup

/-- Plain (Barrett) or Shoup butterflies (R251). -/
inductive Mode where
  | plain | shoup
deriving DecidableEq, Repr

/-- `TwMul(mode, a, W, WS)` (R251): WS is not read in the plain mode. -/
def twMul (mode : Mode) (d : Descriptor) (a w ws : Val) : Val :=
  match mode with
  | .plain => vMul d a w
  | .shoup => vMulShoup d.q a w ws

/-! ## The forward transform (R252) -/

/-- The t butterflies of one group of 2t words: the pairs (j, j + t), multiply before combine (R252). They touch
disjoint words, so they are done together (R254). -/
def forwardGroup (mode : Mode) (d : Descriptor) (w ws : Val) (t : Nat) (blk : List Val) : List Val :=
  let u := blk.take t
  let v := (blk.drop t).map fun x => twMul mode d x w ws
  List.zipWith (vAdd d.q) u v ++ List.zipWith (vSub d.q) u v

/-- One level (R252): group after group of 2t contiguous words; the group at hand uses table word k, the next
one word k + 1. -/
def forwardLevel (mode : Mode) (c : Ctx) (t : Nat) : (groups k : Nat) → List Val → List Val
  | 0, _, a => a
  | g + 1, k, a =>
    forwardGroup mode c.d (entry c.tf k) (entry c.tfShoup k) t (a.take (2 * t))
      ++ forwardLevel mode c t g (k + 1) (a.drop (2 * t))

/-- The levels (R252): t halves, then the m groups use words m to 2m − 1, then m doubles, while m < N. At most
64 levels, as N < 2^64. -/
def forwardLoop (mode : Mode) (c : Ctx) : (levels t m : Nat) → List Val → List Val
  | 0, _, _, a => a
  | f + 1, t, m, a =>
    if m < c.n then forwardLoop mode c f (t / 2) (2 * m) (forwardLevel mode c (t / 2) m m a) else a

/-- `NttForward(c, mode)` (R252). -/
def nttForward (mode : Mode) (c : Ctx) (a : List Val) : List Val := forwardLoop mode c 64 c.n 1 a

/-! ## The inverse transform (R257) -/

/-- The t butterflies of one group of 2t words: combine, then multiply the difference slot (R257). -/
def inverseGroup (mode : Mode) (d : Descriptor) (w ws : Val) (t : Nat) (blk : List Val) : List Val :=
  let u := blk.take t
  let v := blk.drop t
  List.zipWith (vAdd d.q) u v ++ (List.zipWith (vSub d.q) u v).map fun x => twMul mode d x w ws

/-- One level (R257): the group at hand uses inverse-table word k, the next one word k + 1. -/
def inverseLevel (mode : Mode) (c : Ctx) (t : Nat) : (groups k : Nat) → List Val → List Val
  | 0, _, a => a
  | g + 1, k, a =>
    inverseGroup mode c.d (entry c.itf k) (entry c.itfShoup k) t (a.take (2 * t))
      ++ inverseLevel mode c t g (k + 1) (a.drop (2 * t))

/-- The levels (R257): h = m/2 groups use words h to 2h − 1, then t doubles and m becomes h, while m > 1. -/
def inverseLoop (mode : Mode) (c : Ctx) : (levels t m : Nat) → List Val → List Val
  | 0, _, _, a => a
  | f + 1, t, m, a =>
    if 1 < m then inverseLoop mode c f (2 * t) (m / 2) (inverseLevel mode c t (m / 2) (m / 2) a) else a

/-- `NttInverse(c, mode)` (R257): the levels, then every word times N⁻¹. A last product at or above q came from an
inexact call and is unspecified (R135, 90_conflicts.md C2; assumption log 10). -/
def nttInverse (mode : Mode) (c : Ctx) (a : List Val) : List Val :=
  (inverseLoop mode c 64 1 c.n a).map fun x => residue c.d.q (twMul mode c.d x c.invN c.invNShoup)

/-! ## The convolutions -/

/-- The accumulator of output i after the terms j = 0 to count − 1 (R264), in increasing j: added for j ≤ i,
subtracted for j > i. -/
def naiveAcc (d : Descriptor) (n : Nat) (a b : List Val) (i : Nat) : (count : Nat) → Val
  | 0 => some 0
  | j + 1 =>
    if j ≤ i then vAdd d.q (naiveAcc d n a b i j) (vMul d (entry a j) (entry b (i - j)))
    else vSub d.q (naiveAcc d n a b i j) (vMul d (entry a j) (entry b (n + i - j)))

/-- `NaiveConv(a, b)` (R264). -/
def naiveConv (c : Ctx) (a b : List Val) : List Val := (List.range c.n).map fun i => naiveAcc c.d c.n a b i c.n

/-- `FastConv(a, b, mode)` (R267): the pointwise stage is BarrettMul in both modes. -/
def fastConv (mode : Mode) (c : Ctx) (a b : List Val) : List Val :=
  nttInverse mode c (List.zipWith (vMul c.d) (nttForward mode c a) (nttForward mode c b))

/-! ## The commands -/

/-- NTT (R255). -/
def execNtt (pd : Buf) (s : State) : Host.Outcome State Fault Refusal :=
  commit s do
    s.polyCheck1 pd
    s.wordsExist s.n.toNat
    return s.putPolyVals pd (nttForward .plain s.ctx (s.coeffs pd))

/-- INTT (R259). -/
def execIntt (pd : Buf) (s : State) : Host.Outcome State Fault Refusal :=
  commit s do
    s.polyCheck1 pd
    s.wordsExist s.n.toNat
    return s.putPolyVals pd (nttInverse .plain s.ctx (s.coeffs pd))

/-- NTTSH (R262). -/
def execNttsh (pd : Buf) (s : State) : Host.Outcome State Fault Refusal :=
  commit s do
    s.polyCheck1 pd
    s.wordsExist s.n.toNat
    return s.putPolyVals pd (nttForward .shoup s.ctx (s.coeffs pd))

/-- INTTSH (R263). -/
def execInttsh (pd : Buf) (s : State) : Host.Outcome State Fault Refusal :=
  commit s do
    s.polyCheck1 pd
    s.wordsExist s.n.toNat
    return s.putPolyVals pd (nttInverse .shoup s.ctx (s.coeffs pd))

/-- CONVNAIVE (R266). -/
def execConvnaive (pd pa pb : Buf) (s : State) : Host.Outcome State Fault Refusal :=
  commit s do
    s.polyCheck2 pa pb
    s.wordsExist s.n.toNat
    return s.putPolyVals pd (naiveConv s.ctx (s.coeffs pa) (s.coeffs pb))

/-- CONV (R269). -/
def execConv (pd pa pb : Buf) (s : State) : Host.Outcome State Fault Refusal :=
  commit s do
    s.polyCheck2 pa pb
    s.wordsExist s.n.toNat
    return s.putPolyVals pd (fastConv .plain s.ctx (s.coeffs pa) (s.coeffs pb))

/-- CONVSH (R270). -/
def execConvsh (pd pa pb : Buf) (s : State) : Host.Outcome State Fault Refusal :=
  commit s do
    s.polyCheck2 pa pb
    s.wordsExist s.n.toNat
    return s.putPolyVals pd (fastConv .shoup s.ctx (s.coeffs pa) (s.coeffs pb))

end Sys2Proof.Machine
end

