-- ==== Sys2Proof/Machine/Dispatch.lean ====
section
/-! DEFINITION. One arm per command, each one direct call of its meaning. -/

namespace Sys2Proof.Machine

/-- What a decoded command does to a state that is not faulted (spec/60_exceptions.md R326 steps 3 to 7). -/
def exec (i : Instr) (s : State) : Host.Outcome State Fault Refusal :=
  match i with
  | .movz rd imm hw => Sys2Proof.Machine.execMovz rd imm hw s
  | .movk rd imm hw => Sys2Proof.Machine.execMovk rd imm hw s
  | .get rs1 => Sys2Proof.Machine.execGet rs1 s
  | .csrr rd csr => Sys2Proof.Machine.execCsrr rd csr s
  | .setmod rs1 => Sys2Proof.Machine.execSetmod rs1 s
  | .modadd rd rs1 rs2 => Sys2Proof.Machine.execModadd rd rs1 rs2 s
  | .modsub rd rs1 rs2 => Sys2Proof.Machine.execModsub rd rs1 rs2 s
  | .modneg rd rs1 => Sys2Proof.Machine.execModneg rd rs1 s
  | .modmul rd rs1 rs2 => Sys2Proof.Machine.execModmul rd rs1 rs2 s
  | .modsqr rd rs1 => Sys2Proof.Machine.execModsqr rd rs1 s
  | .modexp rd rs1 rs2 => Sys2Proof.Machine.execModexp rd rs1 rs2 s
  | .modinv rd rs1 => Sys2Proof.Machine.execModinv rd rs1 s
  | .shouppre rd rs1 => Sys2Proof.Machine.execShouppre rd rs1 s
  | .modmulsh rd rs1 rs2 rs3 => Sys2Proof.Machine.execModmulsh rd rs1 rs2 rs3 s
  | .fprimeup rd rs1 rs2 => Sys2Proof.Machine.execFprimeup rd rs1 rs2 s
  | .fprimedn rd rs1 rs2 => Sys2Proof.Machine.execFprimedn rd rs1 rs2 s
  | .nprimeup rd rs1 rs2 => Sys2Proof.Machine.execNprimeup rd rs1 rs2 s
  | .nprimedn rd rs1 rs2 => Sys2Proof.Machine.execNprimedn rd rs1 rs2 s
  | .findroot rd rs1 => Sys2Proof.Machine.execFindroot rd rs1 s
  | .findgen rd rs1 rs2 => Sys2Proof.Machine.execFindgen rd rs1 rs2 s
  | .ctxinit rs1 rs2 => Sys2Proof.Machine.execCtxinit rs1 rs2 s
  | .twrd rd tbl rs1 => Sys2Proof.Machine.execTwrd rd tbl rs1 s
  | .pzero pd => Sys2Proof.Machine.execPzero pd s
  | .prand pd => Sys2Proof.Machine.execPrand pd s
  | .pwr pd rs1 rs2 => Sys2Proof.Machine.execPwr pd rs1 rs2 s
  | .prd rd pa rs2 => Sys2Proof.Machine.execPrd rd pa rs2 s
  | .pcopy pd pa => Sys2Proof.Machine.execPcopy pd pa s
  | .padd pd pa pb => Sys2Proof.Machine.execPadd pd pa pb s
  | .psub pd pa pb => Sys2Proof.Machine.execPsub pd pa pb s
  | .pneg pd pa => Sys2Proof.Machine.execPneg pd pa s
  | .pmulpw pd pa pb => Sys2Proof.Machine.execPmulpw pd pa pb s
  | .ntt pd => Sys2Proof.Machine.execNtt pd s
  | .intt pd => Sys2Proof.Machine.execIntt pd s
  | .nttsh pd => Sys2Proof.Machine.execNttsh pd s
  | .inttsh pd => Sys2Proof.Machine.execInttsh pd s
  | .convnaive pd pa pb => Sys2Proof.Machine.execConvnaive pd pa pb s
  | .conv pd pa pb => Sys2Proof.Machine.execConv pd pa pb s
  | .convsh pd pa pb => Sys2Proof.Machine.execConvsh pd pa pb s

end Sys2Proof.Machine
end

