-- ==== Sys2Proof/Machine/Sequencer.lean ====
section
/-! DEFINITION. The command sequencer: how the block takes what the host presents (spec/60_exceptions.md R326,
R331, R340, R346; spec/70_reset_and_hazards.md R360, R367). -/

namespace Sys2Proof.Machine

/-- The block executes command word w (R326): refused while FAULT = 1 (step 1, R331), else decoded, IllegalCommand
where that fails (step 2), else executed (steps 3 to 7). -/
def runWord (w : CmdWord) (s : State) : Host.Outcome State Fault Refusal :=
  if s.fault then .next s.refuse
  else match decodeLegal s.cfg.npoly w with
    | none => .next ({ s with cmd := w }.raise .illegalCommand)
    | some i => exec i { s with cmd := w }

/-- The block takes the next host input. With nothing presented it is idle and keeps all state (60_exceptions.md
R346; assumption log 4). -/
def takeInput (s : State) : Host.Outcome State Fault Refusal :=
  match s.inbox with
  | [] => .next s
  | .reset :: rest => .next { s with inbox := rest }.resetBlock
  | .cmd w :: rest => runWord w { s with inbox := rest }

/-- The host presents command word w next, before what waits in the inbox. -/
def State.presentWord (s : State) (w : CmdWord) : State := { s with inbox := .cmd w :: s.inbox }

end Sys2Proof.Machine
end

