-- ==== Sys2Proof/Machine/Step.lean ====
section
/-! DEFINITION. One step of the machine (spec/00_scope.md R16). -/

namespace Sys2Proof.Machine

/-- One step: the block takes the next host input. -/
def step (s : State) : Host.Outcome State Fault Refusal := takeInput s

/-- The state in which the host presents that opcode-table word next. The block fetches nothing (10_state.md
R24): a program is what the host presents (assumption log 4). -/
def State.withFetchWord (s : State) (nbits w : Nat) : State := s.presentWord (tableWord nbits w)

end Sys2Proof.Machine
end

