-- ==== Sys2Proof/Safety.lean ====
section
/-! DEFINITION. What counts as a safe run and a well-formed state, and the shapes a command's result takes:
the words the statements of Certificates/Slice0/Obligations.lean are written in. -/

namespace Sys2Proof.Machine

/-! ## Good states (spec/60_exceptions.md R333) -/

/-- A state with FAULT = 1 is never a good final state (R333). -/
def State.good (s : State) : Bool := !s.fault

/-! ## The invariant of the block -/

/-- Words 0 to n - 1 of a memory have been written (20_memory.md R62). -/
def Mem.writtenBelow (m : Mem) (n : Nat) : Prop := ∀ i < n, (m.find i).isSome = true

/-- v is 2^k for some k ≤ 61 (00_scope.md R7). -/
def Degree (v : Nat) : Prop := ∃ k, k ≤ 61 ∧ v = 2 ^ k

/-- The invariant of the modulus descriptor (10_state.md R29). -/
structure DescriptorOk (s : State) : Prop where
  two_le : 2 ≤ s.q.toNat
  lt : s.q.toNat < two63
  logq : s.logq.toNat = bitlen (s.q.toNat - 1)
  mu : s.mu.toNat = 2 ^ (2 * s.logq.toNat) / s.q.toNat

/-- The invariant of the context that holds for every modulus (10_state.md R31, R37; 42_transform_context.md R192). -/
structure ContextOk (s : State) : Prop where
  modvalid : s.modvalid = true
  prime : s.q.toNat.Prime
  degree : s.n.toNat = 2 ^ s.logn.toNat
  bound : s.n.toNat ≤ s.cfg.nmax
  congruent : s.q.toNat % (2 * s.n.toNat) = 1
  tf : Mem.writtenBelow s.tf s.n.toNat
  tfShoup : Mem.writtenBelow s.tfShoup s.n.toNat
  itf : Mem.writtenBelow s.itf s.n.toNat
  itfShoup : Mem.writtenBelow s.itfShoup s.n.toNat
  tf_zero : s.memRead .tf 0 = 1
  itf_zero : s.memRead .itf 0 = 1

/-- A valid buffer exists, carries the tag of a context that could be built, and has its coefficients written
(10_state.md R40 to R42). -/
structure BufferOk (s : State) (p : Buf) : Prop where
  present : p.val < s.cfg.npoly
  two_le : 2 ≤ s.poly[p].tq.toNat
  lt : s.poly[p].tq.toNat < two63
  degree : Degree s.poly[p].tn.toNat
  bound : s.poly[p].tn.toNat ≤ s.cfg.nmax
  words : Mem.writtenBelow s.poly[p].words s.poly[p].tn.toNat

/-- The fault registers agree (10_state.md R45; 60_exceptions.md R320). -/
structure FaultsOk (s : State) : Prop where
  clear : s.fault = false → s.cause = 0 ∧ s.faultcmd = 0
  coded : s.fault = true → ∃ c : Cause, s.cause = c.code

/-- The invariant every step keeps. -/
structure Inv (s : State) : Prop where
  cfg : s.cfg.ok
  canonical : ∀ m : Space, (s.mem m).wf
  inside : ∀ m : Space, ∀ c ∈ s.mem m, c.1 < s.cfg.nmax
  descriptor : s.modvalid = true → DescriptorOk s
  context : s.ctxvalid = true → ContextOk s
  buffers : ∀ p : Buf, s.poly[p].valid = true → BufferOk s p
  faults : FaultsOk s

/-- The tables of a context hold residues, each Shoup word that of its partner (10_state.md R33, R35 to R37). -/
structure TablesCanonical (s : State) : Prop where
  tf : ∀ i < s.n.toNat, (s.memRead .tf i).toNat < s.q.toNat
  itf : ∀ i < s.n.toNat, (s.memRead .itf i).toNat < s.q.toNat
  tfShoup : ∀ i < s.n.toNat, (s.memRead .tfShoup i).toNat = shoupPre s.q.toNat (s.memRead .tf i).toNat
  itfShoup : ∀ i < s.n.toNat, (s.memRead .itfShoup i).toNat = shoupPre s.q.toNat (s.memRead .itf i).toNat
  invN : s.invN.toNat < s.q.toNat
  invNShoup : s.invNShoup.toNat = shoupPre s.q.toNat s.invN.toNat

/-- The tables are the bit-reversed powers of a primitive 2N-th root g and of its inverse, and INV_N inverts N
(42_transform_context.md R197, R200). -/
structure TablesArePowers (s : State) (g : Nat) : Prop where
  root : g ^ s.n.toNat % s.q.toNat = s.q.toNat - 1
  tf : ∀ i < s.n.toNat, (s.memRead .tf (bitRev i s.logn.toNat)).toNat = g ^ i % s.q.toNat
  itf : ∀ i < s.n.toNat, (s.memRead .itf (bitRev i s.logn.toNat)).toNat * g ^ i % s.q.toNat = 1
  invN : s.invN.toNat * s.n.toNat % s.q.toNat = 1

/-- The coefficient invariant (10_state.md R44) and the context invariant (R37), which hold under BarrettSafe: every
coefficient and every table word is a canonical residue and the tables are the powers of a root. -/
structure Canonical (s : State) : Prop where
  tables : s.ctxvalid = true → barrettSafe s.q.toNat = true → TablesCanonical s ∧ ∃ g, TablesArePowers s g
  coeffs : ∀ p : Buf, s.poly[p].valid = true → barrettSafe s.poly[p].tq.toNat = true →
    ∀ i < s.poly[p].tn.toNat, (s.memRead (.poly p) i).toNat < s.poly[p].tq.toNat

/-! ## Roots -/

/-- r passes the certification test of q with exact powers: r^((q−1)/p) is not 1 modulo q for any prime p dividing q − 1
(41_number_theory.md R170). -/
def Certified (q r : Nat) : Prop := ∀ p, p.Prime → p ∣ q - 1 → r ^ ((q - 1) / p) % q ≠ 1

/-- r is the first candidate of 2, …, q − 1 that passes the test (R170). -/
structure SmallestRoot (q r : Nat) : Prop where
  two_le : 2 ≤ r
  lt : r < q
  certified : Certified q r
  least : ∀ c, 2 ≤ c → c < r → ¬ Certified q c

/-- `FindGenerator(q, N)` from the root r, with exact powers (R172): r^((q−1)/2N) modulo q. -/
def generatorFrom (q n r : Nat) : Nat := r ^ ((q - 1) / (2 * n)) % q

/-! ## The shapes of a result -/

/-- The state after a fault: R330 written out. -/
def faulted (s : State) (c : Cause) : State :=
  { s with fault := true, cause := c.code, faultcmd := s.cmd,
           outbox := { fault := true, cause := c.code, data := 0 } :: s.outbox }

/-- The state after a command that completes and changes nothing but pc and its response (R326 step 7). -/
def completed (s : State) (data : Word) : State :=
  { s with pc := s.pc + 1, outbox := { fault := false, cause := 0, data := data } :: s.outbox }

/-- The state after a command that completes and writes v to one scalar register, and nothing else. -/
def wroteReg (s : State) (rd : Reg) (v : Word) : State :=
  { s with sreg := s.sreg.set rd v, pc := s.pc + 1,
           outbox := { fault := false, cause := 0, data := 0 } :: s.outbox }

/-- A command completes having written one scalar register and, of the model's own fields, the free-value counter. -/
def CompletesIn (s : State) (rd : Reg) (o : Host.Outcome State Fault Refusal) : Prop :=
  ∃ v k, o = .next { wroteReg s rd v with free := k }

/-- t is s after a command that completes with a polynomial result in buffer pd tagged (tq, tn): nothing but that
buffer, pc, the response and the model's free-value counter changes, and in the buffer no word at tn or above
(43_polynomial_ring.md R232). -/
def PolyResult (s t : State) (pd : Buf) (tq tn : Word) : Prop :=
  t = { s with poly := s.poly.set pd t.poly[pd], pc := s.pc + 1, free := t.free,
               outbox := { fault := false, cause := 0, data := 0 } :: s.outbox } ∧
  t.poly[pd].valid = true ∧ t.poly[pd].tq = tq ∧ t.poly[pd].tn = tn ∧
  ∀ i, tn.toNat ≤ i → t.memRead (.poly pd) i = s.memRead (.poly pd) i

/-- The value v lies where the words of a result must: v itself, or any word where the spec leaves it arbitrary
(93_implementation_defined.md U1). -/
def Agrees (v : Val) (w : Word) : Prop := ∀ x, v = some x → w = BitVec.ofNat 64 x

/-- Coefficient i of a buffer as a number. -/
def State.coeff (s : State) (p : Buf) (i : Nat) : Nat := (s.memRead (.poly p) i).toNat

/-- Both sources of a polynomial command pass PolyCheck, and their words exist (43_polynomial_ring.md R221). -/
structure PolyReady (s : State) (p : Buf) : Prop where
  context : s.ctxvalid = true
  valid : s.poly[p].valid = true
  tq : s.poly[p].tq = s.q
  tn : s.poly[p].tn = s.n
  bound : s.n.toNat ≤ s.cfg.nmax

end Sys2Proof.Machine

namespace Sys2Proof

/-! ## What a command reads and writes (the operand columns of 30_encoding.md R95) -/

/-- The scalar register a command writes. -/
def Instr.destReg : Instr → Option Reg
  | .movz rd _ _ | .movk rd _ _ | .csrr rd _ => some rd
  | .modadd rd _ _ | .modsub rd _ _ | .modneg rd _ | .modmul rd _ _ | .modsqr rd _ | .modexp rd _ _ => some rd
  | .modinv rd _ | .shouppre rd _ | .modmulsh rd _ _ _ => some rd
  | .fprimeup rd _ _ | .fprimedn rd _ _ | .nprimeup rd _ _ | .nprimedn rd _ _ => some rd
  | .findroot rd _ | .findgen rd _ _ | .twrd rd _ _ | .prd rd _ _ => some rd
  | .get _ | .setmod _ | .ctxinit _ _ => none
  | .pzero _ | .prand _ | .pwr _ _ _ | .pcopy _ _ | .padd _ _ _ | .psub _ _ _ | .pneg _ _ | .pmulpw _ _ _ => none
  | .ntt _ | .intt _ | .nttsh _ | .inttsh _ | .convnaive _ _ _ | .conv _ _ _ | .convsh _ _ _ => none

/-- The polynomial buffer a command writes. -/
def Instr.destBuf : Instr → Option Buf
  | .pzero pd | .prand pd | .pwr pd _ _ | .pcopy pd _ | .padd pd _ _ | .psub pd _ _ | .pneg pd _ | .pmulpw pd _ _ => some pd
  | .ntt pd | .intt pd | .nttsh pd | .inttsh pd | .convnaive pd _ _ | .conv pd _ _ | .convsh pd _ _ => some pd
  | .movz _ _ _ | .movk _ _ _ | .get _ | .csrr _ _ | .setmod _ | .modadd _ _ _ | .modsub _ _ _ | .modneg _ _ => none
  | .modmul _ _ _ | .modsqr _ _ | .modexp _ _ _ | .modinv _ _ | .shouppre _ _ | .modmulsh _ _ _ _ => none
  | .fprimeup _ _ _ | .fprimedn _ _ _ | .nprimeup _ _ _ | .nprimedn _ _ _ | .findroot _ _ | .findgen _ _ _ => none
  | .ctxinit _ _ | .twrd _ _ _ | .prd _ _ _ => none

/-- The polynomial buffers PolyCheck tests for a command, in operand order (43_polynomial_ring.md R221); `none` for a
command that has no PolyCheck. -/
def Instr.polySources : Instr → Option (List Buf)
  | .pwr pd _ _ | .ntt pd | .intt pd | .nttsh pd | .inttsh pd => some [pd]
  | .prd _ pa _ | .pneg _ pa => some [pa]
  | .padd _ pa pb | .psub _ pa pb | .pmulpw _ pa pb | .convnaive _ pa pb | .conv _ pa pb | .convsh _ pa pb => some [pa, pb]
  | .pzero _ | .prand _ => some []
  | .movz _ _ _ | .movk _ _ _ | .get _ | .csrr _ _ | .setmod _ | .modadd _ _ _ | .modsub _ _ _ | .modneg _ _ => none
  | .modmul _ _ _ | .modsqr _ _ | .modexp _ _ _ | .modinv _ _ | .shouppre _ _ | .modmulsh _ _ _ _ => none
  | .fprimeup _ _ _ | .fprimedn _ _ _ | .nprimeup _ _ _ | .nprimedn _ _ _ | .findroot _ _ | .findgen _ _ _ => none
  | .ctxinit _ _ | .twrd _ _ _ | .pcopy _ _ => none

/-- The residue operands of the nine scalar arithmetic commands, first source first (40_modular_arithmetic.md R124);
`none` for the other commands. -/
def Instr.residues : Instr → Option (List Reg)
  | .modadd _ a b | .modsub _ a b | .modmul _ a b | .modmulsh _ a b _ => some [a, b]
  | .modneg _ a | .modsqr _ a | .modinv _ a | .shouppre _ a | .modexp _ a _ => some [a]
  | .movz _ _ _ | .movk _ _ _ | .get _ | .csrr _ _ | .setmod _ => none
  | .fprimeup _ _ _ | .fprimedn _ _ _ | .nprimeup _ _ _ | .nprimedn _ _ _ | .findroot _ _ | .findgen _ _ _ => none
  | .ctxinit _ _ | .twrd _ _ _ => none
  | .pzero _ | .prand _ | .pwr _ _ _ | .prd _ _ _ | .pcopy _ _ | .padd _ _ _ | .psub _ _ _ | .pneg _ _ | .pmulpw _ _ _ => none
  | .ntt _ | .intt _ | .nttsh _ | .inttsh _ | .convnaive _ _ _ | .conv _ _ _ | .convsh _ _ _ => none

/-- The four scalar commands that use the Barrett shift (40_modular_arithmetic.md R123 (2)). -/
def Instr.usesBarrett : Instr → Bool
  | .modmul _ _ _ | .modsqr _ _ | .modexp _ _ _ | .modinv _ _ => true
  | .movz _ _ _ | .movk _ _ _ | .get _ | .csrr _ _ | .setmod _ | .modadd _ _ _ | .modsub _ _ _ | .modneg _ _ => false
  | .shouppre _ _ | .modmulsh _ _ _ _ => false
  | .fprimeup _ _ _ | .fprimedn _ _ _ | .nprimeup _ _ _ | .nprimedn _ _ _ | .findroot _ _ | .findgen _ _ _ => false
  | .ctxinit _ _ | .twrd _ _ _ => false
  | .pzero _ | .prand _ | .pwr _ _ _ | .prd _ _ _ | .pcopy _ _ | .padd _ _ _ | .psub _ _ _ | .pneg _ _ | .pmulpw _ _ _ => false
  | .ntt _ | .intt _ | .nttsh _ | .inttsh _ | .convnaive _ _ _ | .conv _ _ _ | .convsh _ _ _ => false

/-- The mask and match columns of the opcode map (30_encoding.md R95), row by row. -/
def opcodeMap : List (CmdWord × CmdWord) :=
  [(0x0000C0FF#32, 0x00000001#32), (0x0000C0FF#32, 0x00000002#32), (0xFFFF0FFF#32, 0x00000003#32),
   (0xFF00F0FF#32, 0x00000004#32), (0xFFFF0FFF#32, 0x00000010#32), (0xFFF000FF#32, 0x00000011#32),
   (0xFFF000FF#32, 0x00000012#32), (0xFFFF00FF#32, 0x00000013#32), (0xFFF000FF#32, 0x00000014#32),
   (0xFFFF00FF#32, 0x00000015#32), (0xFFF000FF#32, 0x00000016#32), (0xFFFF00FF#32, 0x00000017#32),
   (0xFFFF00FF#32, 0x00000018#32), (0xFF0000FF#32, 0x00000019#32)] ++
  [(0xFFF000FF#32, 0x00000020#32), (0xFFF000FF#32, 0x00000021#32), (0xFFF000FF#32, 0x00000022#32),
   (0xFFF000FF#32, 0x00000023#32), (0xFFFF00FF#32, 0x00000024#32), (0xFFF000FF#32, 0x00000025#32),
   (0xFFF00FFF#32, 0x00000030#32), (0xFFF000FF#32, 0x00000031#32)] ++
  [(0xFFFFF0FF#32, 0x00000040#32), (0xFFFFF0FF#32, 0x00000041#32), (0xFFF000FF#32, 0x00000042#32),
   (0xFFF000FF#32, 0x00000043#32), (0xFFFF00FF#32, 0x00000044#32), (0xFFF000FF#32, 0x00000045#32),
   (0xFFF000FF#32, 0x00000046#32), (0xFFFF00FF#32, 0x00000047#32), (0xFFF000FF#32, 0x00000048#32)] ++
  [(0xFFFFF0FF#32, 0x00000050#32), (0xFFFFF0FF#32, 0x00000051#32), (0xFFFFF0FF#32, 0x00000052#32),
   (0xFFFFF0FF#32, 0x00000053#32), (0xFFF000FF#32, 0x00000058#32), (0xFFF000FF#32, 0x00000059#32),
   (0xFFF000FF#32, 0x0000005A#32)]

end Sys2Proof
end

