-- ==== Sys2Proof/Certificates/Slice0/Obligations.lean ====
section
/-! DEFINITION. The statements for the provers, family by family. Each docstring names the rule of spec/ it states or
rests on; every hypothesis is met by a witness of Tests/Slice0.lean. -/

open Sys2Proof Sys2Proof.Machine

/-! ## Encoding (spec/30_encoding.md) -/

/-- Decoding the word of a command gives the command back, every operand at every value (R90 to R95). -/
def Obligations.DecodeOfEncodeIsTheCommand : Prop := ∀ i : Instr, decode (encode i) = some i

/-- A word that decodes is the word of the command it decodes to: no bit is ignored (R96, R97). -/
def Obligations.DecodedWordIsItsEncoding : Prop := ∀ (w : CmdWord) (i : Instr), decode w = some i → encode i = w

/-- The words that decode are those of the mask and match columns of R95, less CSR numbers above 9 and selectors above
3; and they are legal when every polynomial slot is below NPOLY (R96). -/
def Obligations.DecodableWordsAreTheOpcodeMap : Prop :=
  ∀ w : CmdWord,
    ((decode w).isSome = true ↔
      (∃ r ∈ opcodeMap, w &&& r.1 = r.2) ∧
      (bits w.toNat 7 0 = 0x04 → bits w.toNat 23 16 ≤ 9) ∧ (bits w.toNat 7 0 = 0x31 → bits w.toNat 19 16 ≤ 3)) ∧
    ∀ (npoly : Nat) (i : Instr),
      decodeLegal npoly w = some i ↔ decode w = some i ∧ ∀ p ∈ i.bufs, p.val < npoly

/-- Words written out from R91 to R95 decode to the commands they stand for, and words R96 calls illegal to none
(95_test_vectors.md V1 to V14). -/
def Obligations.WrittenOutWordsDecode : Prop :=
  decode 0x00110101#32 = some (.movz 1 17 0) ∧ decode 0x0A4A3102#32 = some (.movk 1 0x0A4A 3) ∧
  decode 0x00532619#32 = some (.modmulsh 6 2 3 5) ∧ decode 0x00060704#32 = some (.csrr 7 .invN) ∧
  decode 0x00025631#32 = some (.twrd 6 .itf 5) ∧ decode 0x00021343#32 = some (.prd 3 1 2) ∧
  decode 0x00021030#32 = some (.ctxinit 1 2) ∧ decode 0x00023425#32 = some (.findgen 4 3 2) ∧
  decode 0x0001035A#32 = some (.convsh 3 0 1) ∧
  decode 0x00000000#32 = none ∧ decode 0xFFFFFFFF#32 = none ∧ decode 0x00010113#32 = none ∧
  decode 0x01000040#32 = none ∧ decode 0x000A0104#32 = none ∧ decode 0x00041231#32 = none ∧
  decode 0x00014101#32 = none ∧ decodeLegal 4 0x00000440#32 = none ∧ decodeLegal 5 0x00000440#32 = some (.pzero 4)

/-! ## The sequencer (spec/60_exceptions.md, spec/70_reset_and_hazards.md) -/

/-- A step at a legal word runs the command the word decodes to (R326). That the word is taken from a list and latched is
the model's (assumption log 4, 7). -/
def Obligations.StepRunsTheDecodedCommand : Prop :=
  ∀ (s : State) (w : CmdWord) (rest : List HostInput) (i : Instr),
    s.fault = false → s.inbox = .cmd w :: rest → decodeLegal s.cfg.npoly w = some i →
    step s = exec i { s with inbox := rest, cmd := w }

/-- An illegal word raises IllegalCommand whatever the state of the flags and operands (R325, R330). The inbox and the
latched word are the model's (assumption log 4, 7). -/
def Obligations.IllegalWordRaisesIllegalCommand : Prop :=
  ∀ (s : State) (w : CmdWord) (rest : List HostInput),
    s.fault = false → s.inbox = .cmd w :: rest → decodeLegal s.cfg.npoly w = none →
    step s = .next (faulted { s with inbox := rest, cmd := w } .illegalCommand)

/-- While FAULT = 1 a command word, legal or not, changes no state of the block and is answered with the recorded cause
(R331). The inbox and the outbox are the model's view of the host (assumption log 4, 6). -/
def Obligations.FaultedBlockRefusesEveryWord : Prop :=
  ∀ (s : State) (w : CmdWord) (rest : List HostInput),
    s.fault = true → s.inbox = .cmd w :: rest →
    step s = .next { s with inbox := rest, outbox := { fault := true, cause := s.cause, data := 0 } :: s.outbox }

/-- Only RESET leaves the faulted state: over any run without one, all the block's state stays and every answer carries
the first cause (R45, R331, R332). The lists of inputs and answers are the model's (assumption log 4, 6). -/
def Obligations.OnlyResetLeavesTheFaultedState : Prop :=
  ∀ (k : Nat) (s t : State), s.fault = true → (∀ x ∈ s.inbox, x ≠ HostInput.reset) → Sys2Proof.core.run k s = .next t →
    t = { s with inbox := s.inbox.drop k, outbox := t.outbox } ∧
    t.outbox = List.replicate (min k s.inbox.length) { fault := true, cause := s.cause, data := 0 } ++ s.outbox

/-- A fault is precise: a command that faults changes FAULT, CAUSE, FAULTCMD and the response, nothing else (R330). -/
def Obligations.FaultingCommandChangesNothingElse : Prop :=
  ∀ (i : Instr) (s t : State), s.fault = false → exec i s = .next t → t.fault = true → ∃ c : Cause, t = faulted s c

/-- A command that completes adds 1 to pc, leaves the fault registers as they are and answers (0, 0, DATA), DATA the
register for GET and 0 for every other command (10_state.md R24, R25; R326 step 7). -/
def Obligations.CompletingCommandAdvancesAndAnswers : Prop :=
  ∀ (i : Instr) (s t : State), s.fault = false → exec i s = .next t → t.fault = false →
    t.pc = s.pc + 1 ∧ t.cause = s.cause ∧ t.faultcmd = s.faultcmd ∧
    ∃ d : Word, t.outbox = { fault := false, cause := 0, data := d } :: s.outbox ∧
      ((∃ r, i = .get r ∧ d = s.sreg[r]) ∨ ((∀ r, i ≠ .get r) ∧ d = 0))

/-- Every command and every step answers a next state: nothing stops a block that meets the invariant (00_scope.md R16;
70_reset_and_hazards.md R367). The model's own fault is thus unreachable there (assumption log 15). -/
def Obligations.EveryStepAnswersANextState : Prop :=
  ∀ s : State, Inv s → (∀ i : Instr, ∃ t, exec i s = .next t) ∧ ∃ t, step s = .next t

/-- After power-on pc, the fault registers and every valid flag are 0 (10_state.md R49); a RESET request leads there from
any state, also a faulted one (70_reset_and_hazards.md R360). That it gives no response and leaves the parameters and the
rest of the inbox is the model's choice (assumption log 5). -/
def Obligations.ResetClearsTheFlags : Prop :=
  let cleared := fun t : State =>
    t.pc = 0 ∧ t.fault = false ∧ t.cause = 0 ∧ t.faultcmd = 0 ∧ t.modvalid = false ∧ t.ctxvalid = false ∧
      ∀ p : Buf, t.poly[p].valid = false
  cleared State.reset ∧
  ∀ (s : State) (rest : List HostInput), s.inbox = .reset :: rest →
    ∃ t, step s = .next t ∧ cleared t ∧ t.inbox = rest ∧ t.cfg = s.cfg ∧ t.outbox = s.outbox

/-! ## Invariants (spec/10_state.md) -/

/-- The invariants hold after reset (10_state.md R49), with the parameters the model chose for it (assumption log 3). -/
def Obligations.InvariantsHoldAtReset : Prop := Inv State.reset ∧ Canonical State.reset

/-- Every step keeps the invariant: memories canonical and inside NMAX, the descriptor recomputed from q (R29), the
context valid for its (q, N) with TF[0] = ITF[0] = 1 (R37), buffers existing and written (R40 to R42), the fault
registers in agreement (R45). -/
def Obligations.StepKeepsTheInvariant : Prop := ∀ s t : State, Inv s → step s = .next t → Inv t

/-- Every step keeps every coefficient of a buffer whose modulus is BarrettSafe a canonical residue (R44), and the tables
of such a context canonical powers of a 2N-th root (R37). -/
def Obligations.StepKeepsCoefficientsCanonical : Prop :=
  ∀ s t : State, Inv s → Canonical s → step s = .next t → Canonical t

/-- The context exposes no mutation: only CTXINIT writes a table word or a context scalar, and only SETMOD and CTXINIT a
field or flag of the descriptor (20_memory.md R67; R26, R30). -/
def Obligations.OnlyCtxinitWritesTheContext : Prop :=
  ∀ (i : Instr) (s t : State), exec i s = .next t → (∀ a b, i ≠ .ctxinit a b) →
    (t.tf = s.tf ∧ t.tfShoup = s.tfShoup ∧ t.itf = s.itf ∧ t.itfShoup = s.itfShoup ∧ t.n = s.n ∧ t.logn = s.logn ∧
      t.invN = s.invN ∧ t.invNShoup = s.invNShoup) ∧
    ((∀ a, i ≠ .setmod a) →
      t.q = s.q ∧ t.logq = s.logq ∧ t.mu = s.mu ∧ t.modvalid = s.modvalid ∧ t.ctxvalid = s.ctxvalid)

/-- The frame of all 38 commands: no scalar register but the destination, no buffer but the destination, not the
parameters, not what the host presents, and no draw but PRAND's (20_memory.md R60, R75; R46). -/
def Obligations.CommandChangesOnlyItsDestination : Prop :=
  ∀ (i : Instr) (s t : State), exec i s = .next t →
    (∀ r, i.destReg ≠ some r → t.sreg[r] = s.sreg[r]) ∧ (∀ p, i.destBuf ≠ some p → t.poly[p] = s.poly[p]) ∧
    t.cfg = s.cfg ∧ t.inbox = s.inbox ∧ t.cmd = s.cmd ∧ ((∀ p, i ≠ .prand p) → t.oracle = s.oracle)

/-- No command clears MODVALID or a buffer's VALID, and only SETMOD clears CTXVALID (R29, R37, R41). -/
def Obligations.OnlySetmodClearsAValidFlag : Prop :=
  ∀ (i : Instr) (s t : State), exec i s = .next t →
    (s.modvalid = true → t.modvalid = true) ∧ (∀ p : Buf, s.poly[p].valid = true → t.poly[p].valid = true) ∧
    (s.ctxvalid = true → t.ctxvalid = true ∨ ∃ r, i = .setmod r)

/-! ## Moves and status (spec/45_move_and_status.md) -/

/-- MOVZ and MOVK write IMM16 to quarter HW; of the other 48 bits MOVZ makes zeros and MOVK keeps them, whatever the state
(R300, R301). -/
def Obligations.MovzAndMovkWriteOneQuarter : Prop :=
  ∀ (rd : Reg) (imm : BitVec 16) (hw : Fin 4) (s : State),
    let quarter := fun (v : Word) (other : Nat → Bool) => ∀ j < 64,
      v.getLsbD j = if 16 * hw.val ≤ j ∧ j < 16 * hw.val + 16 then imm.getLsbD (j - 16 * hw.val) else other j
    (∃ v : Word, exec (.movz rd imm hw) s = .next (wroteReg s rd v) ∧ quarter v fun _ => false) ∧
    ∃ v : Word, exec (.movk rd imm hw) s = .next (wroteReg s rd v) ∧ quarter v s.sreg[rd].getLsbD

/-- GET answers the register and changes nothing but pc (R302). -/
def Obligations.GetAnswersTheRegister : Prop :=
  ∀ (rs1 : Reg) (s : State), exec (.get rs1) s = .next (completed s s.sreg[rs1])

/-- CSRR reads STATUS, NMAX and NPOLY at any time, registers 1 to 3 when MODVALID = 1 and 4 to 7 when CTXVALID = 1, and
raises NotInitialised otherwise (R303; 10_state.md R38). -/
def Obligations.CsrrReadsTheControlRegister : Prop :=
  ∀ (rd : Reg) (s : State),
    (∃ v, exec (.csrr rd .status) s = .next (wroteReg s rd v) ∧
      v.toNat = (if s.modvalid then 1 else 0) + (if s.ctxvalid then 2 else 0)) ∧
    exec (.csrr rd .nmax) s = .next (wroteReg s rd (BitVec.ofNat 64 s.cfg.nmax)) ∧
    exec (.csrr rd .npoly) s = .next (wroteReg s rd (BitVec.ofNat 64 s.cfg.npoly)) ∧
    (s.modvalid = true →
      exec (.csrr rd .q) s = .next (wroteReg s rd s.q) ∧
      exec (.csrr rd .logq) s = .next (wroteReg s rd (BitVec.ofNat 64 s.logq.toNat)) ∧
      exec (.csrr rd .mu) s = .next (wroteReg s rd s.mu)) ∧
    (s.ctxvalid = true →
      exec (.csrr rd .n) s = .next (wroteReg s rd s.n) ∧
      exec (.csrr rd .logn) s = .next (wroteReg s rd (BitVec.ofNat 64 s.logn.toNat)) ∧
      exec (.csrr rd .invN) s = .next (wroteReg s rd s.invN) ∧
      exec (.csrr rd .invNShoup) s = .next (wroteReg s rd s.invNShoup)) ∧
    (s.modvalid = false → ∀ c ∈ [Csr.q, .logq, .mu], exec (.csrr rd c) s = .next (faulted s .notInitialised)) ∧
    (s.ctxvalid = false →
      ∀ c ∈ [Csr.n, .logn, .invN, .invNShoup], exec (.csrr rd c) s = .next (faulted s .notInitialised))

/-! ## Modular arithmetic (spec/40_modular_arithmetic.md) -/

/-- SETMOD installs (q, ⌈log2 q⌉, ⌊2^(2k)/q⌋), sets MODVALID, clears CTXVALID and changes nothing else, for every q from
2 below 2^63; it refuses every other modulus (R121, R122; 10_state.md R27, R28). -/
def Obligations.SetmodInstallsTheDescriptor : Prop :=
  ∀ (rs1 : Reg) (s : State),
    let q := s.sreg[rs1].toNat
    (2 ≤ q → q < 2 ^ 63 →
      ∃ t, exec (.setmod rs1) s = .next t ∧
        t = { s with q := s.sreg[rs1], logq := t.logq, mu := t.mu, modvalid := true, ctxvalid := false, pc := s.pc + 1,
                     outbox := { fault := false, cause := 0, data := 0 } :: s.outbox } ∧
        t.logq.toNat = Nat.clog 2 q ∧ t.mu.toNat = 2 ^ (2 * Nat.clog 2 q) / q) ∧
    (q < 2 ∨ 2 ^ 63 ≤ q → exec (.setmod rs1) s = .next (faulted s .invalidModulus))

/-- The checks of the nine scalar arithmetic commands, in their order (R123, R124). -/
def Obligations.ScalarChecksComeInOrder : Prop :=
  ∀ (i : Instr) (s : State) (rs : List Reg), i.residues = some rs →
    (s.modvalid = false → exec i s = .next (faulted s .notInitialised)) ∧
    (s.modvalid = true → i.usesBarrett = true → s.logq.toNat < 2 → exec i s = .next (faulted s .shiftUnderflow)) ∧
    (s.modvalid = true → (i.usesBarrett = true → 2 ≤ s.logq.toNat) → (∃ r ∈ rs, s.q.toNat ≤ s.sreg[r].toNat) →
      exec i s = .next (faulted s .preconditionViolation)) ∧
    (∀ rd r, i = .modinv rd r → s.modvalid = true → 2 ≤ s.logq.toNat → 0 < s.q.toNat → s.sreg[r] = 0 →
      exec i s = .next (faulted s .zeroNotInvertible))

/-- MODADD, MODSUB and MODNEG give the canonical residues of a + b, a − b and −a for every descriptor and all residues
(R125 to R127, R136 to R138, R150 (a)). -/
def Obligations.AddSubNegAreExact : Prop :=
  ∀ (rd rs1 rs2 : Reg) (s : State), s.modvalid = true →
    s.sreg[rs1].toNat < s.q.toNat → s.sreg[rs2].toNat < s.q.toNat →
    exec (.modadd rd rs1 rs2) s =
      .next (wroteReg s rd (BitVec.ofNat 64 ((s.sreg[rs1].toNat + s.sreg[rs2].toNat) % s.q.toNat))) ∧
    exec (.modsub rd rs1 rs2) s =
      .next (wroteReg s rd (BitVec.ofNat 64 ((s.sreg[rs1].toNat + (s.q.toNat - s.sreg[rs2].toNat)) % s.q.toNat))) ∧
    exec (.modneg rd rs1) s = .next (wroteReg s rd (BitVec.ofNat 64 ((s.q.toNat - s.sreg[rs1].toNat) % s.q.toNat)))

/-- MODMUL and MODSQR give the value of the Barrett formula in every case, inside BarrettSafe or not (R130, R135, R139,
R140). -/
def Obligations.ModmulIsTheBarrettFormula : Prop :=
  ∀ (rd rs1 rs2 : Reg) (s : State), s.modvalid = true → 2 ≤ s.logq.toNat →
    s.sreg[rs1].toNat < s.q.toNat → s.sreg[rs2].toNat < s.q.toNat →
    let formula := fun a b : Nat =>
      let x := a * b
      let qe := x / 2 ^ (s.logq.toNat - 2) * s.mu.toNat / 2 ^ (s.logq.toNat + 2)
      let r := (((x : Int) - qe * s.q.toNat) % 2 ^ 64).toNat
      if s.q.toNat ≤ r then r - s.q.toNat else r
    exec (.modmul rd rs1 rs2) s =
      .next (wroteReg s rd (BitVec.ofNat 64 (formula s.sreg[rs1].toNat s.sreg[rs2].toNat))) ∧
    exec (.modsqr rd rs1) s =
      .next (wroteReg s rd (BitVec.ofNat 64 (formula s.sreg[rs1].toNat s.sreg[rs1].toNat)))

/-- The audit of the Barrett formula: the product A·mu fits 128 bits, the estimate never overshoots and is at most 2
below the quotient (R131 (a) to (c)). -/
def Obligations.BarrettEstimateIsAtMostTwoLow : Prop :=
  ∀ q a b : Nat, 3 ≤ q → q < 2 ^ 63 → a < q → b < q →
    a * b / 2 ^ ((makeDescriptor q).k - 2) * (makeDescriptor q).mu < 2 ^ 128 ∧
    barrettQuot (makeDescriptor q) a b ≤ a * b / q ∧ a * b / q ≤ barrettQuot (makeDescriptor q) a b + 2

/-- The theorem of BarrettSafe: the result is exact and the intermediate below 2q (R133). -/
def Obligations.BarrettIsExactWhenSafe : Prop :=
  ∀ q a b : Nat, 3 ≤ q → q < 2 ^ 63 → barrettSafe q = true → a < q → b < q →
    barrettMul (makeDescriptor q) a b = a * b % q ∧
    (a * b : Int) - barrettQuot (makeDescriptor q) a b * q < 2 * q ∧ barrettMul (makeDescriptor q) a b < q

/-- MODMUL and MODSQR give (a·b) mod q and a² mod q for every BarrettSafe modulus installed (R134, R139, R140, R150 (b)). -/
def Obligations.ModmulIsExactWhenSafe : Prop :=
  ∀ (rd rs1 rs2 : Reg) (s : State), s.modvalid = true → DescriptorOk s → 3 ≤ s.q.toNat →
    barrettSafe s.q.toNat = true → s.sreg[rs1].toNat < s.q.toNat → s.sreg[rs2].toNat < s.q.toNat →
    exec (.modmul rd rs1 rs2) s =
      .next (wroteReg s rd (BitVec.ofNat 64 (s.sreg[rs1].toNat * s.sreg[rs2].toNat % s.q.toNat))) ∧
    exec (.modsqr rd rs1) s =
      .next (wroteReg s rd (BitVec.ofNat 64 (s.sreg[rs1].toNat * s.sreg[rs1].toNat % s.q.toNat)))

/-- MODEXP gives a^e mod q for every BarrettSafe modulus, every residue a and every `u64` e (R141, R142). -/
def Obligations.ModexpIsThePowerWhenSafe : Prop :=
  ∀ (rd rs1 rs2 : Reg) (s : State), s.modvalid = true → DescriptorOk s → 3 ≤ s.q.toNat →
    barrettSafe s.q.toNat = true → s.sreg[rs1].toNat < s.q.toNat →
    exec (.modexp rd rs1 rs2) s =
      .next (wroteReg s rd (BitVec.ofNat 64 (s.sreg[rs1].toNat ^ s.sreg[rs2].toNat % s.q.toNat)))

/-- MODINV gives the inverse for every BarrettSafe prime modulus and every nonzero residue (R143, R144). -/
def Obligations.ModinvIsTheInverseWhenSafe : Prop :=
  ∀ (rd rs1 : Reg) (s : State), s.modvalid = true → DescriptorOk s → 3 ≤ s.q.toNat → s.q.toNat.Prime →
    barrettSafe s.q.toNat = true → s.sreg[rs1].toNat < s.q.toNat → s.sreg[rs1].toNat ≠ 0 →
    ∃ v : Word, exec (.modinv rd rs1) s = .next (wroteReg s rd v) ∧ v.toNat < s.q.toNat ∧
      s.sreg[rs1].toNat * v.toNat % s.q.toNat = 1

/-- Outside BarrettSafe MODEXP and MODINV complete all the same and write only their destination (R135;
93_implementation_defined.md U1). Which words are defined there, and which are free values, is the model's reading of
R135 and C2 (assumption log 10, 11). -/
def Obligations.ModexpAndModinvAlwaysComplete : Prop :=
  ∀ (rd rs1 rs2 : Reg) (s : State), s.modvalid = true → 2 ≤ s.logq.toNat → s.sreg[rs1].toNat < s.q.toNat →
    (∃ v k, exec (.modexp rd rs1 rs2) s = .next { wroteReg s rd v with free := k } ∧
      Agrees (modExp s.desc (some s.sreg[rs1].toNat) s.sreg[rs2].toNat) v) ∧
    (s.sreg[rs1].toNat ≠ 0 →
      ∃ v k, exec (.modinv rd rs1) s = .next { wroteReg s rd v with free := k } ∧
        Agrees (modExp s.desc (some s.sreg[rs1].toNat) (s.q.toNat - 2)) v)

/-- SHOUPPRE gives ⌊b·2^64 / q⌋, which fits 64 bits, for every residue (R145, R147). -/
def Obligations.ShouppreIsTheScaledQuotient : Prop :=
  ∀ (rd rs1 : Reg) (s : State), s.modvalid = true → s.sreg[rs1].toNat < s.q.toNat →
    ∃ v : Word, exec (.shouppre rd rs1) s = .next (wroteReg s rd v) ∧
      v.toNat = s.sreg[rs1].toNat * 2 ^ 64 / s.q.toNat

/-- MODMULSH gives (a·b) mod q for every modulus below 2^63 when the third operand is ShoupPre(b), without any BarrettSafe
condition, and completes with an arbitrary word otherwise (R146, R148; U2; the free value is the model's form of it,
assumption log 12). -/
def Obligations.ModmulshIsExactForEveryModulus : Prop :=
  ∀ (rd rs1 rs2 rs3 : Reg) (s : State), s.modvalid = true → s.q.toNat < 2 ^ 63 →
    s.sreg[rs1].toNat < s.q.toNat → s.sreg[rs2].toNat < s.q.toNat →
    (s.sreg[rs3].toNat = s.sreg[rs2].toNat * 2 ^ 64 / s.q.toNat →
      exec (.modmulsh rd rs1 rs2 rs3) s =
        .next (wroteReg s rd (BitVec.ofNat 64 (s.sreg[rs1].toNat * s.sreg[rs2].toNat % s.q.toNat)))) ∧
    (s.sreg[rs3].toNat ≠ s.sreg[rs2].toNat * 2 ^ 64 / s.q.toNat →
      ∃ v : Word, exec (.modmulsh rd rs1 rs2 rs3) s = .next { wroteReg s rd v with free := s.free + 1 })

/-! ## Number theory (spec/41_number_theory.md) -/

/-- `IsPrime` is the exact predicate (R160). -/
def Obligations.IsPrimeIsExact : Prop := ∀ n : Nat, isPrime n = true ↔ n.Prime

/-- `PrimeFactors` is the strictly increasing list of the primes that divide n (R161). -/
def Obligations.PrimeFactorsAreExact : Prop :=
  ∀ n : Nat, 1 ≤ n → (primeFactors n).Pairwise (· < ·) ∧ ∀ p, p ∈ primeFactors n ↔ p.Prime ∧ p ∣ n

/-- FPRIMEUP and NPRIMEUP answer the first prime among start, start + 2N, … below 2^63, with start = 2^bits + 1 and
prev_q + 2N (R162, R164, R166). -/
def Obligations.UpwardSearchFindsTheFirstPrime : Prop :=
  ∀ (rd rs1 rs2 : Reg) (s : State) (j : Nat),
    let a := s.sreg[rs1].toNat
    let n := s.sreg[rs2].toNat
    Degree n →
    (let start := 2 ^ a + 1
     a < 63 → (start + j * (2 * n)).Prime → start + j * (2 * n) < 2 ^ 63 →
      (∀ i < j, ¬ (start + i * (2 * n)).Prime) →
      exec (.fprimeup rd rs1 rs2) s = .next (wroteReg s rd (BitVec.ofNat 64 (start + j * (2 * n))))) ∧
    (let start := a + 2 * n
     (start + j * (2 * n)).Prime → start + j * (2 * n) < 2 ^ 63 → (∀ i < j, ¬ (start + i * (2 * n)).Prime) →
      exec (.nprimeup rd rs1 rs2) s = .next (wroteReg s rd (BitVec.ofNat 64 (start + j * (2 * n)))))

/-- FPRIMEDN and NPRIMEDN answer the first prime among the candidates p + 2Nj, …, p + 2N, p that go down from
2^bits + 1 − 2N and from prev_q − 2N, the first of them below 2^63 (R162, R165, R167). -/
def Obligations.DownwardSearchFindsTheFirstPrime : Prop :=
  ∀ (rd rs1 rs2 : Reg) (s : State) (p j : Nat),
    let a := s.sreg[rs1].toNat
    let n := s.sreg[rs2].toNat
    Degree n → p.Prime → p + j * (2 * n) < 2 ^ 63 → (∀ i, 1 ≤ i → i ≤ j → ¬ (p + i * (2 * n)).Prime) →
    (a < 64 → p + (j + 1) * (2 * n) = 2 ^ a + 1 →
      exec (.fprimedn rd rs1 rs2) s = .next (wroteReg s rd (BitVec.ofNat 64 p))) ∧
    (p + (j + 1) * (2 * n) = a → exec (.nprimedn rd rs1 rs2) s = .next (wroteReg s rd (BitVec.ofNat 64 p)))

/-- The faults of the prime searches: InvalidDegree before all else, SearchExhausted for a bit length too large, for a
search that meets no prime in [2, 2^63) and for a first candidate at or above 2^63 (R162 to R167, R169). -/
def Obligations.PrimeSearchesFaultInOrder : Prop :=
  ∀ (rd rs1 rs2 : Reg) (s : State),
    let a := s.sreg[rs1].toNat
    let n := s.sreg[rs2].toNat
    (¬ Degree n →
      ∀ i ∈ [Instr.fprimeup rd rs1 rs2, .fprimedn rd rs1 rs2, .nprimeup rd rs1 rs2, .nprimedn rd rs1 rs2,
        .findgen rd rs1 rs2], exec i s = .next (faulted s .invalidDegree)) ∧
    (Degree n → 63 ≤ a → exec (.fprimeup rd rs1 rs2) s = .next (faulted s .searchExhausted)) ∧
    (Degree n → 64 ≤ a → exec (.fprimedn rd rs1 rs2) s = .next (faulted s .searchExhausted)) ∧
    (Degree n → a < 63 → (∀ j, 2 ^ a + 1 + j * (2 * n) < 2 ^ 63 → ¬ (2 ^ a + 1 + j * (2 * n)).Prime) →
      exec (.fprimeup rd rs1 rs2) s = .next (faulted s .searchExhausted)) ∧
    (Degree n → (∀ j, a + 2 * n + j * (2 * n) < 2 ^ 63 → ¬ (a + 2 * n + j * (2 * n)).Prime) →
      exec (.nprimeup rd rs1 rs2) s = .next (faulted s .searchExhausted)) ∧
    (Degree n → a < 64 → (∀ p j, p + (j + 1) * (2 * n) = 2 ^ a + 1 → ¬ p.Prime) →
      exec (.fprimedn rd rs1 rs2) s = .next (faulted s .searchExhausted)) ∧
    (Degree n → (∀ p j, p + (j + 1) * (2 * n) = a → ¬ p.Prime) →
      exec (.nprimedn rd rs1 rs2) s = .next (faulted s .searchExhausted)) ∧
    (Degree n → 2 ^ 63 + 2 * n ≤ a → exec (.nprimedn rd rs1 rs2) s = .next (faulted s .searchExhausted))

/-- FINDROOT answers the first candidate from 2 that passes the certification test, for every BarrettSafe modulus from 3
up, prime or composite; for a prime it is the smallest primitive root (R170, R171; U5). -/
def Obligations.FindrootAnswersTheSmallestRoot : Prop :=
  ∀ (rd rs1 : Reg) (s : State),
    let q := s.sreg[rs1].toNat
    3 ≤ q → q < 2 ^ 63 → barrettSafe q = true →
    ∃ r : Nat, exec (.findroot rd rs1) s = .next (wroteReg s rd (BitVec.ofNat 64 r)) ∧ SmallestRoot q r ∧
      (q.Prime → orderOf (r : ZMod q) = q - 1 ∧ ∀ c, 2 ≤ c → c < r → orderOf (c : ZMod q) ≠ q - 1)

/-- FINDGEN answers g0^((q−1)/2N) mod q for the first candidate g0 from 2 that passes the certification test, for every
BarrettSafe q ≡ 1 (mod 2N), prime or composite; for a prime, g0 is the smallest primitive root and the answer a
primitive 2N-th root of unity (R172 to R174; U5). -/
def Obligations.FindgenAnswersARootOfOrderTwoN : Prop :=
  ∀ (rd rs1 rs2 : Reg) (s : State),
    let q := s.sreg[rs1].toNat
    let n := s.sreg[rs2].toNat
    2 ≤ q → q < 2 ^ 63 → Degree n → q % (2 * n) = 1 → barrettSafe q = true →
    ∃ r : Nat, SmallestRoot q r ∧
      exec (.findgen rd rs1 rs2) s = .next (wroteReg s rd (BitVec.ofNat 64 (generatorFrom q n r))) ∧
      (q.Prime → orderOf (r : ZMod q) = q - 1 ∧ (∀ c, 2 ≤ c → c < r → orderOf (c : ZMod q) ≠ q - 1) ∧
        generatorFrom q n r ^ n % q = q - 1 ∧ generatorFrom q n r ^ (2 * n) % q = 1)

/-- The faults of FINDROOT and FINDGEN: the modulus range, then for FINDGEN the congruence; q = 2 exhausts the scan (R170,
R171, R173). For every other modulus they complete having written only their destination. For a composite modulus outside
BarrettSafe, where a power of the scan may be inexact, that they complete is the model's reading of R135 and U1 (assumption
log 13), and no rule says it outright: R171 allows "a value or SearchExhausted" and R173 a SearchExhausted for a composite.
The counter of free values, which may move, is the model's own (log 10). -/
def Obligations.RootSearchesFaultInOrder : Prop :=
  ∀ (rd rs1 rs2 : Reg) (s : State),
    let q := s.sreg[rs1].toNat
    let n := s.sreg[rs2].toNat
    (q < 2 ∨ 2 ^ 63 ≤ q → exec (.findroot rd rs1) s = .next (faulted s .invalidModulus)) ∧
    (q = 2 → exec (.findroot rd rs1) s = .next (faulted s .searchExhausted)) ∧
    (Degree n → (q < 2 ∨ 2 ^ 63 ≤ q ∨ q % (2 * n) ≠ 1) →
      exec (.findgen rd rs1 rs2) s = .next (faulted s .invalidModulus)) ∧
    (3 ≤ q → q < 2 ^ 63 → CompletesIn s rd (exec (.findroot rd rs1) s)) ∧
    (Degree n → 2 ≤ q → q < 2 ^ 63 → q % (2 * n) = 1 → CompletesIn s rd (exec (.findgen rd rs1 rs2) s))

/-! ## The context (spec/42_transform_context.md) -/

/-- `BitRev` sends bit b to bit w − 1 − b, stays below 2^w and is an involution (R194). -/
def Obligations.BitReversalIsAnInvolution : Prop :=
  ∀ w i : Nat, i < 2 ^ w →
    bitRev i w < 2 ^ w ∧ bitRev (bitRev i w) w = i ∧ ∀ b < w, (bitRev i w).testBit (w - 1 - b) = i.testBit b

/-- CTXINIT on a prime q ≡ 1 (mod 2N). With BarrettSafe it completes: it installs the descriptor, the degree and the
flags, fills the tables with the bit-reversed powers of FINDGEN's g and their Shoup words, and changes no scalar
register, no buffer and no table word from N up (R192, R196, R197). Without BarrettSafe it ends in SearchExhausted or
completes with the same frame, the descriptor, the degree and the constant word 0 of each table (R135, R192, R196, R200);
the other words and which of the two ends it is are the model's free values (assumption log 10, 11, 13). -/
def Obligations.CtxinitBuildsTheContext : Prop :=
  ∀ (rs1 rs2 : Reg) (s : State),
    let q := s.sreg[rs1].toNat
    let n := s.sreg[rs2].toNat
    let built := fun t : State =>
      t = { s with q := s.sreg[rs1], logq := t.logq, mu := t.mu, modvalid := true, n := s.sreg[rs2], logn := t.logn,
                   invN := t.invN, invNShoup := t.invNShoup, ctxvalid := true, tf := t.tf, tfShoup := t.tfShoup,
                   itf := t.itf, itfShoup := t.itfShoup, pc := s.pc + 1, free := t.free,
                   outbox := { fault := false, cause := 0, data := 0 } :: s.outbox } ∧
      DescriptorOk t ∧ t.logn.toNat = Nat.log 2 n ∧ ∀ m i, n ≤ i → t.memRead m i = s.memRead m i
    q.Prime → q < 2 ^ 63 → Degree n → n ≤ s.cfg.nmax → q % (2 * n) = 1 →
    (barrettSafe q = true →
      ∃ t r, exec (.ctxinit rs1 rs2) s = .next t ∧ built t ∧ t.free = s.free ∧ TablesCanonical t ∧ SmallestRoot q r ∧
        TablesArePowers t (generatorFrom q n r)) ∧
    ∃ t, exec (.ctxinit rs1 rs2) s = .next t ∧
      (t = faulted s .searchExhausted ∨
        built t ∧ t.memRead .tf 0 = 1 ∧ t.memRead .itf 0 = 1 ∧
          (t.memRead .tfShoup 0).toNat = 2 ^ 64 / q ∧ (t.memRead .itfShoup 0).toNat = 2 ^ 64 / q)

/-- The checks of CTXINIT in their order: degree, range, congruence, primality (R192). -/
def Obligations.CtxinitChecksComeInOrder : Prop :=
  ∀ (rs1 rs2 : Reg) (s : State), s.cfg.nmax ≤ 2 ^ 61 →
    let q := s.sreg[rs1].toNat
    let n := s.sreg[rs2].toNat
    (¬ (Degree n ∧ n ≤ s.cfg.nmax) → exec (.ctxinit rs1 rs2) s = .next (faulted s .invalidDegree)) ∧
    (Degree n → n ≤ s.cfg.nmax → (q < 2 ∨ 2 ^ 63 ≤ q ∨ q % (2 * n) ≠ 1 ∨ ¬ q.Prime) →
      exec (.ctxinit rs1 rs2) s = .next (faulted s .invalidModulus))

/-- The context is a function of (q, N) alone under BarrettSafe: two CTXINIT with equal operands build equal contexts from
any two states (R198). -/
def Obligations.ContextDependsOnlyOnItsOperands : Prop :=
  ∀ (a b a' b' : Reg) (s s' t t' : State), exec (.ctxinit a b) s = .next t → exec (.ctxinit a' b') s' = .next t' →
    t.fault = false → t'.fault = false → s.sreg[a] = s'.sreg[a'] → s.sreg[b] = s'.sreg[b'] →
    barrettSafe s.sreg[a].toNat = true →
    t.q = t'.q ∧ t.logq = t'.logq ∧ t.mu = t'.mu ∧ t.n = t'.n ∧ t.logn = t'.logn ∧ t.invN = t'.invN ∧
    t.invNShoup = t'.invNShoup ∧
    ∀ m ∈ [Space.tf, .tfShoup, .itf, .itfShoup], ∀ i < t.n.toNat, t.memRead m i = t'.memRead m i

/-- TWRD reads word `S[rs1]` of the selected table, with its checks in order (R199). -/
def Obligations.TwrdReadsATableWord : Prop :=
  ∀ (rd rs1 : Reg) (tbl : Tbl) (s : State), s.n.toNat ≤ s.cfg.nmax →
    (s.ctxvalid = true → s.sreg[rs1].toNat < s.n.toNat →
      exec (.twrd rd tbl rs1) s = .next (wroteReg s rd (match tbl with
        | .tf => s.memRead .tf s.sreg[rs1].toNat
        | .tfShoup => s.memRead .tfShoup s.sreg[rs1].toNat
        | .itf => s.memRead .itf s.sreg[rs1].toNat
        | .itfShoup => s.memRead .itfShoup s.sreg[rs1].toNat))) ∧
    (s.ctxvalid = false → exec (.twrd rd tbl rs1) s = .next (faulted s .notInitialised)) ∧
    (s.ctxvalid = true → s.n.toNat ≤ s.sreg[rs1].toNat →
      exec (.twrd rd tbl rs1) s = .next (faulted s .indexOutOfRange))

/-! ## Polynomials (spec/43_polynomial_ring.md) -/

/-- PolyCheck comes first and in order for every command that has it: CTXVALID, then every source's VALID, then every
source's tag (R221). -/
def Obligations.PolyCheckComesInOrder : Prop :=
  ∀ (i : Instr) (s : State) (srcs : List Buf), i.polySources = some srcs →
    (s.ctxvalid = false → exec i s = .next (faulted s .notInitialised)) ∧
    (s.ctxvalid = true → (∃ p ∈ srcs, s.poly[p].valid = false) → exec i s = .next (faulted s .notInitialised)) ∧
    (s.ctxvalid = true → (∀ p ∈ srcs, s.poly[p].valid = true) →
      (∃ p ∈ srcs, s.poly[p].tq ≠ s.q ∨ s.poly[p].tn ≠ s.n) → exec i s = .next (faulted s .modulusMismatch))

/-- PZERO makes the zero polynomial of the context (R222, R232). -/
def Obligations.PzeroMakesTheZeroPolynomial : Prop :=
  ∀ (pd : Buf) (s : State), s.ctxvalid = true → s.n.toNat ≤ s.cfg.nmax →
    ∃ t, exec (.pzero pd) s = .next t ∧ PolyResult s t pd s.q s.n ∧ t.free = s.free ∧
      ∀ i < s.n.toNat, t.memRead (.poly pd) i = 0

/-- PRAND makes a polynomial of N draws from [1, q), and takes the random source's answers in index order where it has N in
range ready (R223, R224, R341). That the answers wait in a list is the model's (assumption log 14). -/
def Obligations.PrandDrawsNonzeroResidues : Prop :=
  ∀ (pd : Buf) (s : State), s.ctxvalid = true → s.n.toNat ≤ s.cfg.nmax → 1 < s.q.toNat →
    ∃ t, exec (.prand pd) s = .next t ∧
      t = { s with poly := s.poly.set pd t.poly[pd], pc := s.pc + 1, free := t.free, oracle := t.oracle,
                   outbox := { fault := false, cause := 0, data := 0 } :: s.outbox } ∧
      t.poly[pd].valid = true ∧ t.poly[pd].tq = s.q ∧ t.poly[pd].tn = s.n ∧
      (∀ i, s.n.toNat ≤ i → t.memRead (.poly pd) i = s.memRead (.poly pd) i) ∧
      (∀ i < s.n.toNat, 1 ≤ t.coeff pd i ∧ t.coeff pd i < s.q.toNat) ∧
      ((∀ i < s.n.toNat, ∃ v, s.oracle[i]? = some v ∧ 1 ≤ v.toNat ∧ v.toNat < s.q.toNat) →
        t.oracle = s.oracle.drop s.n.toNat ∧ t.free = s.free ∧
        ∀ i < s.n.toNat, s.oracle[i]? = some (t.memRead (.poly pd) i))

/-- PWR writes the one word and no other word of any memory, no flag and no tag; PRD reads the one word (R225, R226). -/
def Obligations.PwrAndPrdAccessOneWord : Prop :=
  ∀ (r rs1 rs2 : Reg) (p : Buf) (s : State), PolyReady s p → s.sreg[rs1].toNat < s.n.toNat →
    exec (.prd r p rs1) s = .next (wroteReg s r (s.memRead (.poly p) s.sreg[rs1].toNat)) ∧
    (s.sreg[rs2].toNat < s.q.toNat →
      ∃ t, exec (.pwr p rs1 rs2) s = .next t ∧
        t = { s with poly := s.poly.set p { s.poly[p] with words := t.poly[p].words }, pc := s.pc + 1,
                     outbox := { fault := false, cause := 0, data := 0 } :: s.outbox } ∧
        ∀ m i, t.memRead m i = if m = .poly p ∧ i = s.sreg[rs1].toNat then s.sreg[rs2] else s.memRead m i)

/-- The operand checks of PWR and PRD after PolyCheck: the index before the value (R225, R226). -/
def Obligations.CoefficientChecksComeInOrder : Prop :=
  ∀ (r rs1 rs2 : Reg) (p : Buf) (s : State), PolyReady s p →
    (s.n.toNat ≤ s.sreg[rs1].toNat →
      exec (.pwr p rs1 rs2) s = .next (faulted s .indexOutOfRange) ∧
      exec (.prd r p rs1) s = .next (faulted s .indexOutOfRange)) ∧
    (s.sreg[rs1].toNat < s.n.toNat → s.q.toNat ≤ s.sreg[rs2].toNat →
      exec (.pwr p rs1 rs2) s = .next (faulted s .preconditionViolation))

/-- PCOPY copies the words and the tag of any valid buffer, whatever context is in force, and raises NotInitialised for an
invalid one (R227). -/
def Obligations.PcopyCopiesWordsAndTag : Prop :=
  ∀ (pd pa : Buf) (s : State),
    (s.poly[pa].valid = true → s.poly[pa].tn.toNat ≤ s.cfg.nmax →
      ∃ t, exec (.pcopy pd pa) s = .next t ∧ PolyResult s t pd s.poly[pa].tq s.poly[pa].tn ∧ t.free = s.free ∧
        ∀ i < s.poly[pa].tn.toNat, t.memRead (.poly pd) i = s.memRead (.poly pa) i) ∧
    (s.poly[pa].valid = false → exec (.pcopy pd pa) s = .next (faulted s .notInitialised))

/-- PADD, PSUB and PNEG on canonical coefficients are the exact ring operations word by word, for every modulus and every
aliasing of the buffers (R228 to R230, R232). -/
def Obligations.ElementwiseSumsAreExact : Prop :=
  ∀ (pd pa pb : Buf) (s : State), PolyReady s pa → PolyReady s pb →
    (∀ i < s.n.toNat, s.coeff pa i < s.q.toNat) → (∀ i < s.n.toNat, s.coeff pb i < s.q.toNat) →
    (∃ t, exec (.padd pd pa pb) s = .next t ∧ PolyResult s t pd s.q s.n ∧ t.free = s.free ∧
      ∀ i < s.n.toNat, t.coeff pd i = (s.coeff pa i + s.coeff pb i) % s.q.toNat) ∧
    (∃ t, exec (.psub pd pa pb) s = .next t ∧ PolyResult s t pd s.q s.n ∧ t.free = s.free ∧
      ∀ i < s.n.toNat, t.coeff pd i = (s.coeff pa i + (s.q.toNat - s.coeff pb i)) % s.q.toNat) ∧
    (∃ t, exec (.pneg pd pa) s = .next t ∧ PolyResult s t pd s.q s.n ∧ t.free = s.free ∧
      ∀ i < s.n.toNat, t.coeff pd i = (s.q.toNat - s.coeff pa i) % s.q.toNat)

/-- PMULPW on canonical coefficients is one BarrettMul per word, exactly the formula's value for every context, and
(a·b) mod q under BarrettSafe (R231). -/
def Obligations.PmulpwIsOneBarrettPerWord : Prop :=
  ∀ (pd pa pb : Buf) (s : State), Inv s → PolyReady s pa → PolyReady s pb →
    (∀ i < s.n.toNat, s.coeff pa i < s.q.toNat) → (∀ i < s.n.toNat, s.coeff pb i < s.q.toNat) →
    ∃ t, exec (.pmulpw pd pa pb) s = .next t ∧ PolyResult s t pd s.q s.n ∧ t.free = s.free ∧
      ∀ i < s.n.toNat, t.coeff pd i = barrettMul s.desc (s.coeff pa i) (s.coeff pb i) ∧
        (barrettSafe s.q.toNat = true → t.coeff pd i = s.coeff pa i * s.coeff pb i % s.q.toNat)

/-! ## Transforms and convolutions (spec/44_ntt_and_convolution.md) -/

/-- The elementwise commands, the transforms and the convolutions complete on whatever words the buffers hold, write N words,
VALID and the tag of the destination and nothing else (R228 to R232, R255, R259, R262, R263, R266, R269, R270; U1). Which
words those are is said by the model's own units: outside BarrettSafe, where an operand is no residue, and where a Shoup
word is not its partner's, these clauses are the model's choice of what is defined and what is a free value (assumption log
10, 11, 12), and the twiddle index is the spec's own presumption (log 18). -/
def Obligations.PolynomialCommandsCompleteOnAnyWords : Prop :=
  ∀ (pd pa pb : Buf) (s : State), Inv s → PolyReady s pa → PolyReady s pb →
    let result := fun (i : Instr) (p : Buf) (vs : List Val) =>
      ∃ t, exec i s = .next t ∧ PolyResult s t p s.q s.n ∧ vs.length = s.n.toNat ∧
        ∀ k < s.n.toNat, Agrees (vs.getD k none) (t.memRead (.poly p) k)
    result (.padd pd pa pb) pd (List.zipWith (vAdd s.q.toNat) (s.coeffs pa) (s.coeffs pb)) ∧
    result (.psub pd pa pb) pd (List.zipWith (vSub s.q.toNat) (s.coeffs pa) (s.coeffs pb)) ∧
    result (.pneg pd pa) pd ((s.coeffs pa).map (vNeg s.q.toNat)) ∧
    result (.pmulpw pd pa pb) pd (List.zipWith (vBarrett s.desc) (s.coeffs pa) (s.coeffs pb)) ∧
    result (.ntt pa) pa (nttForward .plain s.ctx (s.coeffs pa)) ∧
    result (.nttsh pa) pa (nttForward .shoup s.ctx (s.coeffs pa)) ∧
    result (.intt pa) pa (nttInverse .plain s.ctx (s.coeffs pa)) ∧
    result (.inttsh pa) pa (nttInverse .shoup s.ctx (s.coeffs pa)) ∧
    result (.convnaive pd pa pb) pd (naiveConv s.ctx (s.coeffs pa) (s.coeffs pb)) ∧
    result (.conv pd pa pb) pd (fastConv .plain s.ctx (s.coeffs pa) (s.coeffs pb)) ∧
    result (.convsh pd pa pb) pd (fastConv .shoup s.ctx (s.coeffs pa) (s.coeffs pb))

/-- Under BarrettSafe the Shoup variants have exactly the effect of the plain ones (R260, R271). -/
def Obligations.ShoupVariantsEqualPlainOnes : Prop :=
  ∀ (pd pa pb : Buf) (s : State), Inv s → Canonical s → barrettSafe s.q.toNat = true → PolyReady s pa → PolyReady s pb →
    exec (.nttsh pa) s = exec (.ntt pa) s ∧ exec (.inttsh pa) s = exec (.intt pa) s ∧
    exec (.convsh pd pa pb) s = exec (.conv pd pa pb) s

/-- NTT with BarrettSafe, and NTTSH for every modulus, evaluate the polynomial at the odd powers of the root, in bit-reversed
order: word k is a(g^(2·BitRev(k) + 1)) (R253). The tables are the canonical powers of g and the coefficients residues, as
they are in every reachable context with BarrettSafe. Which word holds which value rests on the twiddle index of R252, which
the spec itself presumes from general knowledge (GK1); the model follows it (assumption log 18, PRESUMED). -/
def Obligations.NttEvaluatesAtTheOddPowers : Prop :=
  ∀ (pa : Buf) (s : State) (g : Nat), Inv s → PolyReady s pa → TablesCanonical s → TablesArePowers s g →
    (∀ i < s.n.toNat, s.coeff pa i < s.q.toNat) →
    let evaluates := fun i : Instr => ∃ t, exec i s = .next t ∧ PolyResult s t pa s.q s.n ∧ ∀ k < s.n.toNat,
      t.coeff pa k =
        (∑ j ∈ Finset.range s.n.toNat, s.coeff pa j * g ^ ((2 * bitRev k s.logn.toNat + 1) * j)) % s.q.toNat
    evaluates (.nttsh pa) ∧ (barrettSafe s.q.toNat = true → evaluates (.ntt pa))

/-- A forward transform then an inverse one of either kind, and an inverse then a forward one, give the buffer's words back
(R258). -/
def Obligations.TransformsUndoEachOther : Prop :=
  ∀ (pa : Buf) (s t u : State) (f b : Instr), Inv s → Canonical s → barrettSafe s.q.toNat = true → PolyReady s pa →
    (f ∈ [Instr.ntt pa, .nttsh pa] ∧ b ∈ [Instr.intt pa, .inttsh pa] ∨
      f ∈ [Instr.intt pa, .inttsh pa] ∧ b ∈ [Instr.ntt pa, .nttsh pa]) →
    exec f s = .next t → exec b t = .next u →
    u.fault = s.fault ∧ ∀ i < s.n.toNat, u.memRead (.poly pa) i = s.memRead (.poly pa) i

/-- CONVNAIVE is the product in Z_q[x]/(x^N + 1) under BarrettSafe, for every aliasing of the buffers (R264, R266, R268). -/
def Obligations.ConvnaiveIsTheNegacyclicProduct : Prop :=
  ∀ (pd pa pb : Buf) (s : State), Inv s → Canonical s → barrettSafe s.q.toNat = true → PolyReady s pa → PolyReady s pb →
    ∃ t, exec (.convnaive pd pa pb) s = .next t ∧ PolyResult s t pd s.q s.n ∧
      ∀ i < s.n.toNat, t.coeff pd i < s.q.toNat ∧
        (t.coeff pd i : ZMod s.q.toNat) =
          ∑ j ∈ Finset.range s.n.toNat,
            if j ≤ i then (s.coeff pa j : ZMod s.q.toNat) * (s.coeff pb (i - j) : ZMod s.q.toNat)
            else -((s.coeff pa j : ZMod s.q.toNat) * (s.coeff pb (s.n.toNat + i - j) : ZMod s.q.toNat))

/-- The three convolutions have the same effect under BarrettSafe (R271). -/
def Obligations.TheThreeConvolutionsAgree : Prop :=
  ∀ (pd pa pb : Buf) (s : State), Inv s → Canonical s → barrettSafe s.q.toNat = true → PolyReady s pa → PolyReady s pb →
    exec (.conv pd pa pb) s = exec (.convnaive pd pa pb) s ∧ exec (.convsh pd pa pb) s = exec (.convnaive pd pa pb) s
end

