-- ==== Sys2Proof/Laws/State.lean ====
section
/-! SUPPORT. One lemma per field per update of the state (the simp set of the model). -/

namespace Sys2Proof.Machine

/-! ## `State.setS` -/

@[simp] theorem State.setS_cfg (s : State) (i : Fin 16) (v : Word) : (s.setS i v).cfg = s.cfg := rfl
@[simp] theorem State.setS_sreg (s : State) (i : Fin 16) (v : Word) : (s.setS i v).sreg = s.sreg.set i v := rfl
@[simp] theorem State.setS_q (s : State) (i : Fin 16) (v : Word) : (s.setS i v).q = s.q := rfl
@[simp] theorem State.setS_logq (s : State) (i : Fin 16) (v : Word) : (s.setS i v).logq = s.logq := rfl
@[simp] theorem State.setS_mu (s : State) (i : Fin 16) (v : Word) : (s.setS i v).mu = s.mu := rfl
@[simp] theorem State.setS_modvalid (s : State) (i : Fin 16) (v : Word) : (s.setS i v).modvalid = s.modvalid := rfl
@[simp] theorem State.setS_n (s : State) (i : Fin 16) (v : Word) : (s.setS i v).n = s.n := rfl
@[simp] theorem State.setS_logn (s : State) (i : Fin 16) (v : Word) : (s.setS i v).logn = s.logn := rfl
@[simp] theorem State.setS_invN (s : State) (i : Fin 16) (v : Word) : (s.setS i v).invN = s.invN := rfl
@[simp] theorem State.setS_invNShoup (s : State) (i : Fin 16) (v : Word) : (s.setS i v).invNShoup = s.invNShoup := rfl
@[simp] theorem State.setS_ctxvalid (s : State) (i : Fin 16) (v : Word) : (s.setS i v).ctxvalid = s.ctxvalid := rfl
@[simp] theorem State.setS_tf (s : State) (i : Fin 16) (v : Word) : (s.setS i v).tf = s.tf := rfl
@[simp] theorem State.setS_tfShoup (s : State) (i : Fin 16) (v : Word) : (s.setS i v).tfShoup = s.tfShoup := rfl
@[simp] theorem State.setS_itf (s : State) (i : Fin 16) (v : Word) : (s.setS i v).itf = s.itf := rfl
@[simp] theorem State.setS_itfShoup (s : State) (i : Fin 16) (v : Word) : (s.setS i v).itfShoup = s.itfShoup := rfl
@[simp] theorem State.setS_poly (s : State) (i : Fin 16) (v : Word) : (s.setS i v).poly = s.poly := rfl
@[simp] theorem State.setS_fault (s : State) (i : Fin 16) (v : Word) : (s.setS i v).fault = s.fault := rfl
@[simp] theorem State.setS_cause (s : State) (i : Fin 16) (v : Word) : (s.setS i v).cause = s.cause := rfl
@[simp] theorem State.setS_faultcmd (s : State) (i : Fin 16) (v : Word) : (s.setS i v).faultcmd = s.faultcmd := rfl
@[simp] theorem State.setS_pc (s : State) (i : Fin 16) (v : Word) : (s.setS i v).pc = s.pc := rfl
@[simp] theorem State.setS_inbox (s : State) (i : Fin 16) (v : Word) : (s.setS i v).inbox = s.inbox := rfl
@[simp] theorem State.setS_cmd (s : State) (i : Fin 16) (v : Word) : (s.setS i v).cmd = s.cmd := rfl
@[simp] theorem State.setS_outbox (s : State) (i : Fin 16) (v : Word) : (s.setS i v).outbox = s.outbox := rfl
@[simp] theorem State.setS_oracle (s : State) (i : Fin 16) (v : Word) : (s.setS i v).oracle = s.oracle := rfl
@[simp] theorem State.setS_free (s : State) (i : Fin 16) (v : Word) : (s.setS i v).free = s.free := rfl

/-! ## `State.respond` -/

@[simp] theorem State.respond_cfg (s : State) (r : Response) : (s.respond r).cfg = s.cfg := rfl
@[simp] theorem State.respond_sreg (s : State) (r : Response) : (s.respond r).sreg = s.sreg := rfl
@[simp] theorem State.respond_q (s : State) (r : Response) : (s.respond r).q = s.q := rfl
@[simp] theorem State.respond_logq (s : State) (r : Response) : (s.respond r).logq = s.logq := rfl
@[simp] theorem State.respond_mu (s : State) (r : Response) : (s.respond r).mu = s.mu := rfl
@[simp] theorem State.respond_modvalid (s : State) (r : Response) : (s.respond r).modvalid = s.modvalid := rfl
@[simp] theorem State.respond_n (s : State) (r : Response) : (s.respond r).n = s.n := rfl
@[simp] theorem State.respond_logn (s : State) (r : Response) : (s.respond r).logn = s.logn := rfl
@[simp] theorem State.respond_invN (s : State) (r : Response) : (s.respond r).invN = s.invN := rfl
@[simp] theorem State.respond_invNShoup (s : State) (r : Response) : (s.respond r).invNShoup = s.invNShoup := rfl
@[simp] theorem State.respond_ctxvalid (s : State) (r : Response) : (s.respond r).ctxvalid = s.ctxvalid := rfl
@[simp] theorem State.respond_tf (s : State) (r : Response) : (s.respond r).tf = s.tf := rfl
@[simp] theorem State.respond_tfShoup (s : State) (r : Response) : (s.respond r).tfShoup = s.tfShoup := rfl
@[simp] theorem State.respond_itf (s : State) (r : Response) : (s.respond r).itf = s.itf := rfl
@[simp] theorem State.respond_itfShoup (s : State) (r : Response) : (s.respond r).itfShoup = s.itfShoup := rfl
@[simp] theorem State.respond_poly (s : State) (r : Response) : (s.respond r).poly = s.poly := rfl
@[simp] theorem State.respond_fault (s : State) (r : Response) : (s.respond r).fault = s.fault := rfl
@[simp] theorem State.respond_cause (s : State) (r : Response) : (s.respond r).cause = s.cause := rfl
@[simp] theorem State.respond_faultcmd (s : State) (r : Response) : (s.respond r).faultcmd = s.faultcmd := rfl
@[simp] theorem State.respond_pc (s : State) (r : Response) : (s.respond r).pc = s.pc := rfl
@[simp] theorem State.respond_inbox (s : State) (r : Response) : (s.respond r).inbox = s.inbox := rfl
@[simp] theorem State.respond_cmd (s : State) (r : Response) : (s.respond r).cmd = s.cmd := rfl
@[simp] theorem State.respond_outbox (s : State) (r : Response) : (s.respond r).outbox = r :: s.outbox := rfl
@[simp] theorem State.respond_oracle (s : State) (r : Response) : (s.respond r).oracle = s.oracle := rfl
@[simp] theorem State.respond_free (s : State) (r : Response) : (s.respond r).free = s.free := rfl

/-! ## `State.raise` -/

@[simp] theorem State.raise_cfg (s : State) (c : Cause) : (s.raise c).cfg = s.cfg := rfl
@[simp] theorem State.raise_sreg (s : State) (c : Cause) : (s.raise c).sreg = s.sreg := rfl
@[simp] theorem State.raise_q (s : State) (c : Cause) : (s.raise c).q = s.q := rfl
@[simp] theorem State.raise_logq (s : State) (c : Cause) : (s.raise c).logq = s.logq := rfl
@[simp] theorem State.raise_mu (s : State) (c : Cause) : (s.raise c).mu = s.mu := rfl
@[simp] theorem State.raise_modvalid (s : State) (c : Cause) : (s.raise c).modvalid = s.modvalid := rfl
@[simp] theorem State.raise_n (s : State) (c : Cause) : (s.raise c).n = s.n := rfl
@[simp] theorem State.raise_logn (s : State) (c : Cause) : (s.raise c).logn = s.logn := rfl
@[simp] theorem State.raise_invN (s : State) (c : Cause) : (s.raise c).invN = s.invN := rfl
@[simp] theorem State.raise_invNShoup (s : State) (c : Cause) : (s.raise c).invNShoup = s.invNShoup := rfl
@[simp] theorem State.raise_ctxvalid (s : State) (c : Cause) : (s.raise c).ctxvalid = s.ctxvalid := rfl
@[simp] theorem State.raise_tf (s : State) (c : Cause) : (s.raise c).tf = s.tf := rfl
@[simp] theorem State.raise_tfShoup (s : State) (c : Cause) : (s.raise c).tfShoup = s.tfShoup := rfl
@[simp] theorem State.raise_itf (s : State) (c : Cause) : (s.raise c).itf = s.itf := rfl
@[simp] theorem State.raise_itfShoup (s : State) (c : Cause) : (s.raise c).itfShoup = s.itfShoup := rfl
@[simp] theorem State.raise_poly (s : State) (c : Cause) : (s.raise c).poly = s.poly := rfl
@[simp] theorem State.raise_fault (s : State) (c : Cause) : (s.raise c).fault = true := rfl
@[simp] theorem State.raise_cause (s : State) (c : Cause) : (s.raise c).cause = c.code := rfl
@[simp] theorem State.raise_faultcmd (s : State) (c : Cause) : (s.raise c).faultcmd = s.cmd := rfl
@[simp] theorem State.raise_pc (s : State) (c : Cause) : (s.raise c).pc = s.pc := rfl
@[simp] theorem State.raise_inbox (s : State) (c : Cause) : (s.raise c).inbox = s.inbox := rfl
@[simp] theorem State.raise_cmd (s : State) (c : Cause) : (s.raise c).cmd = s.cmd := rfl
@[simp] theorem State.raise_outbox (s : State) (c : Cause) : (s.raise c).outbox = { fault := true, cause := c.code, data := 0 } :: s.outbox := rfl
@[simp] theorem State.raise_oracle (s : State) (c : Cause) : (s.raise c).oracle = s.oracle := rfl
@[simp] theorem State.raise_free (s : State) (c : Cause) : (s.raise c).free = s.free := rfl

/-! ## `State.refuse` -/

@[simp] theorem State.refuse_cfg (s : State) : (s.refuse).cfg = s.cfg := rfl
@[simp] theorem State.refuse_sreg (s : State) : (s.refuse).sreg = s.sreg := rfl
@[simp] theorem State.refuse_q (s : State) : (s.refuse).q = s.q := rfl
@[simp] theorem State.refuse_logq (s : State) : (s.refuse).logq = s.logq := rfl
@[simp] theorem State.refuse_mu (s : State) : (s.refuse).mu = s.mu := rfl
@[simp] theorem State.refuse_modvalid (s : State) : (s.refuse).modvalid = s.modvalid := rfl
@[simp] theorem State.refuse_n (s : State) : (s.refuse).n = s.n := rfl
@[simp] theorem State.refuse_logn (s : State) : (s.refuse).logn = s.logn := rfl
@[simp] theorem State.refuse_invN (s : State) : (s.refuse).invN = s.invN := rfl
@[simp] theorem State.refuse_invNShoup (s : State) : (s.refuse).invNShoup = s.invNShoup := rfl
@[simp] theorem State.refuse_ctxvalid (s : State) : (s.refuse).ctxvalid = s.ctxvalid := rfl
@[simp] theorem State.refuse_tf (s : State) : (s.refuse).tf = s.tf := rfl
@[simp] theorem State.refuse_tfShoup (s : State) : (s.refuse).tfShoup = s.tfShoup := rfl
@[simp] theorem State.refuse_itf (s : State) : (s.refuse).itf = s.itf := rfl
@[simp] theorem State.refuse_itfShoup (s : State) : (s.refuse).itfShoup = s.itfShoup := rfl
@[simp] theorem State.refuse_poly (s : State) : (s.refuse).poly = s.poly := rfl
@[simp] theorem State.refuse_fault (s : State) : (s.refuse).fault = s.fault := rfl
@[simp] theorem State.refuse_cause (s : State) : (s.refuse).cause = s.cause := rfl
@[simp] theorem State.refuse_faultcmd (s : State) : (s.refuse).faultcmd = s.faultcmd := rfl
@[simp] theorem State.refuse_pc (s : State) : (s.refuse).pc = s.pc := rfl
@[simp] theorem State.refuse_inbox (s : State) : (s.refuse).inbox = s.inbox := rfl
@[simp] theorem State.refuse_cmd (s : State) : (s.refuse).cmd = s.cmd := rfl
@[simp] theorem State.refuse_outbox (s : State) : (s.refuse).outbox = { fault := true, cause := s.cause, data := 0 } :: s.outbox := rfl
@[simp] theorem State.refuse_oracle (s : State) : (s.refuse).oracle = s.oracle := rfl
@[simp] theorem State.refuse_free (s : State) : (s.refuse).free = s.free := rfl

/-! ## `State.complete` -/

@[simp] theorem State.complete_cfg (s : State) (d : Word) : (s.complete d).cfg = s.cfg := rfl
@[simp] theorem State.complete_sreg (s : State) (d : Word) : (s.complete d).sreg = s.sreg := rfl
@[simp] theorem State.complete_q (s : State) (d : Word) : (s.complete d).q = s.q := rfl
@[simp] theorem State.complete_logq (s : State) (d : Word) : (s.complete d).logq = s.logq := rfl
@[simp] theorem State.complete_mu (s : State) (d : Word) : (s.complete d).mu = s.mu := rfl
@[simp] theorem State.complete_modvalid (s : State) (d : Word) : (s.complete d).modvalid = s.modvalid := rfl
@[simp] theorem State.complete_n (s : State) (d : Word) : (s.complete d).n = s.n := rfl
@[simp] theorem State.complete_logn (s : State) (d : Word) : (s.complete d).logn = s.logn := rfl
@[simp] theorem State.complete_invN (s : State) (d : Word) : (s.complete d).invN = s.invN := rfl
@[simp] theorem State.complete_invNShoup (s : State) (d : Word) : (s.complete d).invNShoup = s.invNShoup := rfl
@[simp] theorem State.complete_ctxvalid (s : State) (d : Word) : (s.complete d).ctxvalid = s.ctxvalid := rfl
@[simp] theorem State.complete_tf (s : State) (d : Word) : (s.complete d).tf = s.tf := rfl
@[simp] theorem State.complete_tfShoup (s : State) (d : Word) : (s.complete d).tfShoup = s.tfShoup := rfl
@[simp] theorem State.complete_itf (s : State) (d : Word) : (s.complete d).itf = s.itf := rfl
@[simp] theorem State.complete_itfShoup (s : State) (d : Word) : (s.complete d).itfShoup = s.itfShoup := rfl
@[simp] theorem State.complete_poly (s : State) (d : Word) : (s.complete d).poly = s.poly := rfl
@[simp] theorem State.complete_fault (s : State) (d : Word) : (s.complete d).fault = s.fault := rfl
@[simp] theorem State.complete_cause (s : State) (d : Word) : (s.complete d).cause = s.cause := rfl
@[simp] theorem State.complete_faultcmd (s : State) (d : Word) : (s.complete d).faultcmd = s.faultcmd := rfl
@[simp] theorem State.complete_pc (s : State) (d : Word) : (s.complete d).pc = s.pc + 1 := rfl
@[simp] theorem State.complete_inbox (s : State) (d : Word) : (s.complete d).inbox = s.inbox := rfl
@[simp] theorem State.complete_cmd (s : State) (d : Word) : (s.complete d).cmd = s.cmd := rfl
@[simp] theorem State.complete_outbox (s : State) (d : Word) : (s.complete d).outbox = { fault := false, cause := 0, data := d } :: s.outbox := rfl
@[simp] theorem State.complete_oracle (s : State) (d : Word) : (s.complete d).oracle = s.oracle := rfl
@[simp] theorem State.complete_free (s : State) (d : Word) : (s.complete d).free = s.free := rfl

/-! ## `State.resetBlock` -/

@[simp] theorem State.resetBlock_cfg (s : State) : (s.resetBlock).cfg = s.cfg := rfl
@[simp] theorem State.resetBlock_sreg (s : State) : (s.resetBlock).sreg = State.reset.sreg := rfl
@[simp] theorem State.resetBlock_q (s : State) : (s.resetBlock).q = State.reset.q := rfl
@[simp] theorem State.resetBlock_logq (s : State) : (s.resetBlock).logq = State.reset.logq := rfl
@[simp] theorem State.resetBlock_mu (s : State) : (s.resetBlock).mu = State.reset.mu := rfl
@[simp] theorem State.resetBlock_modvalid (s : State) : (s.resetBlock).modvalid = false := rfl
@[simp] theorem State.resetBlock_n (s : State) : (s.resetBlock).n = State.reset.n := rfl
@[simp] theorem State.resetBlock_logn (s : State) : (s.resetBlock).logn = State.reset.logn := rfl
@[simp] theorem State.resetBlock_invN (s : State) : (s.resetBlock).invN = State.reset.invN := rfl
@[simp] theorem State.resetBlock_invNShoup (s : State) : (s.resetBlock).invNShoup = State.reset.invNShoup := rfl
@[simp] theorem State.resetBlock_ctxvalid (s : State) : (s.resetBlock).ctxvalid = false := rfl
@[simp] theorem State.resetBlock_tf (s : State) : (s.resetBlock).tf = [] := rfl
@[simp] theorem State.resetBlock_tfShoup (s : State) : (s.resetBlock).tfShoup = [] := rfl
@[simp] theorem State.resetBlock_itf (s : State) : (s.resetBlock).itf = [] := rfl
@[simp] theorem State.resetBlock_itfShoup (s : State) : (s.resetBlock).itfShoup = [] := rfl
@[simp] theorem State.resetBlock_poly (s : State) : (s.resetBlock).poly = State.reset.poly := rfl
@[simp] theorem State.resetBlock_fault (s : State) : (s.resetBlock).fault = false := rfl
@[simp] theorem State.resetBlock_cause (s : State) : (s.resetBlock).cause = 0 := rfl
@[simp] theorem State.resetBlock_faultcmd (s : State) : (s.resetBlock).faultcmd = 0 := rfl
@[simp] theorem State.resetBlock_pc (s : State) : (s.resetBlock).pc = 0 := rfl
@[simp] theorem State.resetBlock_inbox (s : State) : (s.resetBlock).inbox = s.inbox := rfl
@[simp] theorem State.resetBlock_cmd (s : State) : (s.resetBlock).cmd = State.reset.cmd := rfl
@[simp] theorem State.resetBlock_outbox (s : State) : (s.resetBlock).outbox = s.outbox := rfl
@[simp] theorem State.resetBlock_oracle (s : State) : (s.resetBlock).oracle = s.oracle := rfl
@[simp] theorem State.resetBlock_free (s : State) : (s.resetBlock).free = s.free + 1 := rfl

/-! ## `State.setDesc` -/

@[simp] theorem State.setDesc_cfg (s : State) (d : Descriptor) : (s.setDesc d).cfg = s.cfg := rfl
@[simp] theorem State.setDesc_sreg (s : State) (d : Descriptor) : (s.setDesc d).sreg = s.sreg := rfl
@[simp] theorem State.setDesc_q (s : State) (d : Descriptor) : (s.setDesc d).q = BitVec.ofNat 64 d.q := rfl
@[simp] theorem State.setDesc_logq (s : State) (d : Descriptor) : (s.setDesc d).logq = BitVec.ofNat 6 d.k := rfl
@[simp] theorem State.setDesc_mu (s : State) (d : Descriptor) : (s.setDesc d).mu = BitVec.ofNat 64 d.mu := rfl
@[simp] theorem State.setDesc_modvalid (s : State) (d : Descriptor) : (s.setDesc d).modvalid = s.modvalid := rfl
@[simp] theorem State.setDesc_n (s : State) (d : Descriptor) : (s.setDesc d).n = s.n := rfl
@[simp] theorem State.setDesc_logn (s : State) (d : Descriptor) : (s.setDesc d).logn = s.logn := rfl
@[simp] theorem State.setDesc_invN (s : State) (d : Descriptor) : (s.setDesc d).invN = s.invN := rfl
@[simp] theorem State.setDesc_invNShoup (s : State) (d : Descriptor) : (s.setDesc d).invNShoup = s.invNShoup := rfl
@[simp] theorem State.setDesc_ctxvalid (s : State) (d : Descriptor) : (s.setDesc d).ctxvalid = s.ctxvalid := rfl
@[simp] theorem State.setDesc_tf (s : State) (d : Descriptor) : (s.setDesc d).tf = s.tf := rfl
@[simp] theorem State.setDesc_tfShoup (s : State) (d : Descriptor) : (s.setDesc d).tfShoup = s.tfShoup := rfl
@[simp] theorem State.setDesc_itf (s : State) (d : Descriptor) : (s.setDesc d).itf = s.itf := rfl
@[simp] theorem State.setDesc_itfShoup (s : State) (d : Descriptor) : (s.setDesc d).itfShoup = s.itfShoup := rfl
@[simp] theorem State.setDesc_poly (s : State) (d : Descriptor) : (s.setDesc d).poly = s.poly := rfl
@[simp] theorem State.setDesc_fault (s : State) (d : Descriptor) : (s.setDesc d).fault = s.fault := rfl
@[simp] theorem State.setDesc_cause (s : State) (d : Descriptor) : (s.setDesc d).cause = s.cause := rfl
@[simp] theorem State.setDesc_faultcmd (s : State) (d : Descriptor) : (s.setDesc d).faultcmd = s.faultcmd := rfl
@[simp] theorem State.setDesc_pc (s : State) (d : Descriptor) : (s.setDesc d).pc = s.pc := rfl
@[simp] theorem State.setDesc_inbox (s : State) (d : Descriptor) : (s.setDesc d).inbox = s.inbox := rfl
@[simp] theorem State.setDesc_cmd (s : State) (d : Descriptor) : (s.setDesc d).cmd = s.cmd := rfl
@[simp] theorem State.setDesc_outbox (s : State) (d : Descriptor) : (s.setDesc d).outbox = s.outbox := rfl
@[simp] theorem State.setDesc_oracle (s : State) (d : Descriptor) : (s.setDesc d).oracle = s.oracle := rfl
@[simp] theorem State.setDesc_free (s : State) (d : Descriptor) : (s.setDesc d).free = s.free := rfl

/-! ## `State.flagsSetmod` -/

@[simp] theorem State.flagsSetmod_cfg (s : State) : (s.flagsSetmod).cfg = s.cfg := rfl
@[simp] theorem State.flagsSetmod_sreg (s : State) : (s.flagsSetmod).sreg = s.sreg := rfl
@[simp] theorem State.flagsSetmod_q (s : State) : (s.flagsSetmod).q = s.q := rfl
@[simp] theorem State.flagsSetmod_logq (s : State) : (s.flagsSetmod).logq = s.logq := rfl
@[simp] theorem State.flagsSetmod_mu (s : State) : (s.flagsSetmod).mu = s.mu := rfl
@[simp] theorem State.flagsSetmod_modvalid (s : State) : (s.flagsSetmod).modvalid = true := rfl
@[simp] theorem State.flagsSetmod_n (s : State) : (s.flagsSetmod).n = s.n := rfl
@[simp] theorem State.flagsSetmod_logn (s : State) : (s.flagsSetmod).logn = s.logn := rfl
@[simp] theorem State.flagsSetmod_invN (s : State) : (s.flagsSetmod).invN = s.invN := rfl
@[simp] theorem State.flagsSetmod_invNShoup (s : State) : (s.flagsSetmod).invNShoup = s.invNShoup := rfl
@[simp] theorem State.flagsSetmod_ctxvalid (s : State) : (s.flagsSetmod).ctxvalid = false := rfl
@[simp] theorem State.flagsSetmod_tf (s : State) : (s.flagsSetmod).tf = s.tf := rfl
@[simp] theorem State.flagsSetmod_tfShoup (s : State) : (s.flagsSetmod).tfShoup = s.tfShoup := rfl
@[simp] theorem State.flagsSetmod_itf (s : State) : (s.flagsSetmod).itf = s.itf := rfl
@[simp] theorem State.flagsSetmod_itfShoup (s : State) : (s.flagsSetmod).itfShoup = s.itfShoup := rfl
@[simp] theorem State.flagsSetmod_poly (s : State) : (s.flagsSetmod).poly = s.poly := rfl
@[simp] theorem State.flagsSetmod_fault (s : State) : (s.flagsSetmod).fault = s.fault := rfl
@[simp] theorem State.flagsSetmod_cause (s : State) : (s.flagsSetmod).cause = s.cause := rfl
@[simp] theorem State.flagsSetmod_faultcmd (s : State) : (s.flagsSetmod).faultcmd = s.faultcmd := rfl
@[simp] theorem State.flagsSetmod_pc (s : State) : (s.flagsSetmod).pc = s.pc := rfl
@[simp] theorem State.flagsSetmod_inbox (s : State) : (s.flagsSetmod).inbox = s.inbox := rfl
@[simp] theorem State.flagsSetmod_cmd (s : State) : (s.flagsSetmod).cmd = s.cmd := rfl
@[simp] theorem State.flagsSetmod_outbox (s : State) : (s.flagsSetmod).outbox = s.outbox := rfl
@[simp] theorem State.flagsSetmod_oracle (s : State) : (s.flagsSetmod).oracle = s.oracle := rfl
@[simp] theorem State.flagsSetmod_free (s : State) : (s.flagsSetmod).free = s.free := rfl

/-! ## `State.flagsCtxinit` -/

@[simp] theorem State.flagsCtxinit_cfg (s : State) : (s.flagsCtxinit).cfg = s.cfg := rfl
@[simp] theorem State.flagsCtxinit_sreg (s : State) : (s.flagsCtxinit).sreg = s.sreg := rfl
@[simp] theorem State.flagsCtxinit_q (s : State) : (s.flagsCtxinit).q = s.q := rfl
@[simp] theorem State.flagsCtxinit_logq (s : State) : (s.flagsCtxinit).logq = s.logq := rfl
@[simp] theorem State.flagsCtxinit_mu (s : State) : (s.flagsCtxinit).mu = s.mu := rfl
@[simp] theorem State.flagsCtxinit_modvalid (s : State) : (s.flagsCtxinit).modvalid = true := rfl
@[simp] theorem State.flagsCtxinit_n (s : State) : (s.flagsCtxinit).n = s.n := rfl
@[simp] theorem State.flagsCtxinit_logn (s : State) : (s.flagsCtxinit).logn = s.logn := rfl
@[simp] theorem State.flagsCtxinit_invN (s : State) : (s.flagsCtxinit).invN = s.invN := rfl
@[simp] theorem State.flagsCtxinit_invNShoup (s : State) : (s.flagsCtxinit).invNShoup = s.invNShoup := rfl
@[simp] theorem State.flagsCtxinit_ctxvalid (s : State) : (s.flagsCtxinit).ctxvalid = true := rfl
@[simp] theorem State.flagsCtxinit_tf (s : State) : (s.flagsCtxinit).tf = s.tf := rfl
@[simp] theorem State.flagsCtxinit_tfShoup (s : State) : (s.flagsCtxinit).tfShoup = s.tfShoup := rfl
@[simp] theorem State.flagsCtxinit_itf (s : State) : (s.flagsCtxinit).itf = s.itf := rfl
@[simp] theorem State.flagsCtxinit_itfShoup (s : State) : (s.flagsCtxinit).itfShoup = s.itfShoup := rfl
@[simp] theorem State.flagsCtxinit_poly (s : State) : (s.flagsCtxinit).poly = s.poly := rfl
@[simp] theorem State.flagsCtxinit_fault (s : State) : (s.flagsCtxinit).fault = s.fault := rfl
@[simp] theorem State.flagsCtxinit_cause (s : State) : (s.flagsCtxinit).cause = s.cause := rfl
@[simp] theorem State.flagsCtxinit_faultcmd (s : State) : (s.flagsCtxinit).faultcmd = s.faultcmd := rfl
@[simp] theorem State.flagsCtxinit_pc (s : State) : (s.flagsCtxinit).pc = s.pc := rfl
@[simp] theorem State.flagsCtxinit_inbox (s : State) : (s.flagsCtxinit).inbox = s.inbox := rfl
@[simp] theorem State.flagsCtxinit_cmd (s : State) : (s.flagsCtxinit).cmd = s.cmd := rfl
@[simp] theorem State.flagsCtxinit_outbox (s : State) : (s.flagsCtxinit).outbox = s.outbox := rfl
@[simp] theorem State.flagsCtxinit_oracle (s : State) : (s.flagsCtxinit).oracle = s.oracle := rfl
@[simp] theorem State.flagsCtxinit_free (s : State) : (s.flagsCtxinit).free = s.free := rfl

/-! ## `State.setDegree` -/

@[simp] theorem State.setDegree_cfg (s : State) (n : Nat) : (s.setDegree n).cfg = s.cfg := rfl
@[simp] theorem State.setDegree_sreg (s : State) (n : Nat) : (s.setDegree n).sreg = s.sreg := rfl
@[simp] theorem State.setDegree_q (s : State) (n : Nat) : (s.setDegree n).q = s.q := rfl
@[simp] theorem State.setDegree_logq (s : State) (n : Nat) : (s.setDegree n).logq = s.logq := rfl
@[simp] theorem State.setDegree_mu (s : State) (n : Nat) : (s.setDegree n).mu = s.mu := rfl
@[simp] theorem State.setDegree_modvalid (s : State) (n : Nat) : (s.setDegree n).modvalid = s.modvalid := rfl
@[simp] theorem State.setDegree_n (s : State) (n : Nat) : (s.setDegree n).n = BitVec.ofNat 64 n := rfl
@[simp] theorem State.setDegree_logn (s : State) (n : Nat) : (s.setDegree n).logn = BitVec.ofNat 6 (Nat.log2 n) := rfl
@[simp] theorem State.setDegree_invN (s : State) (n : Nat) : (s.setDegree n).invN = s.invN := rfl
@[simp] theorem State.setDegree_invNShoup (s : State) (n : Nat) : (s.setDegree n).invNShoup = s.invNShoup := rfl
@[simp] theorem State.setDegree_ctxvalid (s : State) (n : Nat) : (s.setDegree n).ctxvalid = s.ctxvalid := rfl
@[simp] theorem State.setDegree_tf (s : State) (n : Nat) : (s.setDegree n).tf = s.tf := rfl
@[simp] theorem State.setDegree_tfShoup (s : State) (n : Nat) : (s.setDegree n).tfShoup = s.tfShoup := rfl
@[simp] theorem State.setDegree_itf (s : State) (n : Nat) : (s.setDegree n).itf = s.itf := rfl
@[simp] theorem State.setDegree_itfShoup (s : State) (n : Nat) : (s.setDegree n).itfShoup = s.itfShoup := rfl
@[simp] theorem State.setDegree_poly (s : State) (n : Nat) : (s.setDegree n).poly = s.poly := rfl
@[simp] theorem State.setDegree_fault (s : State) (n : Nat) : (s.setDegree n).fault = s.fault := rfl
@[simp] theorem State.setDegree_cause (s : State) (n : Nat) : (s.setDegree n).cause = s.cause := rfl
@[simp] theorem State.setDegree_faultcmd (s : State) (n : Nat) : (s.setDegree n).faultcmd = s.faultcmd := rfl
@[simp] theorem State.setDegree_pc (s : State) (n : Nat) : (s.setDegree n).pc = s.pc := rfl
@[simp] theorem State.setDegree_inbox (s : State) (n : Nat) : (s.setDegree n).inbox = s.inbox := rfl
@[simp] theorem State.setDegree_cmd (s : State) (n : Nat) : (s.setDegree n).cmd = s.cmd := rfl
@[simp] theorem State.setDegree_outbox (s : State) (n : Nat) : (s.setDegree n).outbox = s.outbox := rfl
@[simp] theorem State.setDegree_oracle (s : State) (n : Nat) : (s.setDegree n).oracle = s.oracle := rfl
@[simp] theorem State.setDegree_free (s : State) (n : Nat) : (s.setDegree n).free = s.free := rfl

/-! ## `State.tag` -/

@[simp] theorem State.tag_cfg (s : State) (p : Buf) (tq tn : Word) : (s.tag p tq tn).cfg = s.cfg := rfl
@[simp] theorem State.tag_sreg (s : State) (p : Buf) (tq tn : Word) : (s.tag p tq tn).sreg = s.sreg := rfl
@[simp] theorem State.tag_q (s : State) (p : Buf) (tq tn : Word) : (s.tag p tq tn).q = s.q := rfl
@[simp] theorem State.tag_logq (s : State) (p : Buf) (tq tn : Word) : (s.tag p tq tn).logq = s.logq := rfl
@[simp] theorem State.tag_mu (s : State) (p : Buf) (tq tn : Word) : (s.tag p tq tn).mu = s.mu := rfl
@[simp] theorem State.tag_modvalid (s : State) (p : Buf) (tq tn : Word) : (s.tag p tq tn).modvalid = s.modvalid := rfl
@[simp] theorem State.tag_n (s : State) (p : Buf) (tq tn : Word) : (s.tag p tq tn).n = s.n := rfl
@[simp] theorem State.tag_logn (s : State) (p : Buf) (tq tn : Word) : (s.tag p tq tn).logn = s.logn := rfl
@[simp] theorem State.tag_invN (s : State) (p : Buf) (tq tn : Word) : (s.tag p tq tn).invN = s.invN := rfl
@[simp] theorem State.tag_invNShoup (s : State) (p : Buf) (tq tn : Word) : (s.tag p tq tn).invNShoup = s.invNShoup := rfl
@[simp] theorem State.tag_ctxvalid (s : State) (p : Buf) (tq tn : Word) : (s.tag p tq tn).ctxvalid = s.ctxvalid := rfl
@[simp] theorem State.tag_tf (s : State) (p : Buf) (tq tn : Word) : (s.tag p tq tn).tf = s.tf := rfl
@[simp] theorem State.tag_tfShoup (s : State) (p : Buf) (tq tn : Word) : (s.tag p tq tn).tfShoup = s.tfShoup := rfl
@[simp] theorem State.tag_itf (s : State) (p : Buf) (tq tn : Word) : (s.tag p tq tn).itf = s.itf := rfl
@[simp] theorem State.tag_itfShoup (s : State) (p : Buf) (tq tn : Word) : (s.tag p tq tn).itfShoup = s.itfShoup := rfl
@[simp] theorem State.tag_poly (s : State) (p : Buf) (tq tn : Word) : (s.tag p tq tn).poly = s.poly.set p { s.poly[p] with valid := true, tq := tq, tn := tn } := rfl
@[simp] theorem State.tag_fault (s : State) (p : Buf) (tq tn : Word) : (s.tag p tq tn).fault = s.fault := rfl
@[simp] theorem State.tag_cause (s : State) (p : Buf) (tq tn : Word) : (s.tag p tq tn).cause = s.cause := rfl
@[simp] theorem State.tag_faultcmd (s : State) (p : Buf) (tq tn : Word) : (s.tag p tq tn).faultcmd = s.faultcmd := rfl
@[simp] theorem State.tag_pc (s : State) (p : Buf) (tq tn : Word) : (s.tag p tq tn).pc = s.pc := rfl
@[simp] theorem State.tag_inbox (s : State) (p : Buf) (tq tn : Word) : (s.tag p tq tn).inbox = s.inbox := rfl
@[simp] theorem State.tag_cmd (s : State) (p : Buf) (tq tn : Word) : (s.tag p tq tn).cmd = s.cmd := rfl
@[simp] theorem State.tag_outbox (s : State) (p : Buf) (tq tn : Word) : (s.tag p tq tn).outbox = s.outbox := rfl
@[simp] theorem State.tag_oracle (s : State) (p : Buf) (tq tn : Word) : (s.tag p tq tn).oracle = s.oracle := rfl
@[simp] theorem State.tag_free (s : State) (p : Buf) (tq tn : Word) : (s.tag p tq tn).free = s.free := rfl

/-! ## `State.presentWord` -/

@[simp] theorem State.presentWord_cfg (s : State) (w : CmdWord) : (s.presentWord w).cfg = s.cfg := rfl
@[simp] theorem State.presentWord_sreg (s : State) (w : CmdWord) : (s.presentWord w).sreg = s.sreg := rfl
@[simp] theorem State.presentWord_q (s : State) (w : CmdWord) : (s.presentWord w).q = s.q := rfl
@[simp] theorem State.presentWord_logq (s : State) (w : CmdWord) : (s.presentWord w).logq = s.logq := rfl
@[simp] theorem State.presentWord_mu (s : State) (w : CmdWord) : (s.presentWord w).mu = s.mu := rfl
@[simp] theorem State.presentWord_modvalid (s : State) (w : CmdWord) : (s.presentWord w).modvalid = s.modvalid := rfl
@[simp] theorem State.presentWord_n (s : State) (w : CmdWord) : (s.presentWord w).n = s.n := rfl
@[simp] theorem State.presentWord_logn (s : State) (w : CmdWord) : (s.presentWord w).logn = s.logn := rfl
@[simp] theorem State.presentWord_invN (s : State) (w : CmdWord) : (s.presentWord w).invN = s.invN := rfl
@[simp] theorem State.presentWord_invNShoup (s : State) (w : CmdWord) : (s.presentWord w).invNShoup = s.invNShoup := rfl
@[simp] theorem State.presentWord_ctxvalid (s : State) (w : CmdWord) : (s.presentWord w).ctxvalid = s.ctxvalid := rfl
@[simp] theorem State.presentWord_tf (s : State) (w : CmdWord) : (s.presentWord w).tf = s.tf := rfl
@[simp] theorem State.presentWord_tfShoup (s : State) (w : CmdWord) : (s.presentWord w).tfShoup = s.tfShoup := rfl
@[simp] theorem State.presentWord_itf (s : State) (w : CmdWord) : (s.presentWord w).itf = s.itf := rfl
@[simp] theorem State.presentWord_itfShoup (s : State) (w : CmdWord) : (s.presentWord w).itfShoup = s.itfShoup := rfl
@[simp] theorem State.presentWord_poly (s : State) (w : CmdWord) : (s.presentWord w).poly = s.poly := rfl
@[simp] theorem State.presentWord_fault (s : State) (w : CmdWord) : (s.presentWord w).fault = s.fault := rfl
@[simp] theorem State.presentWord_cause (s : State) (w : CmdWord) : (s.presentWord w).cause = s.cause := rfl
@[simp] theorem State.presentWord_faultcmd (s : State) (w : CmdWord) : (s.presentWord w).faultcmd = s.faultcmd := rfl
@[simp] theorem State.presentWord_pc (s : State) (w : CmdWord) : (s.presentWord w).pc = s.pc := rfl
@[simp] theorem State.presentWord_inbox (s : State) (w : CmdWord) : (s.presentWord w).inbox = .cmd w :: s.inbox := rfl
@[simp] theorem State.presentWord_cmd (s : State) (w : CmdWord) : (s.presentWord w).cmd = s.cmd := rfl
@[simp] theorem State.presentWord_outbox (s : State) (w : CmdWord) : (s.presentWord w).outbox = s.outbox := rfl
@[simp] theorem State.presentWord_oracle (s : State) (w : CmdWord) : (s.presentWord w).oracle = s.oracle := rfl
@[simp] theorem State.presentWord_free (s : State) (w : CmdWord) : (s.presentWord w).free = s.free := rfl

/-! ## `State.setMem` -/

@[simp] theorem State.setMem_cfg (s : State) (m : Space) (c : Mem) : (s.setMem m c).cfg = s.cfg := by cases m <;> rfl
@[simp] theorem State.setMem_sreg (s : State) (m : Space) (c : Mem) : (s.setMem m c).sreg = s.sreg := by cases m <;> rfl
@[simp] theorem State.setMem_q (s : State) (m : Space) (c : Mem) : (s.setMem m c).q = s.q := by cases m <;> rfl
@[simp] theorem State.setMem_logq (s : State) (m : Space) (c : Mem) : (s.setMem m c).logq = s.logq := by cases m <;> rfl
@[simp] theorem State.setMem_mu (s : State) (m : Space) (c : Mem) : (s.setMem m c).mu = s.mu := by cases m <;> rfl
@[simp] theorem State.setMem_modvalid (s : State) (m : Space) (c : Mem) : (s.setMem m c).modvalid = s.modvalid := by cases m <;> rfl
@[simp] theorem State.setMem_n (s : State) (m : Space) (c : Mem) : (s.setMem m c).n = s.n := by cases m <;> rfl
@[simp] theorem State.setMem_logn (s : State) (m : Space) (c : Mem) : (s.setMem m c).logn = s.logn := by cases m <;> rfl
@[simp] theorem State.setMem_invN (s : State) (m : Space) (c : Mem) : (s.setMem m c).invN = s.invN := by cases m <;> rfl
@[simp] theorem State.setMem_invNShoup (s : State) (m : Space) (c : Mem) : (s.setMem m c).invNShoup = s.invNShoup := by cases m <;> rfl
@[simp] theorem State.setMem_ctxvalid (s : State) (m : Space) (c : Mem) : (s.setMem m c).ctxvalid = s.ctxvalid := by cases m <;> rfl
@[simp] theorem State.setMem_fault (s : State) (m : Space) (c : Mem) : (s.setMem m c).fault = s.fault := by cases m <;> rfl
@[simp] theorem State.setMem_cause (s : State) (m : Space) (c : Mem) : (s.setMem m c).cause = s.cause := by cases m <;> rfl
@[simp] theorem State.setMem_faultcmd (s : State) (m : Space) (c : Mem) : (s.setMem m c).faultcmd = s.faultcmd := by cases m <;> rfl
@[simp] theorem State.setMem_pc (s : State) (m : Space) (c : Mem) : (s.setMem m c).pc = s.pc := by cases m <;> rfl
@[simp] theorem State.setMem_inbox (s : State) (m : Space) (c : Mem) : (s.setMem m c).inbox = s.inbox := by cases m <;> rfl
@[simp] theorem State.setMem_cmd (s : State) (m : Space) (c : Mem) : (s.setMem m c).cmd = s.cmd := by cases m <;> rfl
@[simp] theorem State.setMem_outbox (s : State) (m : Space) (c : Mem) : (s.setMem m c).outbox = s.outbox := by cases m <;> rfl
@[simp] theorem State.setMem_oracle (s : State) (m : Space) (c : Mem) : (s.setMem m c).oracle = s.oracle := by cases m <;> rfl
@[simp] theorem State.setMem_free (s : State) (m : Space) (c : Mem) : (s.setMem m c).free = s.free := by cases m <;> rfl

/-! ## `State.memWrite` -/

@[simp] theorem State.memWrite_cfg (s : State) (m : Space) (i : Nat) (v : Word) : (s.memWrite m i v).cfg = s.cfg := by simp [State.memWrite]
@[simp] theorem State.memWrite_sreg (s : State) (m : Space) (i : Nat) (v : Word) : (s.memWrite m i v).sreg = s.sreg := by simp [State.memWrite]
@[simp] theorem State.memWrite_q (s : State) (m : Space) (i : Nat) (v : Word) : (s.memWrite m i v).q = s.q := by simp [State.memWrite]
@[simp] theorem State.memWrite_logq (s : State) (m : Space) (i : Nat) (v : Word) : (s.memWrite m i v).logq = s.logq := by simp [State.memWrite]
@[simp] theorem State.memWrite_mu (s : State) (m : Space) (i : Nat) (v : Word) : (s.memWrite m i v).mu = s.mu := by simp [State.memWrite]
@[simp] theorem State.memWrite_modvalid (s : State) (m : Space) (i : Nat) (v : Word) : (s.memWrite m i v).modvalid = s.modvalid := by simp [State.memWrite]
@[simp] theorem State.memWrite_n (s : State) (m : Space) (i : Nat) (v : Word) : (s.memWrite m i v).n = s.n := by simp [State.memWrite]
@[simp] theorem State.memWrite_logn (s : State) (m : Space) (i : Nat) (v : Word) : (s.memWrite m i v).logn = s.logn := by simp [State.memWrite]
@[simp] theorem State.memWrite_invN (s : State) (m : Space) (i : Nat) (v : Word) : (s.memWrite m i v).invN = s.invN := by simp [State.memWrite]
@[simp] theorem State.memWrite_invNShoup (s : State) (m : Space) (i : Nat) (v : Word) : (s.memWrite m i v).invNShoup = s.invNShoup := by simp [State.memWrite]
@[simp] theorem State.memWrite_ctxvalid (s : State) (m : Space) (i : Nat) (v : Word) : (s.memWrite m i v).ctxvalid = s.ctxvalid := by simp [State.memWrite]
@[simp] theorem State.memWrite_fault (s : State) (m : Space) (i : Nat) (v : Word) : (s.memWrite m i v).fault = s.fault := by simp [State.memWrite]
@[simp] theorem State.memWrite_cause (s : State) (m : Space) (i : Nat) (v : Word) : (s.memWrite m i v).cause = s.cause := by simp [State.memWrite]
@[simp] theorem State.memWrite_faultcmd (s : State) (m : Space) (i : Nat) (v : Word) : (s.memWrite m i v).faultcmd = s.faultcmd := by simp [State.memWrite]
@[simp] theorem State.memWrite_pc (s : State) (m : Space) (i : Nat) (v : Word) : (s.memWrite m i v).pc = s.pc := by simp [State.memWrite]
@[simp] theorem State.memWrite_inbox (s : State) (m : Space) (i : Nat) (v : Word) : (s.memWrite m i v).inbox = s.inbox := by simp [State.memWrite]
@[simp] theorem State.memWrite_cmd (s : State) (m : Space) (i : Nat) (v : Word) : (s.memWrite m i v).cmd = s.cmd := by simp [State.memWrite]
@[simp] theorem State.memWrite_outbox (s : State) (m : Space) (i : Nat) (v : Word) : (s.memWrite m i v).outbox = s.outbox := by simp [State.memWrite]
@[simp] theorem State.memWrite_oracle (s : State) (m : Space) (i : Nat) (v : Word) : (s.memWrite m i v).oracle = s.oracle := by simp [State.memWrite]
@[simp] theorem State.memWrite_free (s : State) (m : Space) (i : Nat) (v : Word) : (s.memWrite m i v).free = s.free := by simp [State.memWrite]

/-! ## `State.store` -/

@[simp] theorem State.store_cfg (s : State) (m : Space) (ws : List Word) : (s.store m ws).cfg = s.cfg := by simp [State.store]
@[simp] theorem State.store_sreg (s : State) (m : Space) (ws : List Word) : (s.store m ws).sreg = s.sreg := by simp [State.store]
@[simp] theorem State.store_q (s : State) (m : Space) (ws : List Word) : (s.store m ws).q = s.q := by simp [State.store]
@[simp] theorem State.store_logq (s : State) (m : Space) (ws : List Word) : (s.store m ws).logq = s.logq := by simp [State.store]
@[simp] theorem State.store_mu (s : State) (m : Space) (ws : List Word) : (s.store m ws).mu = s.mu := by simp [State.store]
@[simp] theorem State.store_modvalid (s : State) (m : Space) (ws : List Word) : (s.store m ws).modvalid = s.modvalid := by simp [State.store]
@[simp] theorem State.store_n (s : State) (m : Space) (ws : List Word) : (s.store m ws).n = s.n := by simp [State.store]
@[simp] theorem State.store_logn (s : State) (m : Space) (ws : List Word) : (s.store m ws).logn = s.logn := by simp [State.store]
@[simp] theorem State.store_invN (s : State) (m : Space) (ws : List Word) : (s.store m ws).invN = s.invN := by simp [State.store]
@[simp] theorem State.store_invNShoup (s : State) (m : Space) (ws : List Word) : (s.store m ws).invNShoup = s.invNShoup := by simp [State.store]
@[simp] theorem State.store_ctxvalid (s : State) (m : Space) (ws : List Word) : (s.store m ws).ctxvalid = s.ctxvalid := by simp [State.store]
@[simp] theorem State.store_fault (s : State) (m : Space) (ws : List Word) : (s.store m ws).fault = s.fault := by simp [State.store]
@[simp] theorem State.store_cause (s : State) (m : Space) (ws : List Word) : (s.store m ws).cause = s.cause := by simp [State.store]
@[simp] theorem State.store_faultcmd (s : State) (m : Space) (ws : List Word) : (s.store m ws).faultcmd = s.faultcmd := by simp [State.store]
@[simp] theorem State.store_pc (s : State) (m : Space) (ws : List Word) : (s.store m ws).pc = s.pc := by simp [State.store]
@[simp] theorem State.store_inbox (s : State) (m : Space) (ws : List Word) : (s.store m ws).inbox = s.inbox := by simp [State.store]
@[simp] theorem State.store_cmd (s : State) (m : Space) (ws : List Word) : (s.store m ws).cmd = s.cmd := by simp [State.store]
@[simp] theorem State.store_outbox (s : State) (m : Space) (ws : List Word) : (s.store m ws).outbox = s.outbox := by simp [State.store]
@[simp] theorem State.store_oracle (s : State) (m : Space) (ws : List Word) : (s.store m ws).oracle = s.oracle := by simp [State.store]
@[simp] theorem State.store_free (s : State) (m : Space) (ws : List Word) : (s.store m ws).free = s.free := by simp [State.store]

/-! ## `State.storeVals` -/

@[simp] theorem State.storeVals_cfg (s : State) (m : Space) (vs : List Val) : (s.storeVals m vs).cfg = s.cfg := by simp [State.storeVals]
@[simp] theorem State.storeVals_sreg (s : State) (m : Space) (vs : List Val) : (s.storeVals m vs).sreg = s.sreg := by simp [State.storeVals]
@[simp] theorem State.storeVals_q (s : State) (m : Space) (vs : List Val) : (s.storeVals m vs).q = s.q := by simp [State.storeVals]
@[simp] theorem State.storeVals_logq (s : State) (m : Space) (vs : List Val) : (s.storeVals m vs).logq = s.logq := by simp [State.storeVals]
@[simp] theorem State.storeVals_mu (s : State) (m : Space) (vs : List Val) : (s.storeVals m vs).mu = s.mu := by simp [State.storeVals]
@[simp] theorem State.storeVals_modvalid (s : State) (m : Space) (vs : List Val) : (s.storeVals m vs).modvalid = s.modvalid := by simp [State.storeVals]
@[simp] theorem State.storeVals_n (s : State) (m : Space) (vs : List Val) : (s.storeVals m vs).n = s.n := by simp [State.storeVals]
@[simp] theorem State.storeVals_logn (s : State) (m : Space) (vs : List Val) : (s.storeVals m vs).logn = s.logn := by simp [State.storeVals]
@[simp] theorem State.storeVals_invN (s : State) (m : Space) (vs : List Val) : (s.storeVals m vs).invN = s.invN := by simp [State.storeVals]
@[simp] theorem State.storeVals_invNShoup (s : State) (m : Space) (vs : List Val) : (s.storeVals m vs).invNShoup = s.invNShoup := by simp [State.storeVals]
@[simp] theorem State.storeVals_ctxvalid (s : State) (m : Space) (vs : List Val) : (s.storeVals m vs).ctxvalid = s.ctxvalid := by simp [State.storeVals]
@[simp] theorem State.storeVals_fault (s : State) (m : Space) (vs : List Val) : (s.storeVals m vs).fault = s.fault := by simp [State.storeVals]
@[simp] theorem State.storeVals_cause (s : State) (m : Space) (vs : List Val) : (s.storeVals m vs).cause = s.cause := by simp [State.storeVals]
@[simp] theorem State.storeVals_faultcmd (s : State) (m : Space) (vs : List Val) : (s.storeVals m vs).faultcmd = s.faultcmd := by simp [State.storeVals]
@[simp] theorem State.storeVals_pc (s : State) (m : Space) (vs : List Val) : (s.storeVals m vs).pc = s.pc := by simp [State.storeVals]
@[simp] theorem State.storeVals_inbox (s : State) (m : Space) (vs : List Val) : (s.storeVals m vs).inbox = s.inbox := by simp [State.storeVals]
@[simp] theorem State.storeVals_cmd (s : State) (m : Space) (vs : List Val) : (s.storeVals m vs).cmd = s.cmd := by simp [State.storeVals]
@[simp] theorem State.storeVals_outbox (s : State) (m : Space) (vs : List Val) : (s.storeVals m vs).outbox = s.outbox := by simp [State.storeVals]
@[simp] theorem State.storeVals_oracle (s : State) (m : Space) (vs : List Val) : (s.storeVals m vs).oracle = s.oracle := by simp [State.storeVals]
@[simp] theorem State.storeVals_free (s : State) (m : Space) (vs : List Val) : (s.storeVals m vs).free = (resolve s.free vs).2 := by simp [State.storeVals]

/-! ## `State.putPoly` -/

@[simp] theorem State.putPoly_cfg (s : State) (p : Buf) (ws : List Word) : (s.putPoly p ws).cfg = s.cfg := by simp [State.putPoly, State.store, State.setMem]
@[simp] theorem State.putPoly_sreg (s : State) (p : Buf) (ws : List Word) : (s.putPoly p ws).sreg = s.sreg := by simp [State.putPoly, State.store, State.setMem]
@[simp] theorem State.putPoly_q (s : State) (p : Buf) (ws : List Word) : (s.putPoly p ws).q = s.q := by simp [State.putPoly, State.store, State.setMem]
@[simp] theorem State.putPoly_logq (s : State) (p : Buf) (ws : List Word) : (s.putPoly p ws).logq = s.logq := by simp [State.putPoly, State.store, State.setMem]
@[simp] theorem State.putPoly_mu (s : State) (p : Buf) (ws : List Word) : (s.putPoly p ws).mu = s.mu := by simp [State.putPoly, State.store, State.setMem]
@[simp] theorem State.putPoly_modvalid (s : State) (p : Buf) (ws : List Word) : (s.putPoly p ws).modvalid = s.modvalid := by simp [State.putPoly, State.store, State.setMem]
@[simp] theorem State.putPoly_n (s : State) (p : Buf) (ws : List Word) : (s.putPoly p ws).n = s.n := by simp [State.putPoly, State.store, State.setMem]
@[simp] theorem State.putPoly_logn (s : State) (p : Buf) (ws : List Word) : (s.putPoly p ws).logn = s.logn := by simp [State.putPoly, State.store, State.setMem]
@[simp] theorem State.putPoly_invN (s : State) (p : Buf) (ws : List Word) : (s.putPoly p ws).invN = s.invN := by simp [State.putPoly, State.store, State.setMem]
@[simp] theorem State.putPoly_invNShoup (s : State) (p : Buf) (ws : List Word) : (s.putPoly p ws).invNShoup = s.invNShoup := by simp [State.putPoly, State.store, State.setMem]
@[simp] theorem State.putPoly_ctxvalid (s : State) (p : Buf) (ws : List Word) : (s.putPoly p ws).ctxvalid = s.ctxvalid := by simp [State.putPoly, State.store, State.setMem]
@[simp] theorem State.putPoly_tf (s : State) (p : Buf) (ws : List Word) : (s.putPoly p ws).tf = s.tf := by simp [State.putPoly, State.store, State.setMem]
@[simp] theorem State.putPoly_tfShoup (s : State) (p : Buf) (ws : List Word) : (s.putPoly p ws).tfShoup = s.tfShoup := by simp [State.putPoly, State.store, State.setMem]
@[simp] theorem State.putPoly_itf (s : State) (p : Buf) (ws : List Word) : (s.putPoly p ws).itf = s.itf := by simp [State.putPoly, State.store, State.setMem]
@[simp] theorem State.putPoly_itfShoup (s : State) (p : Buf) (ws : List Word) : (s.putPoly p ws).itfShoup = s.itfShoup := by simp [State.putPoly, State.store, State.setMem]
@[simp] theorem State.putPoly_fault (s : State) (p : Buf) (ws : List Word) : (s.putPoly p ws).fault = s.fault := by simp [State.putPoly, State.store, State.setMem]
@[simp] theorem State.putPoly_cause (s : State) (p : Buf) (ws : List Word) : (s.putPoly p ws).cause = s.cause := by simp [State.putPoly, State.store, State.setMem]
@[simp] theorem State.putPoly_faultcmd (s : State) (p : Buf) (ws : List Word) : (s.putPoly p ws).faultcmd = s.faultcmd := by simp [State.putPoly, State.store, State.setMem]
@[simp] theorem State.putPoly_pc (s : State) (p : Buf) (ws : List Word) : (s.putPoly p ws).pc = s.pc := by simp [State.putPoly, State.store, State.setMem]
@[simp] theorem State.putPoly_inbox (s : State) (p : Buf) (ws : List Word) : (s.putPoly p ws).inbox = s.inbox := by simp [State.putPoly, State.store, State.setMem]
@[simp] theorem State.putPoly_cmd (s : State) (p : Buf) (ws : List Word) : (s.putPoly p ws).cmd = s.cmd := by simp [State.putPoly, State.store, State.setMem]
@[simp] theorem State.putPoly_outbox (s : State) (p : Buf) (ws : List Word) : (s.putPoly p ws).outbox = s.outbox := by simp [State.putPoly, State.store, State.setMem]
@[simp] theorem State.putPoly_oracle (s : State) (p : Buf) (ws : List Word) : (s.putPoly p ws).oracle = s.oracle := by simp [State.putPoly, State.store, State.setMem]
@[simp] theorem State.putPoly_free (s : State) (p : Buf) (ws : List Word) : (s.putPoly p ws).free = s.free := by simp [State.putPoly, State.store, State.setMem]

/-! ## `State.putPolyVals` -/

@[simp] theorem State.putPolyVals_cfg (s : State) (p : Buf) (vs : List Val) : (s.putPolyVals p vs).cfg = s.cfg := by simp [State.putPolyVals, State.storeVals, State.store, State.setMem]
@[simp] theorem State.putPolyVals_sreg (s : State) (p : Buf) (vs : List Val) : (s.putPolyVals p vs).sreg = s.sreg := by simp [State.putPolyVals, State.storeVals, State.store, State.setMem]
@[simp] theorem State.putPolyVals_q (s : State) (p : Buf) (vs : List Val) : (s.putPolyVals p vs).q = s.q := by simp [State.putPolyVals, State.storeVals, State.store, State.setMem]
@[simp] theorem State.putPolyVals_logq (s : State) (p : Buf) (vs : List Val) : (s.putPolyVals p vs).logq = s.logq := by simp [State.putPolyVals, State.storeVals, State.store, State.setMem]
@[simp] theorem State.putPolyVals_mu (s : State) (p : Buf) (vs : List Val) : (s.putPolyVals p vs).mu = s.mu := by simp [State.putPolyVals, State.storeVals, State.store, State.setMem]
@[simp] theorem State.putPolyVals_modvalid (s : State) (p : Buf) (vs : List Val) : (s.putPolyVals p vs).modvalid = s.modvalid := by simp [State.putPolyVals, State.storeVals, State.store, State.setMem]
@[simp] theorem State.putPolyVals_n (s : State) (p : Buf) (vs : List Val) : (s.putPolyVals p vs).n = s.n := by simp [State.putPolyVals, State.storeVals, State.store, State.setMem]
@[simp] theorem State.putPolyVals_logn (s : State) (p : Buf) (vs : List Val) : (s.putPolyVals p vs).logn = s.logn := by simp [State.putPolyVals, State.storeVals, State.store, State.setMem]
@[simp] theorem State.putPolyVals_invN (s : State) (p : Buf) (vs : List Val) : (s.putPolyVals p vs).invN = s.invN := by simp [State.putPolyVals, State.storeVals, State.store, State.setMem]
@[simp] theorem State.putPolyVals_invNShoup (s : State) (p : Buf) (vs : List Val) : (s.putPolyVals p vs).invNShoup = s.invNShoup := by simp [State.putPolyVals, State.storeVals, State.store, State.setMem]
@[simp] theorem State.putPolyVals_ctxvalid (s : State) (p : Buf) (vs : List Val) : (s.putPolyVals p vs).ctxvalid = s.ctxvalid := by simp [State.putPolyVals, State.storeVals, State.store, State.setMem]
@[simp] theorem State.putPolyVals_tf (s : State) (p : Buf) (vs : List Val) : (s.putPolyVals p vs).tf = s.tf := by simp [State.putPolyVals, State.storeVals, State.store, State.setMem]
@[simp] theorem State.putPolyVals_tfShoup (s : State) (p : Buf) (vs : List Val) : (s.putPolyVals p vs).tfShoup = s.tfShoup := by simp [State.putPolyVals, State.storeVals, State.store, State.setMem]
@[simp] theorem State.putPolyVals_itf (s : State) (p : Buf) (vs : List Val) : (s.putPolyVals p vs).itf = s.itf := by simp [State.putPolyVals, State.storeVals, State.store, State.setMem]
@[simp] theorem State.putPolyVals_itfShoup (s : State) (p : Buf) (vs : List Val) : (s.putPolyVals p vs).itfShoup = s.itfShoup := by simp [State.putPolyVals, State.storeVals, State.store, State.setMem]
@[simp] theorem State.putPolyVals_fault (s : State) (p : Buf) (vs : List Val) : (s.putPolyVals p vs).fault = s.fault := by simp [State.putPolyVals, State.storeVals, State.store, State.setMem]
@[simp] theorem State.putPolyVals_cause (s : State) (p : Buf) (vs : List Val) : (s.putPolyVals p vs).cause = s.cause := by simp [State.putPolyVals, State.storeVals, State.store, State.setMem]
@[simp] theorem State.putPolyVals_faultcmd (s : State) (p : Buf) (vs : List Val) : (s.putPolyVals p vs).faultcmd = s.faultcmd := by simp [State.putPolyVals, State.storeVals, State.store, State.setMem]
@[simp] theorem State.putPolyVals_pc (s : State) (p : Buf) (vs : List Val) : (s.putPolyVals p vs).pc = s.pc := by simp [State.putPolyVals, State.storeVals, State.store, State.setMem]
@[simp] theorem State.putPolyVals_inbox (s : State) (p : Buf) (vs : List Val) : (s.putPolyVals p vs).inbox = s.inbox := by simp [State.putPolyVals, State.storeVals, State.store, State.setMem]
@[simp] theorem State.putPolyVals_cmd (s : State) (p : Buf) (vs : List Val) : (s.putPolyVals p vs).cmd = s.cmd := by simp [State.putPolyVals, State.storeVals, State.store, State.setMem]
@[simp] theorem State.putPolyVals_outbox (s : State) (p : Buf) (vs : List Val) : (s.putPolyVals p vs).outbox = s.outbox := by simp [State.putPolyVals, State.storeVals, State.store, State.setMem]
@[simp] theorem State.putPolyVals_oracle (s : State) (p : Buf) (vs : List Val) : (s.putPolyVals p vs).oracle = s.oracle := by simp [State.putPolyVals, State.storeVals, State.store, State.setMem]
@[simp] theorem State.putPolyVals_free (s : State) (p : Buf) (vs : List Val) : (s.putPolyVals p vs).free = (resolve s.free vs).2 := by simp [State.putPolyVals, State.storeVals, State.store, State.setMem]

/-! ## `State.setVal` -/

@[simp] theorem State.setVal_cfg (s : State) (i : Fin 16) (v : Val) : (s.setVal i v).cfg = s.cfg := by cases v <;> rfl
@[simp] theorem State.setVal_q (s : State) (i : Fin 16) (v : Val) : (s.setVal i v).q = s.q := by cases v <;> rfl
@[simp] theorem State.setVal_logq (s : State) (i : Fin 16) (v : Val) : (s.setVal i v).logq = s.logq := by cases v <;> rfl
@[simp] theorem State.setVal_mu (s : State) (i : Fin 16) (v : Val) : (s.setVal i v).mu = s.mu := by cases v <;> rfl
@[simp] theorem State.setVal_modvalid (s : State) (i : Fin 16) (v : Val) : (s.setVal i v).modvalid = s.modvalid := by cases v <;> rfl
@[simp] theorem State.setVal_n (s : State) (i : Fin 16) (v : Val) : (s.setVal i v).n = s.n := by cases v <;> rfl
@[simp] theorem State.setVal_logn (s : State) (i : Fin 16) (v : Val) : (s.setVal i v).logn = s.logn := by cases v <;> rfl
@[simp] theorem State.setVal_invN (s : State) (i : Fin 16) (v : Val) : (s.setVal i v).invN = s.invN := by cases v <;> rfl
@[simp] theorem State.setVal_invNShoup (s : State) (i : Fin 16) (v : Val) : (s.setVal i v).invNShoup = s.invNShoup := by cases v <;> rfl
@[simp] theorem State.setVal_ctxvalid (s : State) (i : Fin 16) (v : Val) : (s.setVal i v).ctxvalid = s.ctxvalid := by cases v <;> rfl
@[simp] theorem State.setVal_tf (s : State) (i : Fin 16) (v : Val) : (s.setVal i v).tf = s.tf := by cases v <;> rfl
@[simp] theorem State.setVal_tfShoup (s : State) (i : Fin 16) (v : Val) : (s.setVal i v).tfShoup = s.tfShoup := by cases v <;> rfl
@[simp] theorem State.setVal_itf (s : State) (i : Fin 16) (v : Val) : (s.setVal i v).itf = s.itf := by cases v <;> rfl
@[simp] theorem State.setVal_itfShoup (s : State) (i : Fin 16) (v : Val) : (s.setVal i v).itfShoup = s.itfShoup := by cases v <;> rfl
@[simp] theorem State.setVal_poly (s : State) (i : Fin 16) (v : Val) : (s.setVal i v).poly = s.poly := by cases v <;> rfl
@[simp] theorem State.setVal_fault (s : State) (i : Fin 16) (v : Val) : (s.setVal i v).fault = s.fault := by cases v <;> rfl
@[simp] theorem State.setVal_cause (s : State) (i : Fin 16) (v : Val) : (s.setVal i v).cause = s.cause := by cases v <;> rfl
@[simp] theorem State.setVal_faultcmd (s : State) (i : Fin 16) (v : Val) : (s.setVal i v).faultcmd = s.faultcmd := by cases v <;> rfl
@[simp] theorem State.setVal_pc (s : State) (i : Fin 16) (v : Val) : (s.setVal i v).pc = s.pc := by cases v <;> rfl
@[simp] theorem State.setVal_inbox (s : State) (i : Fin 16) (v : Val) : (s.setVal i v).inbox = s.inbox := by cases v <;> rfl
@[simp] theorem State.setVal_cmd (s : State) (i : Fin 16) (v : Val) : (s.setVal i v).cmd = s.cmd := by cases v <;> rfl
@[simp] theorem State.setVal_outbox (s : State) (i : Fin 16) (v : Val) : (s.setVal i v).outbox = s.outbox := by cases v <;> rfl
@[simp] theorem State.setVal_oracle (s : State) (i : Fin 16) (v : Val) : (s.setVal i v).oracle = s.oracle := by cases v <;> rfl

/-! ## `State.afterScan` -/

@[simp] theorem State.afterScan_cfg (s : State) (r : Scan) : (s.afterScan r).cfg = s.cfg := by cases r <;> rfl
@[simp] theorem State.afterScan_sreg (s : State) (r : Scan) : (s.afterScan r).sreg = s.sreg := by cases r <;> rfl
@[simp] theorem State.afterScan_q (s : State) (r : Scan) : (s.afterScan r).q = s.q := by cases r <;> rfl
@[simp] theorem State.afterScan_logq (s : State) (r : Scan) : (s.afterScan r).logq = s.logq := by cases r <;> rfl
@[simp] theorem State.afterScan_mu (s : State) (r : Scan) : (s.afterScan r).mu = s.mu := by cases r <;> rfl
@[simp] theorem State.afterScan_modvalid (s : State) (r : Scan) : (s.afterScan r).modvalid = s.modvalid := by cases r <;> rfl
@[simp] theorem State.afterScan_n (s : State) (r : Scan) : (s.afterScan r).n = s.n := by cases r <;> rfl
@[simp] theorem State.afterScan_logn (s : State) (r : Scan) : (s.afterScan r).logn = s.logn := by cases r <;> rfl
@[simp] theorem State.afterScan_invN (s : State) (r : Scan) : (s.afterScan r).invN = s.invN := by cases r <;> rfl
@[simp] theorem State.afterScan_invNShoup (s : State) (r : Scan) : (s.afterScan r).invNShoup = s.invNShoup := by cases r <;> rfl
@[simp] theorem State.afterScan_ctxvalid (s : State) (r : Scan) : (s.afterScan r).ctxvalid = s.ctxvalid := by cases r <;> rfl
@[simp] theorem State.afterScan_tf (s : State) (r : Scan) : (s.afterScan r).tf = s.tf := by cases r <;> rfl
@[simp] theorem State.afterScan_tfShoup (s : State) (r : Scan) : (s.afterScan r).tfShoup = s.tfShoup := by cases r <;> rfl
@[simp] theorem State.afterScan_itf (s : State) (r : Scan) : (s.afterScan r).itf = s.itf := by cases r <;> rfl
@[simp] theorem State.afterScan_itfShoup (s : State) (r : Scan) : (s.afterScan r).itfShoup = s.itfShoup := by cases r <;> rfl
@[simp] theorem State.afterScan_poly (s : State) (r : Scan) : (s.afterScan r).poly = s.poly := by cases r <;> rfl
@[simp] theorem State.afterScan_fault (s : State) (r : Scan) : (s.afterScan r).fault = s.fault := by cases r <;> rfl
@[simp] theorem State.afterScan_cause (s : State) (r : Scan) : (s.afterScan r).cause = s.cause := by cases r <;> rfl
@[simp] theorem State.afterScan_faultcmd (s : State) (r : Scan) : (s.afterScan r).faultcmd = s.faultcmd := by cases r <;> rfl
@[simp] theorem State.afterScan_pc (s : State) (r : Scan) : (s.afterScan r).pc = s.pc := by cases r <;> rfl
@[simp] theorem State.afterScan_inbox (s : State) (r : Scan) : (s.afterScan r).inbox = s.inbox := by cases r <;> rfl
@[simp] theorem State.afterScan_cmd (s : State) (r : Scan) : (s.afterScan r).cmd = s.cmd := by cases r <;> rfl
@[simp] theorem State.afterScan_outbox (s : State) (r : Scan) : (s.afterScan r).outbox = s.outbox := by cases r <;> rfl
@[simp] theorem State.afterScan_oracle (s : State) (r : Scan) : (s.afterScan r).oracle = s.oracle := by cases r <;> rfl

/-! ## `State.setInvN` -/

@[simp] theorem State.setInvN_cfg (s : State) (v w : Val) : (s.setInvN v w).cfg = s.cfg := rfl
@[simp] theorem State.setInvN_sreg (s : State) (v w : Val) : (s.setInvN v w).sreg = s.sreg := rfl
@[simp] theorem State.setInvN_q (s : State) (v w : Val) : (s.setInvN v w).q = s.q := rfl
@[simp] theorem State.setInvN_logq (s : State) (v w : Val) : (s.setInvN v w).logq = s.logq := rfl
@[simp] theorem State.setInvN_mu (s : State) (v w : Val) : (s.setInvN v w).mu = s.mu := rfl
@[simp] theorem State.setInvN_modvalid (s : State) (v w : Val) : (s.setInvN v w).modvalid = s.modvalid := rfl
@[simp] theorem State.setInvN_n (s : State) (v w : Val) : (s.setInvN v w).n = s.n := rfl
@[simp] theorem State.setInvN_logn (s : State) (v w : Val) : (s.setInvN v w).logn = s.logn := rfl
@[simp] theorem State.setInvN_invN (s : State) (v w : Val) : (s.setInvN v w).invN = (takeVal s.free v).1 := rfl
@[simp] theorem State.setInvN_invNShoup (s : State) (v w : Val) : (s.setInvN v w).invNShoup = (takeVal (takeVal s.free v).2 w).1 := rfl
@[simp] theorem State.setInvN_ctxvalid (s : State) (v w : Val) : (s.setInvN v w).ctxvalid = s.ctxvalid := rfl
@[simp] theorem State.setInvN_tf (s : State) (v w : Val) : (s.setInvN v w).tf = s.tf := rfl
@[simp] theorem State.setInvN_tfShoup (s : State) (v w : Val) : (s.setInvN v w).tfShoup = s.tfShoup := rfl
@[simp] theorem State.setInvN_itf (s : State) (v w : Val) : (s.setInvN v w).itf = s.itf := rfl
@[simp] theorem State.setInvN_itfShoup (s : State) (v w : Val) : (s.setInvN v w).itfShoup = s.itfShoup := rfl
@[simp] theorem State.setInvN_poly (s : State) (v w : Val) : (s.setInvN v w).poly = s.poly := rfl
@[simp] theorem State.setInvN_fault (s : State) (v w : Val) : (s.setInvN v w).fault = s.fault := rfl
@[simp] theorem State.setInvN_cause (s : State) (v w : Val) : (s.setInvN v w).cause = s.cause := rfl
@[simp] theorem State.setInvN_faultcmd (s : State) (v w : Val) : (s.setInvN v w).faultcmd = s.faultcmd := rfl
@[simp] theorem State.setInvN_pc (s : State) (v w : Val) : (s.setInvN v w).pc = s.pc := rfl
@[simp] theorem State.setInvN_inbox (s : State) (v w : Val) : (s.setInvN v w).inbox = s.inbox := rfl
@[simp] theorem State.setInvN_cmd (s : State) (v w : Val) : (s.setInvN v w).cmd = s.cmd := rfl
@[simp] theorem State.setInvN_outbox (s : State) (v w : Val) : (s.setInvN v w).outbox = s.outbox := rfl
@[simp] theorem State.setInvN_oracle (s : State) (v w : Val) : (s.setInvN v w).oracle = s.oracle := rfl
@[simp] theorem State.setInvN_free (s : State) (v w : Val) : (s.setInvN v w).free = (takeVal (takeVal s.free v).2 w).2 := rfl

/-! ## `State.setTables` -/

@[simp] theorem State.setTables_cfg (s : State) (t : Tables) : (s.setTables t).cfg = s.cfg := by simp [State.setTables, State.storeVals, State.store, State.setMem]
@[simp] theorem State.setTables_sreg (s : State) (t : Tables) : (s.setTables t).sreg = s.sreg := by simp [State.setTables, State.storeVals, State.store, State.setMem]
@[simp] theorem State.setTables_q (s : State) (t : Tables) : (s.setTables t).q = s.q := by simp [State.setTables, State.storeVals, State.store, State.setMem]
@[simp] theorem State.setTables_logq (s : State) (t : Tables) : (s.setTables t).logq = s.logq := by simp [State.setTables, State.storeVals, State.store, State.setMem]
@[simp] theorem State.setTables_mu (s : State) (t : Tables) : (s.setTables t).mu = s.mu := by simp [State.setTables, State.storeVals, State.store, State.setMem]
@[simp] theorem State.setTables_modvalid (s : State) (t : Tables) : (s.setTables t).modvalid = s.modvalid := by simp [State.setTables, State.storeVals, State.store, State.setMem]
@[simp] theorem State.setTables_n (s : State) (t : Tables) : (s.setTables t).n = s.n := by simp [State.setTables, State.storeVals, State.store, State.setMem]
@[simp] theorem State.setTables_logn (s : State) (t : Tables) : (s.setTables t).logn = s.logn := by simp [State.setTables, State.storeVals, State.store, State.setMem]
@[simp] theorem State.setTables_ctxvalid (s : State) (t : Tables) : (s.setTables t).ctxvalid = s.ctxvalid := by simp [State.setTables, State.storeVals, State.store, State.setMem]
@[simp] theorem State.setTables_poly (s : State) (t : Tables) : (s.setTables t).poly = s.poly := by simp [State.setTables, State.storeVals, State.store, State.setMem]
@[simp] theorem State.setTables_fault (s : State) (t : Tables) : (s.setTables t).fault = s.fault := by simp [State.setTables, State.storeVals, State.store, State.setMem]
@[simp] theorem State.setTables_cause (s : State) (t : Tables) : (s.setTables t).cause = s.cause := by simp [State.setTables, State.storeVals, State.store, State.setMem]
@[simp] theorem State.setTables_faultcmd (s : State) (t : Tables) : (s.setTables t).faultcmd = s.faultcmd := by simp [State.setTables, State.storeVals, State.store, State.setMem]
@[simp] theorem State.setTables_pc (s : State) (t : Tables) : (s.setTables t).pc = s.pc := by simp [State.setTables, State.storeVals, State.store, State.setMem]
@[simp] theorem State.setTables_inbox (s : State) (t : Tables) : (s.setTables t).inbox = s.inbox := by simp [State.setTables, State.storeVals, State.store, State.setMem]
@[simp] theorem State.setTables_cmd (s : State) (t : Tables) : (s.setTables t).cmd = s.cmd := by simp [State.setTables, State.storeVals, State.store, State.setMem]
@[simp] theorem State.setTables_outbox (s : State) (t : Tables) : (s.setTables t).outbox = s.outbox := by simp [State.setTables, State.storeVals, State.store, State.setMem]
@[simp] theorem State.setTables_oracle (s : State) (t : Tables) : (s.setTables t).oracle = s.oracle := by simp [State.setTables, State.storeVals, State.store, State.setMem]

/-! ## `State.draw` -/

@[simp] theorem State.draw_cfg (s : State) (lo hi : Nat) : (s.draw lo hi).2.cfg = s.cfg := by unfold State.draw; split <;> (try split) <;> rfl
@[simp] theorem State.draw_sreg (s : State) (lo hi : Nat) : (s.draw lo hi).2.sreg = s.sreg := by unfold State.draw; split <;> (try split) <;> rfl
@[simp] theorem State.draw_q (s : State) (lo hi : Nat) : (s.draw lo hi).2.q = s.q := by unfold State.draw; split <;> (try split) <;> rfl
@[simp] theorem State.draw_logq (s : State) (lo hi : Nat) : (s.draw lo hi).2.logq = s.logq := by unfold State.draw; split <;> (try split) <;> rfl
@[simp] theorem State.draw_mu (s : State) (lo hi : Nat) : (s.draw lo hi).2.mu = s.mu := by unfold State.draw; split <;> (try split) <;> rfl
@[simp] theorem State.draw_modvalid (s : State) (lo hi : Nat) : (s.draw lo hi).2.modvalid = s.modvalid := by unfold State.draw; split <;> (try split) <;> rfl
@[simp] theorem State.draw_n (s : State) (lo hi : Nat) : (s.draw lo hi).2.n = s.n := by unfold State.draw; split <;> (try split) <;> rfl
@[simp] theorem State.draw_logn (s : State) (lo hi : Nat) : (s.draw lo hi).2.logn = s.logn := by unfold State.draw; split <;> (try split) <;> rfl
@[simp] theorem State.draw_invN (s : State) (lo hi : Nat) : (s.draw lo hi).2.invN = s.invN := by unfold State.draw; split <;> (try split) <;> rfl
@[simp] theorem State.draw_invNShoup (s : State) (lo hi : Nat) : (s.draw lo hi).2.invNShoup = s.invNShoup := by unfold State.draw; split <;> (try split) <;> rfl
@[simp] theorem State.draw_ctxvalid (s : State) (lo hi : Nat) : (s.draw lo hi).2.ctxvalid = s.ctxvalid := by unfold State.draw; split <;> (try split) <;> rfl
@[simp] theorem State.draw_tf (s : State) (lo hi : Nat) : (s.draw lo hi).2.tf = s.tf := by unfold State.draw; split <;> (try split) <;> rfl
@[simp] theorem State.draw_tfShoup (s : State) (lo hi : Nat) : (s.draw lo hi).2.tfShoup = s.tfShoup := by unfold State.draw; split <;> (try split) <;> rfl
@[simp] theorem State.draw_itf (s : State) (lo hi : Nat) : (s.draw lo hi).2.itf = s.itf := by unfold State.draw; split <;> (try split) <;> rfl
@[simp] theorem State.draw_itfShoup (s : State) (lo hi : Nat) : (s.draw lo hi).2.itfShoup = s.itfShoup := by unfold State.draw; split <;> (try split) <;> rfl
@[simp] theorem State.draw_poly (s : State) (lo hi : Nat) : (s.draw lo hi).2.poly = s.poly := by unfold State.draw; split <;> (try split) <;> rfl
@[simp] theorem State.draw_fault (s : State) (lo hi : Nat) : (s.draw lo hi).2.fault = s.fault := by unfold State.draw; split <;> (try split) <;> rfl
@[simp] theorem State.draw_cause (s : State) (lo hi : Nat) : (s.draw lo hi).2.cause = s.cause := by unfold State.draw; split <;> (try split) <;> rfl
@[simp] theorem State.draw_faultcmd (s : State) (lo hi : Nat) : (s.draw lo hi).2.faultcmd = s.faultcmd := by unfold State.draw; split <;> (try split) <;> rfl
@[simp] theorem State.draw_pc (s : State) (lo hi : Nat) : (s.draw lo hi).2.pc = s.pc := by unfold State.draw; split <;> (try split) <;> rfl
@[simp] theorem State.draw_inbox (s : State) (lo hi : Nat) : (s.draw lo hi).2.inbox = s.inbox := by unfold State.draw; split <;> (try split) <;> rfl
@[simp] theorem State.draw_cmd (s : State) (lo hi : Nat) : (s.draw lo hi).2.cmd = s.cmd := by unfold State.draw; split <;> (try split) <;> rfl
@[simp] theorem State.draw_outbox (s : State) (lo hi : Nat) : (s.draw lo hi).2.outbox = s.outbox := by unfold State.draw; split <;> (try split) <;> rfl

/-! ## `State.draws` -/

@[simp] theorem State.draws_cfg (s : State) (lo hi k : Nat) : (s.draws lo hi k).2.cfg = s.cfg := by
  induction k generalizing s <;> simp_all [State.draws]
@[simp] theorem State.draws_sreg (s : State) (lo hi k : Nat) : (s.draws lo hi k).2.sreg = s.sreg := by
  induction k generalizing s <;> simp_all [State.draws]
@[simp] theorem State.draws_q (s : State) (lo hi k : Nat) : (s.draws lo hi k).2.q = s.q := by
  induction k generalizing s <;> simp_all [State.draws]
@[simp] theorem State.draws_logq (s : State) (lo hi k : Nat) : (s.draws lo hi k).2.logq = s.logq := by
  induction k generalizing s <;> simp_all [State.draws]
@[simp] theorem State.draws_mu (s : State) (lo hi k : Nat) : (s.draws lo hi k).2.mu = s.mu := by
  induction k generalizing s <;> simp_all [State.draws]
@[simp] theorem State.draws_modvalid (s : State) (lo hi k : Nat) : (s.draws lo hi k).2.modvalid = s.modvalid := by
  induction k generalizing s <;> simp_all [State.draws]
@[simp] theorem State.draws_n (s : State) (lo hi k : Nat) : (s.draws lo hi k).2.n = s.n := by
  induction k generalizing s <;> simp_all [State.draws]
@[simp] theorem State.draws_logn (s : State) (lo hi k : Nat) : (s.draws lo hi k).2.logn = s.logn := by
  induction k generalizing s <;> simp_all [State.draws]
@[simp] theorem State.draws_invN (s : State) (lo hi k : Nat) : (s.draws lo hi k).2.invN = s.invN := by
  induction k generalizing s <;> simp_all [State.draws]
@[simp] theorem State.draws_invNShoup (s : State) (lo hi k : Nat) : (s.draws lo hi k).2.invNShoup = s.invNShoup := by
  induction k generalizing s <;> simp_all [State.draws]
@[simp] theorem State.draws_ctxvalid (s : State) (lo hi k : Nat) : (s.draws lo hi k).2.ctxvalid = s.ctxvalid := by
  induction k generalizing s <;> simp_all [State.draws]
@[simp] theorem State.draws_tf (s : State) (lo hi k : Nat) : (s.draws lo hi k).2.tf = s.tf := by
  induction k generalizing s <;> simp_all [State.draws]
@[simp] theorem State.draws_tfShoup (s : State) (lo hi k : Nat) : (s.draws lo hi k).2.tfShoup = s.tfShoup := by
  induction k generalizing s <;> simp_all [State.draws]
@[simp] theorem State.draws_itf (s : State) (lo hi k : Nat) : (s.draws lo hi k).2.itf = s.itf := by
  induction k generalizing s <;> simp_all [State.draws]
@[simp] theorem State.draws_itfShoup (s : State) (lo hi k : Nat) : (s.draws lo hi k).2.itfShoup = s.itfShoup := by
  induction k generalizing s <;> simp_all [State.draws]
@[simp] theorem State.draws_poly (s : State) (lo hi k : Nat) : (s.draws lo hi k).2.poly = s.poly := by
  induction k generalizing s <;> simp_all [State.draws]
@[simp] theorem State.draws_fault (s : State) (lo hi k : Nat) : (s.draws lo hi k).2.fault = s.fault := by
  induction k generalizing s <;> simp_all [State.draws]
@[simp] theorem State.draws_cause (s : State) (lo hi k : Nat) : (s.draws lo hi k).2.cause = s.cause := by
  induction k generalizing s <;> simp_all [State.draws]
@[simp] theorem State.draws_faultcmd (s : State) (lo hi k : Nat) : (s.draws lo hi k).2.faultcmd = s.faultcmd := by
  induction k generalizing s <;> simp_all [State.draws]
@[simp] theorem State.draws_pc (s : State) (lo hi k : Nat) : (s.draws lo hi k).2.pc = s.pc := by
  induction k generalizing s <;> simp_all [State.draws]
@[simp] theorem State.draws_inbox (s : State) (lo hi k : Nat) : (s.draws lo hi k).2.inbox = s.inbox := by
  induction k generalizing s <;> simp_all [State.draws]
@[simp] theorem State.draws_cmd (s : State) (lo hi k : Nat) : (s.draws lo hi k).2.cmd = s.cmd := by
  induction k generalizing s <;> simp_all [State.draws]
@[simp] theorem State.draws_outbox (s : State) (lo hi k : Nat) : (s.draws lo hi k).2.outbox = s.outbox := by
  induction k generalizing s <;> simp_all [State.draws]

end Sys2Proof.Machine
end

