-- ==== Sys2Proof/Laws/Memory.lean ====
section
/-! SUPPORT. What a memory holds after a write, and that every memory operation keeps the canonical form. -/

namespace Sys2Proof.Machine

/-! ## Cells -/

@[simp] theorem Mem.find_nil (i : Nat) : Mem.find [] i = none := rfl

theorem Mem.find_cons (j : Nat) (w : Word) (m : Mem) (i : Nat) :
    Mem.find ((j, w) :: m) i = if i = j then some w else Mem.find m i := rfl

theorem Mem.find_write (m : Mem) (i j : Nat) (v : Word) :
    Mem.find (Mem.write m i v) j = if j = i then some v else Mem.find m j := by
  induction m with
  | nil => simp [Mem.write, Mem.find_cons]
  | cons c rest ih =>
    obtain ⟨k, w⟩ := c
    simp only [Mem.write]
    split
    · simp [Mem.find_cons]
    · split
      · subst k; simp only [Mem.find_cons]; split <;> simp_all
      · simp only [Mem.find_cons, ih]; split <;> split <;> simp_all

@[simp] theorem Mem.find_write_same (m : Mem) (i : Nat) (v : Word) : Mem.find (Mem.write m i v) i = some v := by
  simp [Mem.find_write]

theorem Mem.find_write_other (m : Mem) {i j : Nat} (v : Word) (h : j ≠ i) :
    Mem.find (Mem.write m i v) j = Mem.find m j := by
  simp [Mem.find_write, h]

/-- The words stored from i up are read back, and no other index changes. -/
theorem Mem.find_store (ws : List Word) : ∀ (m : Mem) (i j : Nat),
    Mem.find (Mem.store m i ws) j = if i ≤ j ∧ j < i + ws.length then ws[j - i]? else Mem.find m j := by
  induction ws with
  | nil => intro m i j; rw [if_neg (by simp)]; rfl
  | cons w ws ih =>
    intro m i j
    simp only [Mem.store, ih, Mem.find_write, List.length_cons]
    by_cases hj : j = i
    · subst hj; simp
    · by_cases hlt : i ≤ j ∧ j < i + (ws.length + 1)
      · have h1 : i + 1 ≤ j ∧ j < i + 1 + ws.length := by omega
        obtain ⟨k, rfl⟩ : ∃ k, j = i + 1 + k := ⟨j - (i + 1), by omega⟩
        have h2 : i + 1 + k - i = k + 1 := by omega
        simp [hlt, h1, h2]
      · have h1 : ¬ (i + 1 ≤ j ∧ j < i + 1 + ws.length) := by omega
        rw [if_neg h1, if_neg hlt, if_neg hj]

/-- A cell that is found is listed. -/
theorem Mem.mem_of_find {m : Mem} {i : Nat} {w : Word} (h : Mem.find m i = some w) : (i, w) ∈ m := by
  induction m with
  | nil => simp at h
  | cons c rest ih =>
    obtain ⟨k, v⟩ := c
    rw [Mem.find_cons] at h
    split at h
    · simp_all
    · exact List.mem_cons_of_mem _ (ih h)

theorem Mem.mem_write {m : Mem} {i : Nat} {v : Word} {c : Nat × Word} (h : c ∈ Mem.write m i v) :
    c = (i, v) ∨ c ∈ m := by
  induction m with
  | nil => simpa [Mem.write] using h
  | cons d rest ih =>
    obtain ⟨k, w⟩ := d
    simp only [Mem.write] at h
    split at h
    · simpa using h
    · split at h
      · rcases List.mem_cons.1 h with h | h
        · exact .inl h
        · exact .inr (List.mem_cons_of_mem _ h)
      · rcases List.mem_cons.1 h with h | h
        · exact .inr (by simp [h])
        · rcases ih h with h | h
          · exact .inl h
          · exact .inr (List.mem_cons_of_mem _ h)

/-- A write keeps the canonical form. -/
theorem Mem.wf_write {m : Mem} (h : m.wf) (i : Nat) (v : Word) : Mem.wf (Mem.write m i v) := by
  induction m with
  | nil => simp [Mem.write, Mem.wf]
  | cons d rest ih =>
    obtain ⟨k, w⟩ := d
    have hk := List.pairwise_cons.1 h
    simp only [Mem.write]
    split
    · refine List.pairwise_cons.2 ⟨fun c hc => ?_, h⟩
      rcases List.mem_cons.1 hc with rfl | hc
      · assumption
      · have := hk.1 c hc; simp at this ⊢; omega
    · split
      · subst k; exact List.pairwise_cons.2 ⟨hk.1, hk.2⟩
      · refine List.pairwise_cons.2 ⟨fun c hc => ?_, ih hk.2⟩
        rcases Mem.mem_write hc with rfl | hc
        · simp; omega
        · exact hk.1 c hc

/-- A store keeps the canonical form. -/
theorem Mem.wf_store (ws : List Word) : ∀ {m : Mem} (_ : m.wf) (i : Nat), Mem.wf (Mem.store m i ws) := by
  induction ws with
  | nil => intro m h i; exact h
  | cons w ws ih => intro m h i; exact ih (Mem.wf_write h i w) (i + 1)

/-- The cells after a store lie among the old ones and the indices stored to. -/
theorem Mem.mem_store (ws : List Word) : ∀ {m : Mem} {i : Nat} {c : Nat × Word}, c ∈ Mem.store m i ws →
    c.1 < i + ws.length ∨ c ∈ m := by
  induction ws with
  | nil => intro m i c h; exact .inr h
  | cons w ws ih =>
    intro m i c h
    rcases ih h with h | h
    · left; simp only [List.length_cons]; omega
    · rcases Mem.mem_write h with rfl | h
      · left; simp only [List.length_cons]; omega
      · exact .inr h

/-! ## The memories of a state -/

@[simp] theorem State.mem_setMem_same (s : State) (m : Space) (c : Mem) : (s.setMem m c).mem m = c := by
  cases m <;> simp [State.mem, State.setMem]

theorem State.mem_setMem_other (s : State) {m m' : Space} (c : Mem) (h : m' ≠ m) :
    (s.setMem m c).mem m' = s.mem m' := by
  cases m <;> cases m' <;> simp_all [State.mem, State.setMem]
  next p r => rw [Vector.getElem_set_ne]; exact fun e => h (Fin.ext e).symm

/-- The cells of every memory after one is replaced. -/
theorem State.mem_setMem (s : State) (m m' : Space) (c : Mem) :
    (s.setMem m c).mem m' = if m' = m then c else s.mem m' := by
  split
  · subst m'; simp
  · next h => exact s.mem_setMem_other c h

/-- `MemRead` after `MemWrite` (20_memory.md R62). -/
theorem State.memRead_memWrite (s : State) (m m' : Space) (i j : Nat) (v : Word) :
    (s.memWrite m i v).memRead m' j = if m' = m ∧ j = i then v else s.memRead m' j := by
  unfold State.memRead State.memWrite
  rw [State.mem_setMem]
  by_cases hm : m' = m
  · subst hm; by_cases hj : j = i
    · subst hj; simp
    · simp [Mem.find_write_other _ _ hj, hj]
  · simp [hm]

/-- `MemRead` after a store of words 0 to length − 1. -/
theorem State.memRead_store (s : State) (m m' : Space) (ws : List Word) (j : Nat) :
    (s.store m ws).memRead m' j = if h : m' = m ∧ j < ws.length then ws[j]'h.2 else s.memRead m' j := by
  unfold State.memRead State.store
  rw [State.mem_setMem]
  by_cases hm : m' = m
  · subst hm
    rw [if_pos rfl, Mem.find_store]
    by_cases hj : j < ws.length
    · simp [hj]
    · simp [hj]
  · simp [hm]

/-- Setting VALID and the tag changes no word. -/
@[simp] theorem State.mem_tag (s : State) (p : Buf) (tq tn : Word) (m : Space) : (s.tag p tq tn).mem m = s.mem m := by
  cases m <;> simp [State.mem, State.tag, Vector.getElem_set]
  split
  · next h => have := Fin.ext h; subst this; rfl
  · rfl

@[simp] theorem State.memRead_tag (s : State) (p : Buf) (tq tn : Word) (m : Space) (i : Nat) :
    (s.tag p tq tn).memRead m i = s.memRead m i := by
  simp [State.memRead]

/-- The words after a polynomial result (43_polynomial_ring.md R232). -/
theorem State.memRead_putPoly (s : State) (p : Buf) (ws : List Word) (m : Space) (j : Nat) :
    (s.putPoly p ws).memRead m j = if h : m = .poly p ∧ j < ws.length then ws[j]'h.2 else s.memRead m j := by
  simp [State.putPoly, State.memRead_store]

/-- The words after values of the internal units are stored. -/
theorem State.memRead_storeVals (s : State) (m m' : Space) (vs : List Val) (j : Nat) :
    (s.storeVals m vs).memRead m' j =
      if h : m' = m ∧ j < (resolve s.free vs).1.length then (resolve s.free vs).1[j]'h.2 else s.memRead m' j := by
  have : (s.storeVals m vs).memRead m' j = (s.store m (resolve s.free vs).1).memRead m' j := by
    cases m' <;> rfl
  rw [this, State.memRead_store]

theorem State.memRead_putPolyVals (s : State) (p : Buf) (vs : List Val) (m : Space) (j : Nat) :
    (s.putPolyVals p vs).memRead m j =
      if h : m = .poly p ∧ j < (resolve s.free vs).1.length then (resolve s.free vs).1[j]'h.2 else s.memRead m j := by
  simp [State.putPolyVals, State.memRead_storeVals]

/-- The words loaded are those read one by one. -/
@[simp] theorem State.length_load (s : State) (m : Space) (n : Nat) : (s.load m n).length = n := by
  simp [State.load]

@[simp] theorem State.getElem_load (s : State) (m : Space) (n i : Nat) (h : i < (s.load m n).length) :
    (s.load m n)[i] = s.memRead m i := by
  simp [State.load]

/-- Every memory operation keeps the canonical form of every memory. -/
theorem State.wf_memWrite {s : State} (h : ∀ m, (s.mem m).wf) (m' : Space) (i : Nat) (v : Word) :
    ∀ m, ((s.memWrite m' i v).mem m).wf := by
  intro m
  unfold State.memWrite
  rw [State.mem_setMem]
  split
  · exact Mem.wf_write (h m') i v
  · exact h m

theorem State.wf_store {s : State} (h : ∀ m, (s.mem m).wf) (m' : Space) (ws : List Word) :
    ∀ m, ((s.store m' ws).mem m).wf := by
  intro m
  unfold State.store
  rw [State.mem_setMem]
  split
  · exact Mem.wf_store ws (h m') 0
  · exact h m

theorem State.wf_storeVals {s : State} (h : ∀ m, (s.mem m).wf) (m' : Space) (vs : List Val) :
    ∀ m, ((s.storeVals m' vs).mem m).wf := by
  intro m
  have : (s.storeVals m' vs).mem m = (s.store m' (resolve s.free vs).1).mem m := by cases m <;> rfl
  rw [this]
  exact State.wf_store h m' _ m

/-- After reset no word of any memory has been written. -/
@[simp] theorem State.mem_reset (m : Space) : State.reset.mem m = [] := by
  cases m <;> simp [State.mem, State.reset, Poly.reset]

theorem State.wf_reset (m : Space) : (State.reset.mem m).wf := by simp [Mem.wf]

end Sys2Proof.Machine
end

