-- ==== Sys2Proof/Laws/Outcome.lean ====
section
/-! SUPPORT. One lemma per shared operation of a command: its checks, its end, its values. -/

namespace Sys2Proof.Machine

/-! ## How a command ends -/

@[simp] theorem commit_ok (s t : State) : commit s (.ok t) = .next (t.complete 0) := rfl

@[simp] theorem commit_raised (s : State) (c : Cause) : commit s (.error (.raised c)) = .next (s.raise c) := rfl

@[simp] theorem commit_noSuchWord (s : State) : commit s (.error .noSuchWord) = .fault .noSuchWord := rfl

/-- A command that answers a next state either completed or raised a fault. -/
theorem commit_eq_next {s t : State} {a : Action} (h : commit s a = .next t) :
    (∃ u, a = .ok u ∧ t = u.complete 0) ∨ (∃ c, a = .error (.raised c) ∧ t = s.raise c) := by
  unfold commit at h
  split at h <;> simp_all

/-- A command is never refused for want of a meaning. -/
theorem commit_ne_refused (s : State) (a : Action) (r : Refusal) : commit s a ≠ .refused r := by
  unfold commit; split <;> simp

/-- The outcome of a choice between two actions. -/
theorem commit_ite (s : State) (p : Prop) [Decidable p] (a b : Action) :
    commit s (if p then a else b) = if p then commit s a else commit s b := by
  split <;> rfl

/-- `raise` is R330 written out. -/
theorem raise_eq_faulted (s : State) (c : Cause) : s.raise c = faulted s c := rfl

/-- A command that completes having written one scalar register. -/
theorem setS_complete (s : State) (i : Fin 16) (v : Word) : (s.setS i v).complete 0 = wroteReg s i v := rfl

theorem complete_eq_completed (s : State) (d : Word) : s.complete d = completed s d := rfl

/-! ## Checks -/

theorem bind_ok {α : Type} (x : α) (k : α → Action) : ((Except.ok x : Except Stop α) >>= k) = k x := rfl

theorem bind_error {α : Type} (e : Stop) (k : α → Action) : ((Except.error e : Except Stop α) >>= k) = .error e := rfl

/-- A check goes on or raises its cause. -/
theorem ensure_bind {α : Type} (b : Bool) (c : Cause) (k : Unit → Except Stop α) :
    (ensure b c >>= k) = if b then k () else .error (.raised c) := by
  cases b <;> rfl

theorem ensure_eq_ok {b : Bool} {c : Cause} : ensure b c = .ok () ↔ b = true := by
  cases b <;> simp [ensure]

theorem ensure_eq_error {b : Bool} {c : Cause} {e : Stop} : ensure b c = .error e ↔ b = false ∧ e = .raised c := by
  cases b <;> simp [ensure, eq_comm]

theorem wordsExist_bind {α : Type} (s : State) (n : Nat) (k : Unit → Except Stop α) :
    (s.wordsExist n >>= k) = if n ≤ s.cfg.nmax then k () else .error .noSuchWord := by
  unfold State.wordsExist; split <;> rfl

theorem needDescriptor_bind {α : Type} (s : State) (k : Unit → Except Stop α) :
    (s.needDescriptor >>= k) = if s.modvalid then k () else .error (.raised .notInitialised) := ensure_bind _ _ _

theorem needContext_bind {α : Type} (s : State) (k : Unit → Except Stop α) :
    (s.needContext >>= k) = if s.ctxvalid then k () else .error (.raised .notInitialised) := ensure_bind _ _ _

theorem needValid_bind {α : Type} (s : State) (p : Buf) (k : Unit → Except Stop α) :
    (s.needValid p >>= k) = if s.poly[p].valid then k () else .error (.raised .notInitialised) := ensure_bind _ _ _

theorem needShift_bind {α : Type} (s : State) (k : Unit → Except Stop α) :
    (s.needShift >>= k) = if 2 ≤ s.logq.toNat then k () else .error (.raised .shiftUnderflow) := by
  simp [State.needShift, ensure_bind]

theorem needResidue_bind {α : Type} (s : State) (r : Reg) (k : Unit → Except Stop α) :
    (s.needResidue r >>= k) = if s.nat r < s.q.toNat then k () else .error (.raised .preconditionViolation) := by
  simp [State.needResidue, ensure_bind]

theorem needModulus_bind {α : Type} (q : Nat) (k : Unit → Except Stop α) :
    (needModulus q >>= k) = if 2 ≤ q ∧ q < two63 then k () else .error (.raised .invalidModulus) := by
  simp [needModulus, ensure_bind]

theorem needCongruent_bind {α : Type} (q n : Nat) (k : Unit → Except Stop α) :
    (needCongruent q n >>= k) = if q % (2 * n) = 1 then k () else .error (.raised .invalidModulus) := by
  simp [needCongruent, ensure_bind]

/-- A power of two as the commands test it. -/
theorem isPow2_iff (v : Nat) : isPow2 v = true ↔ ∃ k, v = 2 ^ k := by
  unfold isPow2
  constructor
  · intro h
    simp only [Bool.and_eq_true, bne_iff_ne, beq_iff_eq] at h
    exact ⟨_, h.2⟩
  · rintro ⟨k, rfl⟩
    simp [Nat.log2_two_pow]

theorem needDegree_bind {α : Type} (n b : Nat) (k : Unit → Except Stop α) :
    (needDegree n b >>= k) = if isPow2 n = true ∧ n ≤ b then k () else .error (.raised .invalidDegree) := by
  simp [needDegree, ensure_bind]

theorem needTag_bind {α : Type} (s : State) (p : Buf) (k : Unit → Except Stop α) :
    (s.needTag p >>= k) =
      if s.poly[p].tq = s.q ∧ s.poly[p].tn = s.n then k () else .error (.raised .modulusMismatch) := by
  simp [State.needTag, ensure_bind]

theorem needIndex_bind {α : Type} (s : State) (r : Reg) (k : Unit → Except Stop α) :
    (s.needIndex r >>= k) =
      if s.nat r < s.n.toNat then (if s.nat r + 1 ≤ s.cfg.nmax then k () else .error .noSuchWord)
      else .error (.raised .indexOutOfRange) := by
  have : (s.needIndex r >>= k) =
      (ensure (decide (s.nat r < s.n.toNat)) .indexOutOfRange >>= fun _ => s.wordsExist (s.nat r + 1) >>= k) := by
    simp only [State.needIndex, bind_assoc]
  rw [this, ensure_bind]
  simp [wordsExist_bind]

/-- PolyCheck of one source (43_polynomial_ring.md R221). -/
theorem polyCheck1_bind {α : Type} (s : State) (p : Buf) (k : Unit → Except Stop α) :
    (s.polyCheck1 p >>= k) =
      if s.ctxvalid then
        if s.poly[p].valid then
          if s.poly[p].tq = s.q ∧ s.poly[p].tn = s.n then k () else .error (.raised .modulusMismatch)
        else .error (.raised .notInitialised)
      else .error (.raised .notInitialised) := by
  have : (s.polyCheck1 p >>= k) = (s.needContext >>= fun _ => s.needValid p >>= fun _ => s.needTag p >>= k) := by
    simp only [State.polyCheck1, bind_assoc]
  rw [this]
  simp only [needContext_bind, needValid_bind, needTag_bind]

/-- PolyCheck of two sources (R221): both VALID flags before both tags. -/
theorem polyCheck2_bind {α : Type} (s : State) (p r : Buf) (k : Unit → Except Stop α) :
    (s.polyCheck2 p r >>= k) =
      if s.ctxvalid then
        if s.poly[p].valid then
          if s.poly[r].valid then
            if s.poly[p].tq = s.q ∧ s.poly[p].tn = s.n then
              if s.poly[r].tq = s.q ∧ s.poly[r].tn = s.n then k () else .error (.raised .modulusMismatch)
            else .error (.raised .modulusMismatch)
          else .error (.raised .notInitialised)
        else .error (.raised .notInitialised)
      else .error (.raised .notInitialised) := by
  have : (s.polyCheck2 p r >>= k) = (s.needContext >>= fun _ => s.needValid p >>= fun _ => s.needValid r >>= fun _ =>
      s.needTag p >>= fun _ => s.needTag r >>= k) := by
    simp only [State.polyCheck2, bind_assoc]
  rw [this]
  simp only [needContext_bind, needValid_bind, needTag_bind]

theorem takePrime_bind (p : Option Nat) (k : Nat → Action) :
    (takePrime p >>= k) = match p with | some x => k x | none => .error (.raised .searchExhausted) := by
  cases p <;> rfl

/-! ## Values -/

/-- One word per value. -/
@[simp] theorem length_resolve (vs : List Val) : ∀ k, (resolve k vs).1.length = vs.length := by
  induction vs with
  | nil => intro k; rfl
  | cons v vs ih => intro k; cases v <;> simp [resolve, ih]

/-- Defined values are themselves and use no free value. -/
theorem resolve_map_some (xs : List Nat) : ∀ k, resolve k (xs.map some) = (xs.map (BitVec.ofNat 64), k) := by
  induction xs with
  | nil => intro k; rfl
  | cons x xs ih => intro k; simp [resolve, ih]

/-- Every word agrees with its value. -/
theorem resolve_agrees (vs : List Val) : ∀ k i (h : i < (resolve k vs).1.length) (h' : i < vs.length),
    Agrees vs[i] (resolve k vs).1[i] := by
  induction vs with
  | nil => intro k i h h'; simp at h'
  | cons v vs ih =>
    intro k i h h' x hx
    cases v with
    | none =>
      cases i with
      | zero => simp at hx
      | succ i => exact ih _ i _ (by simpa using h') x (by simpa using hx)
    | some y =>
      cases i with
      | zero => simp at hx; subst hx; rfl
      | succ i => exact ih _ i _ (by simpa using h') x (by simpa using hx)

@[simp] theorem setVal_some (s : State) (i : Fin 16) (x : Nat) : s.setVal i (some x) = s.setS i (BitVec.ofNat 64 x) := rfl

@[simp] theorem setVal_none (s : State) (i : Fin 16) :
    s.setVal i none = { s.setS i (Config.freeWord s.free) with free := s.free + 1 } := rfl

/-- A free value of a range lies in it. -/
theorem freeInRange_mem (k : Nat) {lo hi : Nat} (h : lo < hi) : lo ≤ freeInRange k lo hi ∧ freeInRange k lo hi < hi := by
  unfold freeInRange
  have : (Config.freeWord k).toNat % (hi - lo) < hi - lo := Nat.mod_lt _ (by omega)
  omega

/-- The law of the random source (43_polynomial_ring.md R223). -/
theorem draw_mem (s : State) {lo hi : Nat} (h : lo < hi) (h64 : hi ≤ 2 ^ 64) :
    lo ≤ (s.draw lo hi).1.toNat ∧ (s.draw lo hi).1.toNat < hi := by
  have hf := freeInRange_mem s.free h
  have hof : (BitVec.ofNat 64 (freeInRange s.free lo hi)).toNat = freeInRange s.free lo hi :=
    BitVec.toNat_ofNat _ _ ▸ Nat.mod_eq_of_lt (by omega)
  unfold State.draw
  split
  · simp only [hof]; exact hf
  · split
    · assumption
    · simp only [hof]; exact hf

/-- `n` draws give n words, each in range. -/
theorem draws_mem (n : Nat) : ∀ (s : State) {lo hi : Nat}, lo < hi → hi ≤ 2 ^ 64 →
    (s.draws lo hi n).1.length = n ∧ ∀ w ∈ (s.draws lo hi n).1, lo ≤ w.toNat ∧ w.toNat < hi := by
  induction n with
  | zero => intro s lo hi _ _; simp [State.draws]
  | succ n ih =>
    intro s lo hi h h64
    have h1 := ih (s.draw lo hi).2 h h64
    have h2 := draw_mem s h h64
    simp only [State.draws, List.length_cons, h1.1, List.mem_cons, forall_eq_or_imp]
    exact ⟨trivial, h2, h1.2⟩

/-! ## Inverting a command that completes -/

/-- A choice that completes took its first branch. -/
theorem ite_error_eq_ok {p : Prop} [Decidable p] {x : Action} {e : Stop} {u : State} :
    (if p then x else .error e) = Except.ok u ↔ p ∧ x = .ok u := by split <;> simp_all

/-- A command that completes after a scan took a root from it. -/
theorem takeScan_bind_eq_ok (e : Except Stop Val) (r : Scan) (k : Val → Action) (u : State) :
    (takeScan e r >>= k) = .ok u ↔ ∃ g, takeScan e r = .ok g ∧ k g = .ok u := by
  cases h : takeScan e r <;> simp [bind, Except.bind]

/-- FINDROOT and FINDGEN: the same. -/
theorem takeRoot_bind_eq_ok (r : Scan) (k : Val → Action) (u : State) :
    (takeRoot r >>= k) = .ok u ↔ ∃ g, takeRoot r = .ok g ∧ k g = .ok u := takeScan_bind_eq_ok _ r k u

/-- CTXINIT: the same. -/
theorem takeRootContext_bind_eq_ok (s : State) (r : Scan) (k : Val → Action) (u : State) :
    (takeRootContext s r >>= k) = .ok u ↔ ∃ g, takeRootContext s r = .ok g ∧ k g = .ok u := takeScan_bind_eq_ok _ r k u

/-- An unspecified scan ends in one of two ways. -/
theorem freeEnd_cases (s : State) : freeEnd s = .ok none ∨ freeEnd s = .error (.raised .searchExhausted) := by
  unfold freeEnd; split <;> simp

/-- All that can come of a scan in CTXINIT: the root found, an arbitrary root, or SearchExhausted. -/
theorem takeRootContext_cases (s : State) (r : Scan) :
    (∃ g, r = .root g ∧ takeRootContext s r = .ok (some g)) ∨ (r = .unspecified ∧ takeRootContext s r = .ok none) ∨
      ((∀ g, r ≠ .root g) ∧ takeRootContext s r = .error (.raised .searchExhausted)) := by
  cases r with
  | root g => exact .inl ⟨g, rfl, rfl⟩
  | exhausted => exact .inr (.inr ⟨nofun, rfl⟩)
  | unspecified => exact .inr ((freeEnd_cases s).imp (⟨rfl, ·⟩) (⟨nofun, ·⟩))

/-- All that can come of a scan in FINDROOT and FINDGEN: the same, but only an exhausted scan raises SearchExhausted. -/
theorem takeRoot_cases (r : Scan) :
    (∃ g, r = .root g ∧ takeRoot r = .ok (some g)) ∨ (r = .unspecified ∧ takeRoot r = .ok none) ∨
      (r = .exhausted ∧ takeRoot r = .error (.raised .searchExhausted)) := by
  cases r with
  | root g => exact .inl ⟨g, rfl, rfl⟩
  | exhausted => exact .inr (.inr ⟨rfl, rfl⟩)
  | unspecified => exact .inr (.inl ⟨rfl, rfl⟩)

/-- All that a product inside a command of several steps can be: one `BarrettMul` on residues, exact where it is below
q (40_modular_arithmetic.md R131, R135). -/
theorem vMul_eq_some {d : Descriptor} {a b : Val} {r : Nat} (h : vMul d a b = some r) :
    ∃ x y, a = some x ∧ b = some y ∧ x < d.q ∧ y < d.q ∧ r = barrettMul d x y ∧ (r < d.q → r = x * y % d.q) := by
  unfold vMul at h
  split at h
  · rename_i x y
    obtain ⟨hr, hp⟩ := Option.filter_eq_some_iff.mp h
    unfold vBarrett residue at hr
    split at hr
    · cases hr
    · split at hr
      · rename_i x' y' hx hy
        obtain ⟨hx1, hx2⟩ := Option.filter_eq_some_iff.mp hx
        obtain ⟨hy1, hy2⟩ := Option.filter_eq_some_iff.mp hy
        simp only [Option.some.injEq, decide_eq_true_eq, Bool.or_eq_true] at hx1 hy1 hx2 hy2 hr hp
        subst hx1 hy1
        exact ⟨x, y, rfl, rfl, hx2, hy2, hr.symm, fun hlt => hp.resolve_left (by omega)⟩
      · cases hr
  · cases h

/-- A defined result of `ModExp` is a residue. -/
theorem modExp_lt {d : Descriptor} {a : Val} {e r : Nat} (h : modExp d a e = some r) : r < d.q := by
  unfold modExp at h
  split at h
  · simpa using (Option.filter_eq_some_iff.mp h).2
  · cases h

/-- A command that completes after a prime search took a prime from it. -/
theorem takePrime_bind_eq_ok (r : Option Nat) (k : Nat → Action) (u : State) :
    (takePrime r >>= k) = .ok u ↔ ∃ p, r = some p ∧ k p = .ok u := by
  cases r <;> simp [bind, Except.bind, takePrime]

/-- A CSRR that completes read a readable register. -/
theorem needReadable_bind_eq_ok (s : State) (c : Csr) (k : Unit → Action) (u : State) :
    (s.needReadable c >>= k) = .ok u ↔ s.needReadable c = .ok () ∧ k () = .ok u := by
  cases h : s.needReadable c <;> simp [bind, Except.bind]

/-- Reading one entry of a vector after one was replaced. -/
theorem getElem_vector_set {α : Type} (v : Vector α 16) (i j : Fin 16) (x : α) :
    (v.set i x)[j] = if i = j then x else v[j] := by
  simp [Vector.getElem_set, Fin.ext_iff]

/-- A value stored in a scalar register is that value or a free one; nothing but the register and the counter changes. -/
theorem setVal_eq (s : State) (i : Fin 16) (v : Val) :
    ∃ w k, s.setVal i v = { s.setS i w with free := k } ∧ Agrees v w := by
  cases v with
  | some x => exact ⟨BitVec.ofNat 64 x, s.free, rfl, fun y h => by cases h; rfl⟩
  | none => exact ⟨Config.freeWord s.free, s.free + 1, rfl, fun y h => by cases h⟩

/-- Draws change the random source's list and the counter, nothing else. -/
theorem draws_frame (n : Nat) : ∀ (s : State) (lo hi : Nat),
    (State.draws s lo hi n).2 =
      { s with oracle := (State.draws s lo hi n).2.oracle, free := (State.draws s lo hi n).2.free } := by
  induction n with
  | zero => intros; rfl
  | succ n ih =>
    intro s lo hi
    simp only [State.draws]
    rw [ih]
    unfold State.draw
    split
    · rfl
    · split <;> rfl

end Sys2Proof.Machine
end

