-- ==== Sys2Proof/Laws/Result.lean ====
section
/-! SUPPORT. What a command that completes leaves in the memories, and the shape of a polynomial result. -/

namespace Sys2Proof.Machine

/-! ## Memory through the updates that do not touch it -/

@[simp] theorem State.mem_complete (s : State) (d : Word) (m : Space) : (s.complete d).mem m = s.mem m := by
  cases m <;> rfl
@[simp] theorem State.mem_raise (s : State) (c : Cause) (m : Space) : (s.raise c).mem m = s.mem m := by
  cases m <;> rfl
@[simp] theorem State.mem_refuse (s : State) (m : Space) : s.refuse.mem m = s.mem m := by
  cases m <;> rfl
@[simp] theorem State.mem_setS (s : State) (i : Fin 16) (v : Word) (m : Space) : (s.setS i v).mem m = s.mem m := by
  cases m <;> rfl
@[simp] theorem State.mem_setDesc (s : State) (d : Descriptor) (m : Space) : (s.setDesc d).mem m = s.mem m := by
  cases m <;> rfl
@[simp] theorem State.mem_setDegree (s : State) (n : Nat) (m : Space) : (s.setDegree n).mem m = s.mem m := by
  cases m <;> rfl
@[simp] theorem State.mem_setInvN (s : State) (v w : Val) (m : Space) : (s.setInvN v w).mem m = s.mem m := by
  cases m <;> rfl
@[simp] theorem State.mem_flagsSetmod (s : State) (m : Space) : s.flagsSetmod.mem m = s.mem m := by
  cases m <;> rfl
@[simp] theorem State.mem_flagsCtxinit (s : State) (m : Space) : s.flagsCtxinit.mem m = s.mem m := by
  cases m <;> rfl
@[simp] theorem State.mem_afterScan (s : State) (r : Scan) (m : Space) : (s.afterScan r).mem m = s.mem m := by
  cases r <;> cases m <;> rfl
@[simp] theorem State.mem_setVal (s : State) (i : Fin 16) (v : Val) (m : Space) : (s.setVal i v).mem m = s.mem m := by
  cases v <;> cases m <;> rfl

/-- Equal cells read equal. -/
theorem State.memRead_congr {s t : State} {m : Space} (h : t.mem m = s.mem m) (i : Nat) : t.memRead m i = s.memRead m i := by
  unfold State.memRead; rw [h]

@[simp] theorem State.memRead_complete (s : State) (d : Word) (m : Space) (i : Nat) :
    (s.complete d).memRead m i = s.memRead m i := State.memRead_congr (by simp) i
@[simp] theorem State.memRead_raise (s : State) (c : Cause) (m : Space) (i : Nat) :
    (s.raise c).memRead m i = s.memRead m i := State.memRead_congr (by simp) i
@[simp] theorem State.memRead_setS (s : State) (r : Fin 16) (v : Word) (m : Space) (i : Nat) :
    (s.setS r v).memRead m i = s.memRead m i := State.memRead_congr (by simp) i
@[simp] theorem State.memRead_setVal (s : State) (r : Fin 16) (v : Val) (m : Space) (i : Nat) :
    (s.setVal r v).memRead m i = s.memRead m i := State.memRead_congr (by simp) i

/-! ## Writing a polynomial result -/

/-- All that writing a result of words does (43_polynomial_ring.md R232). -/
theorem State.putPoly_eq (s : State) (pd : Buf) (ws : List Word) :
    s.putPoly pd ws =
      { s with poly := s.poly.set pd (Poly.mk true s.q s.n (Mem.store s.poly[pd].words 0 ws)) } := by
  simp [State.putPoly, State.tag, State.store, State.setMem, State.mem]

/-- All that writing a result of values does (R232). -/
theorem State.putPolyVals_eq (s : State) (pd : Buf) (vs : List Val) :
    s.putPolyVals pd vs =
      { s with
        poly := s.poly.set pd (Poly.mk true s.q s.n (Mem.store s.poly[pd].words 0 (resolve s.free vs).1))
        free := (resolve s.free vs).2 } := by
  simp [State.putPolyVals, State.tag, State.store, State.storeVals, State.setMem, State.mem]

/-- A command that completes with a result of N words has the shape of a polynomial result. -/
theorem polyResult_putPoly (s : State) (pd : Buf) (ws : List Word) (h : ws.length = s.n.toNat) :
    PolyResult s ((s.putPoly pd ws).complete 0) pd s.q s.n ∧
      ∀ i (hi : i < ws.length), ((s.putPoly pd ws).complete 0).memRead (.poly pd) i = ws[i] := by
  refine ⟨⟨?_, ?_, ?_, ?_, ?_⟩, ?_⟩
  · simp [State.putPoly_eq, State.complete, State.respond]
  · simp [State.putPoly_eq, State.complete, State.respond]
  · simp [State.putPoly_eq, State.complete, State.respond]
  · simp [State.putPoly_eq, State.complete, State.respond]
  · intro i hi
    rw [State.memRead_complete, State.memRead_putPoly, dif_neg]
    rintro ⟨-, h2⟩
    omega
  · intro i hi
    rw [State.memRead_complete, State.memRead_putPoly, dif_pos ⟨rfl, hi⟩]

/-- A command that completes with a result of N values has the shape of a polynomial result, each word agreeing with its
value. -/
theorem polyResult_putPolyVals (s : State) (pd : Buf) (vs : List Val) (h : vs.length = s.n.toNat) :
    PolyResult s ((s.putPolyVals pd vs).complete 0) pd s.q s.n ∧
      ∀ i < s.n.toNat, Agrees (vs.getD i none) (((s.putPolyVals pd vs).complete 0).memRead (.poly pd) i) := by
  refine ⟨⟨?_, ?_, ?_, ?_, ?_⟩, ?_⟩
  · simp [State.putPolyVals_eq, State.complete, State.respond]
  · simp [State.putPolyVals_eq, State.complete, State.respond]
  · simp [State.putPolyVals_eq, State.complete, State.respond]
  · simp [State.putPolyVals_eq, State.complete, State.respond]
  · intro i hi
    rw [State.memRead_complete, State.memRead_putPolyVals, dif_neg]
    rintro ⟨-, h2⟩
    rw [length_resolve] at h2
    omega
  · intro i hi
    have hl : i < vs.length := by omega
    have hr : i < (resolve s.free vs).1.length := by simpa using hl
    rw [State.memRead_complete, State.memRead_putPolyVals, dif_pos ⟨rfl, hr⟩]
    have := resolve_agrees vs s.free i hr hl
    simpa [List.getD, hl, hr] using this
end Sys2Proof.Machine
end

