-- ==== Sys2Proof/Tests/Slice0.lean ====
section
/-! SUPPORT. Tests. Expected values are those of spec/95_test_vectors.md (ids V, T) and of the rules' own examples, not
the model's answers. Every test runs at most one step. The witnesses at the end show, for each statement of
Certificates/Slice0/Obligations.lean that has hypotheses, a state and operands that meet them. -/

namespace Sys2Proof.Tests

open Sys2Proof.Machine

-- one theorem at a time: the kernel evaluates every test, and many at once need too many threads
set_option Elab.async false

/-! ## Decoding: one word for every command, written out from 30_encoding.md R91 to R95 -/

-- OP 0x01 to 0x04: V1, V2, R302, V4
theorem test_decode_moves :
    decode 0x00110101#32 = some (.movz 1 17 0) ∧ decode 0x0A4A3102#32 = some (.movk 1 0x0A4A 3) ∧
    decode 0x00003003#32 = some (.get 3) ∧ decode 0x00060704#32 = some (.csrr 7 .invN) := by decide +kernel

-- V15, V16: IMM16 in 31:16, HW in 13:12, rd in 11:8
theorem test_decode_immediates :
    decode 0xBEEF1101#32 = some (.movz 1 0xBEEF 1) ∧ decode 0xFFFF3501#32 = some (.movz 5 0xFFFF 3) ∧
    decode 0x12343102#32 = some (.movk 1 0x1234 3) ∧ decode 0x568E0F01#32 = some (.movz 15 0x568E 0) := by decide +kernel

-- OP 0x10 to 0x19: section 2.3, 2.4, V3
theorem test_decode_modular :
    decode 0x00001010#32 = some (.setmod 1) ∧ decode 0x00032411#32 = some (.modadd 4 2 3) ∧
    decode 0x00032412#32 = some (.modsub 4 2 3) ∧ decode 0x00002413#32 = some (.modneg 4 2) ∧
    decode 0x00032414#32 = some (.modmul 4 2 3) ∧ decode 0x00002415#32 = some (.modsqr 4 2) ∧
    decode 0x00032416#32 = some (.modexp 4 2 3) ∧ decode 0x00002417#32 = some (.modinv 4 2) ∧
    decode 0x00002418#32 = some (.shouppre 4 2) ∧ decode 0x00532619#32 = some (.modmulsh 6 2 3 5) := by decide +kernel

-- OP 0x20 to 0x25: section 2.5
theorem test_decode_number_theory :
    decode 0x00021320#32 = some (.fprimeup 3 1 2) ∧ decode 0x00021321#32 = some (.fprimedn 3 1 2) ∧
    decode 0x00021322#32 = some (.nprimeup 3 1 2) ∧ decode 0x00021323#32 = some (.nprimedn 3 1 2) ∧
    decode 0x00001324#32 = some (.findroot 3 1) ∧ decode 0x00023425#32 = some (.findgen 4 3 2) := by decide +kernel

-- OP 0x30, 0x31: section 2.6, V5, V69
theorem test_decode_context :
    decode 0x00021030#32 = some (.ctxinit 1 2) ∧ decode 0x00025631#32 = some (.twrd 6 .itf 5) ∧
    decode 0x00001231#32 = some (.twrd 2 .tf 1) ∧ decode 0x00031231#32 = some (.twrd 2 .itfShoup 1) ∧
    decode 0x00011231#32 = some (.twrd 2 .tfShoup 1) := by decide +kernel

-- OP 0x40 to 0x48: section 2.8, V6, P1, P3
theorem test_decode_polynomials :
    decode 0x00000140#32 = some (.pzero 1) ∧ decode 0x00000141#32 = some (.prand 1) ∧
    decode 0x00043042#32 = some (.pwr 0 3 4) ∧ decode 0x00021343#32 = some (.prd 3 1 2) ∧
    decode 0x00001044#32 = some (.pcopy 0 1) ∧ decode 0x00010245#32 = some (.padd 2 0 1) ∧
    decode 0x00032246#32 = some (.psub 2 2 3) ∧ decode 0x00000247#32 = some (.pneg 2 0) ∧
    decode 0x00010248#32 = some (.pmulpw 2 0 1) := by decide +kernel

-- OP 0x50 to 0x5A: sections 2.7, 2.8, P3
theorem test_decode_transforms :
    decode 0x00000050#32 = some (.ntt 0) ∧ decode 0x00000251#32 = some (.intt 2) ∧
    decode 0x00000252#32 = some (.nttsh 2) ∧ decode 0x00000053#32 = some (.inttsh 0) ∧
    decode 0x00010358#32 = some (.convnaive 3 0 1) ∧ decode 0x00010259#32 = some (.conv 2 0 1) ∧
    decode 0x0001035A#32 = some (.convsh 3 0 1) := by decide +kernel

-- V7 to V10, V12 to V14: R96 (a), (b), (d), (e)
theorem test_decode_illegal :
    decode 0x00000000#32 = none ∧ decode 0xFFFFFFFF#32 = none ∧ decode 0x00010113#32 = none ∧
    decode 0x01000040#32 = none ∧ decode 0x000A0104#32 = none ∧ decode 0x00041231#32 = none ∧
    decode 0x00014101#32 = none ∧ decode 0x00090104#32 = some (.csrr 1 .npoly) := by decide +kernel

-- V11: R96 (c)
theorem test_decode_slot_limit :
    decodeLegal 4 0x00000440#32 = none ∧ decodeLegal 5 0x00000440#32 = some (.pzero 4) ∧
    decodeLegal 4 0x00000340#32 = some (.pzero 3) ∧ decodeTableWord 32 0x00000440 = some (.pzero 4) := by decide +kernel

theorem test_encode_words :
    encode (.modmulsh 6 2 3 5) = 0x00532619#32 ∧ encode (.movk 1 0x0A4A 3) = 0x0A4A3102#32 ∧
    encode (.twrd 6 .itf 5) = 0x00025631#32 ∧ encode (.csrr 7 .invN) = 0x00060704#32 := by decide +kernel

/-! ## Well-formedness: the one check refuses an ill-formed slot in each of its places -/

theorem test_wf_refuses_destination : (Instr.pzero 4).wf 4 = false ∧ (Instr.padd 4 0 1).wf 4 = false := by decide +kernel
theorem test_wf_refuses_first_source : (Instr.pcopy 0 4).wf 4 = false ∧ (Instr.prd 0 4 0).wf 4 = false := by decide +kernel
theorem test_wf_refuses_second_source : (Instr.conv 0 1 4).wf 4 = false ∧ (Instr.conv 15 15 15).wf 15 = false := by decide +kernel
theorem test_wf_accepts : (Instr.conv 3 3 3).wf 4 = true ∧ (Instr.conv 15 15 15).wf 16 = true := by decide +kernel

/-! ## States -/

/-- Memory words from index 0 up. -/
def cells (ws : List Nat) : Mem := ws.zipIdx.map fun c => (c.2, BitVec.ofNat 64 c.1)

/-- Sixteen registers from a list. -/
def regs (vs : List Nat) : Vector Word 16 := Vector.ofFn fun i => BitVec.ofNat 64 (vs.getD i.val 0)

/-- After reset, with those scalar registers. -/
def r0 (vs : List Nat) : State := { State.reset with sreg := regs vs }

/-- Modulus 17 installed (V21), with those scalar registers. -/
def d17 (vs : List Nat) : State := { r0 vs with q := 17, logq := 5, mu := 60, modvalid := true }

/-- A polynomial of the context (17, 4). -/
def p17 (ws : List Nat) : Poly := { valid := true, tq := 17, tn := 4, words := cells ws }

/-- The context (17, 4) of V60, with those scalar registers and P0, P1; P2 holds zeros, P3 nothing; NTT P0 waits. -/
def x17 (vs a b : List Nat) : State :=
  { d17 vs with
    n := 4, logn := 2, invN := 13, invNShoup := 14106333703424951235, ctxvalid := true
    tf := cells [1, 13, 9, 15]
    tfShoup := cells [1085102592571150095, 14106333703424951235, 9765923333140350855, 16276538888567251425]
    itf := cells [1, 4, 2, 8]
    itfShoup := cells [1085102592571150095, 4340410370284600380, 2170205185142300190, 8680820740569200760]
    poly := ((State.reset.poly.set 0 (p17 a)).set 1 (p17 b)).set 2 (p17 [0, 0, 0, 0])
    inbox := [.cmd 0x00000050#32] }

/-- The state of section 2.8: S1 to S7 = 17, 4, 2, 16, 3, 0, 1; P0 = [1, 2, 3, 16], P1 = [16, 15, 3, 5]. -/
def c17 : State := x17 [0, 17, 4, 2, 16, 3, 0, 1] [1, 2, 3, 16] [16, 15, 3, 5]

/-- c17 after a fault (P4). -/
def f17 : State := { c17 with fault := true, cause := 3, faultcmd := 0x00010245#32 }

/-! ## Reading an outcome -/

/-- The next state of an outcome. -/
def after (o : Host.Outcome State Fault Refusal) : State :=
  match o with
  | .next t => t
  | _ => State.reset

/-- Whether an outcome is a next state. -/
def goesOn (o : Host.Outcome State Fault Refusal) : Bool :=
  match o with
  | .next _ => true
  | _ => false

theorem eq_next_after {o : Host.Outcome State Fault Refusal} (h : goesOn o = true) : o = .next (after o) := by
  cases o <;> simp_all [goesOn, after]

/-- A register after a command. -/
def reg (i : Instr) (s : State) (r : Fin 16) : Nat := (after (exec i s)).sreg[r].toNat

/-- The first four words of a buffer after a command. -/
def buf (i : Instr) (s : State) (p : Fin 16) : List Nat := ((after (exec i s)).load (.poly p) 4).map (·.toNat)

/-- Whether a command went on, and the cause it left. -/
def cause (i : Instr) (s : State) : Bool × Nat := (goesOn (exec i s), (after (exec i s)).cause.toNat)

/-- q, LOGQ and MU after a command. -/
def descr (i : Instr) (s : State) : Nat × Nat × Nat :=
  ((after (exec i s)).q.toNat, (after (exec i s)).logq.toNat, (after (exec i s)).mu.toNat)

/-- The context of a state. -/
def context (s : State) : List Mem × Word × Word × Nat × Word × Bool :=
  ([s.tf, s.itf, s.tfShoup, s.itfShoup], s.invN, s.invNShoup, s.logn.toNat, s.mu, s.ctxvalid)

/-! ## Moves and status (section 2.2) -/

theorem test_movz : reg (.movz 5 0xFFFF 3) (r0 []) 5 = 18446462598732840960 := by decide +kernel
theorem test_movk : reg (.movk 1 1 1) (r0 [0, 12289]) 1 = 77825 := by decide +kernel
theorem test_get : (after (exec (.get 1) (r0 [0, 1311673394675056639]))).outbox =
    [{ fault := false, cause := 0, data := 1311673394675056639 }] := by decide +kernel
theorem test_csrr_mu : reg (.csrr 5 .mu) c17 5 = 60 ∧ reg (.csrr 5 .status) c17 5 = 3 := by decide +kernel
theorem test_csrr_before_setmod : cause (.csrr 1 .q) (r0 []) = (true, 6) ∧ reg (.csrr 2 .nmax) (r0 []) 2 = 1024 := by decide +kernel

/-! ## Modular arithmetic (sections 2.3, 2.4) -/

theorem test_setmod_powers : descr (.setmod 1) (r0 [0, 4]) = (4, 2, 4) ∧ descr (.setmod 1) (r0 [0, 2]) = (2, 1, 2) := by decide +kernel
theorem test_setmod_wide : descr (.setmod 1) (r0 [0, 9223372036854775783]) = (9223372036854775783, 63, 9223372036854775833) ∧
    cause (.setmod 1) (r0 [0, 2 ^ 63]) = (true, 1) := by decide +kernel
theorem test_modadd : reg (.modadd 4 2 3) (d17 [0, 0, 9, 13]) 4 = 5 ∧ reg (.modadd 4 2 3) (d17 [0, 0, 16, 1]) 4 = 0 := by decide +kernel
theorem test_modsub : reg (.modsub 4 2 3) (d17 [0, 0, 9, 13]) 4 = 13 ∧ reg (.modsub 4 2 3) (d17 [0, 0, 0, 16]) 4 = 1 := by decide +kernel
theorem test_modneg : reg (.modneg 4 2) (d17 [0, 0, 0]) 4 = 0 ∧ reg (.modneg 4 2) (d17 [0, 0, 5]) 4 = 12 := by decide +kernel
theorem test_modmul : reg (.modmul 4 2 3) (d17 [0, 0, 9, 13]) 4 = 15 ∧ cause (.modmul 4 2 3) (d17 [0, 0, 17, 1]) = (true, 4) := by decide +kernel

/-- V33: 490 · 490 modulo 491, outside BarrettSafe. -/
def d491 (vs : List Nat) : State := { r0 vs with q := 491, logq := 9, mu := 533, modvalid := true }

theorem test_modmul_unsafe : reg (.modmul 4 2 3) (d491 [0, 0, 490, 490]) 4 = 492 := by decide +kernel
theorem test_modsqr : reg (.modsqr 4 2) (d17 [0, 0, 5]) 4 = 8 ∧ reg (.modsqr 4 2) (d491 [0, 0, 490]) 4 = 492 := by decide +kernel
theorem test_modexp : reg (.modexp 4 2 3) (d17 [0, 0, 2, 18446744073709551615]) 4 = 9 ∧ reg (.modexp 4 2 3) (d17 [0, 0, 0, 0]) 4 = 1 := by decide +kernel
-- R135, U1: the square 492 is no residue; what follows from it is arbitrary
theorem test_modexp_unsafe : modExp (d491 []).desc (some 490) 2 = none ∧ goesOn (exec (.modexp 4 2 3) (d491 [0, 0, 490, 2])) = true := by decide +kernel
-- R131 (d): a product above 2^64 / 3 whose truncation is wrong below q; C2: unspecified inside a command of several steps
theorem test_product_truncated : (fun d a b => barrettMul d a b < d.q ∧ barrettMul d a b ≠ a * b % d.q ∧ vMul d (some a) (some b) = none)
    (makeDescriptor 9218824711179945019) 9218824531742900311 9218823785524562934 := by decide +kernel
-- R197: at or above q the word is kept, and no unit accepts it
theorem test_product_above : vMul (makeDescriptor 7681) (some 7145) (some 7480) = some 7883 ∧
    vMul (makeDescriptor 7681) (some 7883) (some 1) = none ∧ modExp (makeDescriptor 962) (some 931) 3 = none := by decide +kernel
theorem test_modinv : reg (.modinv 4 2) (d17 [0, 0, 5]) 4 = 7 ∧ cause (.modinv 4 2) (d17 []) = (true, 8) := by decide +kernel
theorem test_shouppre : reg (.shouppre 4 2) (d17 [0, 0, 13]) 4 = 14106333703424951235 := by decide +kernel
theorem test_modmulsh : reg (.modmulsh 6 2 3 5) (d17 [0, 0, 9, 13, 0, 14106333703424951235]) 6 = 15 := by decide +kernel
-- V29b: no fault, and the value is not asserted
theorem test_modmulsh_wrong_word : cause (.modmulsh 6 2 3 5) (d17 [0, 0, 9, 13, 0, 0]) = (true, 0) ∧
    vMulShoup 17 (some 9) (some 13) (some 0) = none := by decide +kernel

/-! ## Number theory (section 2.5) -/

theorem test_fprimeup : reg (.fprimeup 3 1 2) (r0 [0, 5, 4]) 3 = 41 ∧ cause (.fprimeup 3 1 2) (r0 [0, 63, 4]) = (true, 9) := by decide +kernel
theorem test_fprimedn : reg (.fprimedn 3 1 2) (r0 [0, 5, 4]) 3 = 17 ∧ cause (.fprimedn 3 1 2) (r0 [0, 4, 4]) = (true, 9) := by decide +kernel
theorem test_nprimeup : reg (.nprimeup 3 1 2) (r0 [0, 17, 4]) 3 = 41 ∧ cause (.nprimeup 3 1 2) (r0 [0, 9223372036854775783, 4]) = (true, 9) := by decide +kernel
theorem test_nprimedn : reg (.nprimedn 3 1 2) (r0 [0, 41, 4]) 3 = 17 ∧ cause (.nprimedn 3 1 2) (r0 [0, 41, 3]) = (true, 2) := by decide +kernel
-- V53: 9 has no primitive root, 2 passes the test
theorem test_findroot : reg (.findroot 3 1) (r0 [0, 41]) 3 = 6 ∧ reg (.findroot 3 1) (r0 [0, 9]) 3 = 2 ∧
    cause (.findroot 3 1) (r0 [0, 2]) = (true, 9) := by decide +kernel
-- R170, R135: the primes 3881 and 3931 of R132 and the composite 4033 meet an inexact power; no fault is raised
theorem test_findroot_unspecified : (List.all [3881, 3931, 4033] fun q => findPrimitiveRoot q == .unspecified) = true ∧
    (List.all [3881, 3931, 4033] fun q => cause (.findroot 3 1) (r0 [0, q]) == (true, 0)) = true := by decide +kernel
-- R197: the scan of 7681 is exact
theorem test_scan_exact : findPrimitiveRoot 7681 = .root 17 ∧ generatorOf 7681 256 (some 17) = some 7146 := by decide +kernel
theorem test_findgen : reg (.findgen 3 1 2) (r0 [0, 17, 4]) 3 = 9 ∧ cause (.findgen 3 1 2) (r0 [0, 17, 16]) = (true, 1) := by decide +kernel
theorem test_prime_factors : primeFactors 7680 = [2, 3, 5] ∧ primeFactors 1 = [] ∧ primeFactors 96 = [2, 3] := by decide +kernel

/-! ## The context (section 2.6) -/

-- V60
theorem test_ctxinit : context (after (exec (.ctxinit 1 2) (r0 [0, 17, 4]))) = context c17 := by decide +kernel
-- V67, V67a
theorem test_ctxinit_checks : cause (.ctxinit 1 2) (r0 [0, 17, 2048]) = (true, 2) ∧ cause (.ctxinit 1 2) (r0 [0, 25, 4]) = (true, 1) := by decide +kernel
-- V69
theorem test_twrd : reg (.twrd 2 .tf 3) c17 2 = 9 ∧ reg (.twrd 2 .itfShoup 3) c17 2 = 2170205185142300190 := by decide +kernel
theorem test_twrd_range : cause (.twrd 3 .tf 2) c17 = (true, 7) := by decide +kernel

/-! ## Polynomials and transforms (sections 2.7, 2.8) -/

theorem test_pzero : buf (.pzero 3) c17 3 = [0, 0, 0, 0] ∧ cause (.pzero 3) (d17 []) = (true, 6) := by decide +kernel
theorem test_prand : buf (.prand 1) { c17 with oracle := [5, 16, 1, 9] } 1 = [5, 16, 1, 9] := by decide +kernel
theorem test_pwr : buf (.pwr 0 3 4) c17 0 = [1, 2, 16, 16] ∧ cause (.pwr 0 1 1) c17 = (true, 7) := by decide +kernel
theorem test_prd : reg (.prd 3 1 3) c17 3 = 3 ∧ cause (.prd 3 3 3) c17 = (true, 6) := by decide +kernel
theorem test_pcopy : buf (.pcopy 3 1) c17 3 = [16, 15, 3, 5] ∧ cause (.pcopy 0 1) (r0 []) = (true, 6) := by decide +kernel
theorem test_padd : buf (.padd 2 0 1) c17 2 = [0, 0, 6, 4] ∧ cause (.padd 2 0 0) { c17 with q := 97, n := 8 } = (true, 3) := by decide +kernel
theorem test_psub : buf (.psub 2 0 1) c17 2 = [2, 4, 0, 11] ∧ buf (.psub 0 0 0) c17 0 = [0, 0, 0, 0] := by decide +kernel
theorem test_pneg : buf (.pneg 2 0) c17 2 = [16, 15, 14, 1] := by decide +kernel
theorem test_pmulpw : buf (.pmulpw 2 0 1) c17 2 = [16, 13, 9, 12] := by decide +kernel
-- V73
theorem test_ntt : buf (.ntt 0) c17 0 = [9, 3, 0, 9] := by decide +kernel
theorem test_intt : buf (.intt 0) (x17 [] [9, 3, 0, 9] []) 0 = [1, 2, 3, 16] := by decide +kernel
theorem test_nttsh : buf (.nttsh 0) c17 0 = [9, 3, 0, 9] := by decide +kernel
theorem test_inttsh : buf (.inttsh 0) (x17 [] [9, 3, 0, 9] []) 0 = [1, 2, 3, 16] := by decide +kernel
-- V81, V82, T3
theorem test_convnaive : buf (.convnaive 2 0 1) c17 2 = [12, 1, 1, 6] ∧ buf (.convnaive 2 0 1) (x17 [] [0, 0, 0, 1] [0, 1, 0, 0]) 2 = [16, 0, 0, 0] := by decide +kernel
theorem test_conv : buf (.conv 2 0 1) c17 2 = [12, 1, 1, 6] ∧ buf (.conv 0 0 0) c17 0 = [13, 10, 9, 10] := by decide +kernel
theorem test_convsh : buf (.convsh 2 0 1) c17 2 = [12, 1, 1, 6] ∧ buf (.convsh 2 0 1) (x17 [] [1, 1, 0, 0] [1, 1, 0, 0]) 2 = [1, 2, 1, 0] := by decide +kernel

/-! ## The sequencer and reset (section 2.9) -/

-- V18: FAULTCMD is the faulting word, S1 unchanged, pc stays
theorem test_fault_record : (fun t : State => (t.fault, t.cause, t.faultcmd, t.pc, t.sreg[1])) (after (step (State.reset.withFetchWord 32 0x00010104))) =
    (true, 6, 0x00010104#32, 0, 0) := by decide +kernel
-- V90: GET is refused with the recorded cause
theorem test_refusal : (fun t : State => (t.outbox.head?, t.cause, t.pc)) (after (step (f17.withFetchWord 32 0x00001003))) =
    (some { fault := true, cause := 3, data := 0 }, 3, 0) := by decide +kernel
-- V91: reset leaves the faulted state
theorem test_reset_request : (fun t : State => (t.fault, t.cause, t.faultcmd, t.modvalid, t.ctxvalid, t.poly[0].valid))
    (after (step { f17 with inbox := [.reset] })) = (false, 0, 0, false, false, false) := by decide +kernel
-- V7: IllegalCommand in the reset state
theorem test_illegal_step : (fun t : State => (t.fault, t.cause)) (after (step (State.reset.withFetchWord 32 0))) = (true, 5) := by decide +kernel

/-! ## The invariants hold in c17 -/

theorem test_descriptor_c17 : DescriptorOk c17 := by constructor <;> decide +kernel

theorem test_prime_17 : Nat.Prime 17 := by norm_num

theorem test_context_c17 : ContextOk c17 where
  modvalid := by decide +kernel
  prime := test_prime_17
  degree := by decide +kernel
  bound := by decide +kernel
  congruent := by decide +kernel
  tf := by unfold Mem.writtenBelow; decide +kernel
  tfShoup := by unfold Mem.writtenBelow; decide +kernel
  itf := by unfold Mem.writtenBelow; decide +kernel
  itfShoup := by unfold Mem.writtenBelow; decide +kernel
  tf_zero := by decide +kernel
  itf_zero := by decide +kernel

theorem test_degree_four : Degree 4 := ⟨2, by decide, rfl⟩

/-- What BufferOk says of c17, without the degree, which is no decidable proposition. -/
theorem test_buffers_c17 : ∀ p : Buf, c17.poly[p].valid = true →
    p.val < c17.cfg.npoly ∧ c17.poly[p].tq = 17 ∧ c17.poly[p].tn = 4 ∧
      ∀ i < 4, (c17.poly[p].words.find i).isSome = true := by decide +kernel

theorem test_inv_c17 : Inv c17 where
  cfg := by decide +kernel
  canonical := by
    intro m
    cases m with
    | poly p => revert p; decide +kernel
    | _ => decide +kernel
  inside := by
    intro m
    cases m with
    | poly p => revert p; decide +kernel
    | _ => decide +kernel
  descriptor := fun _ => test_descriptor_c17
  context := fun _ => test_context_c17
  buffers := by
    intro p hp
    obtain ⟨h1, h2, h3, h4⟩ := test_buffers_c17 p hp
    have h17 : (17 : Word).toNat = 17 := rfl
    have h4' : (4 : Word).toNat = 4 := rfl
    exact ⟨h1, by rw [h2, h17]; decide, by rw [h2, h17]; decide, by rw [h3, h4']; exact test_degree_four,
      by rw [h3]; decide +kernel, by rw [h3]; exact h4⟩
  faults := ⟨fun _ => by decide +kernel, fun h => absurd h (by decide +kernel)⟩

theorem test_tables_c17 : TablesCanonical c17 ∧ TablesArePowers c17 9 := by
  constructor <;> constructor <;> decide +kernel

theorem test_canonical_c17 : Canonical c17 where
  tables := fun _ _ => ⟨test_tables_c17.1, 9, test_tables_c17.2⟩
  coeffs := by decide +kernel

theorem test_ready_c17 : PolyReady c17 0 ∧ PolyReady c17 1 := by
  constructor <;> constructor <;> decide +kernel

/-! ## Witnesses: states and operands that meet the hypotheses of the statements -/

theorem witness_DecodedWordIsItsEncoding : decode 0x00532619#32 = some (.modmulsh 6 2 3 5) := by decide +kernel

-- in c17, whose inbox holds the word of NTT P0
theorem witness_StepRunsTheDecodedCommand :
    c17.fault = false ∧ c17.inbox = [.cmd 0x00000050#32] ∧ decodeLegal c17.cfg.npoly 0x00000050#32 = some (.ntt 0) := by
  decide +kernel

-- the first slot number that is too high, 4 of 4
theorem witness_IllegalWordRaisesIllegalCommand :
    { c17 with inbox := [.cmd 0x00000440#32] }.fault = false ∧ decodeLegal c17.cfg.npoly 0x00000440#32 = none := by
  decide +kernel

theorem witness_FaultedBlockRefusesEveryWord : f17.fault = true ∧ f17.inbox = [.cmd 0x00000050#32] := by decide +kernel

theorem witness_OnlyResetLeavesTheFaultedState :
    f17.fault = true ∧ (∀ x ∈ f17.inbox, x ≠ HostInput.reset) ∧
      Sys2Proof.core.run 1 f17 = .next (after (Sys2Proof.core.run 1 f17)) :=
  ⟨by decide +kernel, by decide +kernel, rfl⟩

theorem witness_FaultingCommandChangesNothingElse :
    c17.fault = false ∧ exec (.prd 3 3 3) c17 = .next (after (exec (.prd 3 3 3) c17)) ∧
      (after (exec (.prd 3 3 3) c17)).fault = true :=
  ⟨by decide +kernel, eq_next_after (by decide +kernel), by decide +kernel⟩

-- GET and another command
theorem witness_CompletingCommandAdvancesAndAnswers :
    c17.fault = false ∧
    (exec (.get 1) c17 = .next (after (exec (.get 1) c17)) ∧ (after (exec (.get 1) c17)).fault = false) ∧
    (exec (.ntt 0) c17 = .next (after (exec (.ntt 0) c17)) ∧ (after (exec (.ntt 0) c17)).fault = false) :=
  ⟨by decide +kernel, ⟨eq_next_after (by decide +kernel), by decide +kernel⟩,
    eq_next_after (by decide +kernel), by decide +kernel⟩

theorem witness_EveryStepAnswersANextState : Inv c17 := test_inv_c17

theorem witness_ResetClearsTheFlags :
    { f17 with inbox := [.reset, .cmd 0x00000050#32] }.inbox = .reset :: [.cmd 0x00000050#32] := rfl

theorem witness_StepKeepsTheInvariant : Inv c17 ∧ step c17 = .next (after (step c17)) :=
  ⟨test_inv_c17, eq_next_after (by decide +kernel)⟩

theorem witness_StepKeepsCoefficientsCanonical : Inv c17 ∧ Canonical c17 ∧ step c17 = .next (after (step c17)) :=
  ⟨test_inv_c17, test_canonical_c17, eq_next_after (by decide +kernel)⟩

-- a SETMOD meets the first clause, an NTT both
theorem witness_OnlyCtxinitWritesTheContext :
    (exec (.setmod 1) c17 = .next (after (exec (.setmod 1) c17)) ∧ ∀ a b, Instr.setmod 1 ≠ .ctxinit a b) ∧
    (exec (.ntt 0) c17 = .next (after (exec (.ntt 0) c17)) ∧ (∀ a b, Instr.ntt 0 ≠ .ctxinit a b) ∧
      ∀ a, Instr.ntt 0 ≠ .setmod a) :=
  ⟨⟨eq_next_after (by decide +kernel), nofun⟩, eq_next_after (by decide +kernel), nofun, nofun⟩

-- PRD writes a register and draws nothing, PCOPY a buffer
theorem witness_CommandChangesOnlyItsDestination :
    (exec (.prd 3 1 3) c17 = .next (after (exec (.prd 3 1 3) c17)) ∧ (Instr.prd 3 1 3).destReg ≠ some 4 ∧
      (Instr.prd 3 1 3).destBuf ≠ some 1 ∧ ∀ p, Instr.prd 3 1 3 ≠ .prand p) ∧
    (exec (.pcopy 3 1) c17 = .next (after (exec (.pcopy 3 1) c17)) ∧ (Instr.pcopy 3 1).destBuf ≠ some 1) :=
  ⟨⟨eq_next_after (by decide +kernel), by decide, by decide, nofun⟩, eq_next_after (by decide +kernel), by decide⟩

theorem witness_OnlySetmodClearsAValidFlag :
    exec (.setmod 1) c17 = .next (after (exec (.setmod 1) c17)) ∧ c17.modvalid = true ∧ c17.poly[0].valid = true ∧
      c17.ctxvalid = true :=
  ⟨eq_next_after (by decide +kernel), by decide +kernel, by decide +kernel, by decide +kernel⟩

theorem witness_CsrrReadsTheControlRegister :
    c17.modvalid = true ∧ c17.ctxvalid = true ∧ (r0 []).modvalid = false ∧ (r0 []).ctxvalid = false := by decide +kernel

-- the moduli where the clauses meet: 1 and 2, 2^63 - 1 and 2^63
theorem witness_SetmodInstallsTheDescriptor :
    (2 ≤ (r0 [2]).sreg[0].toNat ∧ (r0 [2]).sreg[0].toNat < 2 ^ 63) ∧
    (2 ≤ (r0 [2 ^ 63 - 1]).sreg[0].toNat ∧ (r0 [2 ^ 63 - 1]).sreg[0].toNat < 2 ^ 63) ∧
    (r0 [1]).sreg[0].toNat < 2 ∧ 2 ^ 63 ≤ (r0 [2 ^ 63]).sreg[0].toNat := by decide +kernel

/-- Modulus 2 installed (V35): LOGQ = 1, MU = 2. -/
def d2 : State := { r0 [0, 1] with q := 2, logq := 1, mu := 2, modvalid := true }

-- each clause: no modulus; modulus 2; a source equal to the modulus; a zero to invert
theorem witness_ScalarChecksComeInOrder :
    ((Instr.modmul 4 2 3).residues = some [2, 3] ∧ (r0 []).modvalid = false) ∧
    (d2.modvalid = true ∧ (Instr.modmul 4 2 3).usesBarrett = true ∧ d2.logq.toNat < 2) ∧
    ((d17 [0, 0, 16, 17]).modvalid = true ∧ 2 ≤ (d17 [0, 0, 16, 17]).logq.toNat ∧
      ∃ r ∈ ([2, 3] : List Reg), (d17 [0, 0, 16, 17]).q.toNat ≤ (d17 [0, 0, 16, 17]).sreg[r].toNat) ∧
    ((Instr.modinv 4 2).residues = some [2] ∧ 2 ≤ (d17 []).logq.toNat ∧ 0 < (d17 []).q.toNat ∧ (d17 []).sreg[2] = 0) := by
  decide +kernel

-- the largest residues
theorem witness_AddSubNegAreExact :
    (d17 [0, 0, 16, 0]).modvalid = true ∧ (d17 [0, 0, 16, 0]).sreg[2].toNat < (d17 [0, 0, 16, 0]).q.toNat ∧
      (d17 [0, 0, 16, 0]).sreg[3].toNat < (d17 [0, 0, 16, 0]).q.toNat := by decide +kernel

/-- Modulus 3 installed (V34): the smallest with LOGQ = 2. -/
def d3 : State := { r0 [0, 0, 2, 2] with q := 3, logq := 2, mu := 5, modvalid := true }

theorem witness_ModmulIsTheBarrettFormula :
    d3.modvalid = true ∧ 2 ≤ d3.logq.toNat ∧ d3.sreg[2].toNat < d3.q.toNat ∧ d3.sreg[3].toNat < d3.q.toNat := by
  decide +kernel

-- the ends of the range of moduli
theorem witness_BarrettEstimateIsAtMostTwoLow : (3 ≤ 3 ∧ 3 < 2 ^ 63 ∧ 2 < 3) ∧ 3 ≤ 2 ^ 63 - 1 ∧ 2 ^ 63 - 1 < 2 ^ 63 ∧ 2 ^ 63 - 2 < 2 ^ 63 - 1 := by
  decide +kernel

-- R134: 3 and 2^63 - 25
theorem witness_BarrettIsExactWhenSafe :
    (3 ≤ 3 ∧ 3 < 2 ^ 63 ∧ barrettSafe 3 = true ∧ 2 < 3) ∧
    2 ^ 63 - 25 < 2 ^ 63 ∧ barrettSafe (2 ^ 63 - 25) = true ∧ 2 ^ 63 - 26 < 2 ^ 63 - 25 := by decide +kernel

theorem witness_ModmulIsExactWhenSafe :
    c17.modvalid = true ∧ DescriptorOk c17 ∧ 3 ≤ c17.q.toNat ∧ barrettSafe c17.q.toNat = true ∧
      c17.sreg[4].toNat < c17.q.toNat ∧ c17.sreg[5].toNat < c17.q.toNat :=
  ⟨by decide +kernel, test_descriptor_c17, by decide +kernel, by decide +kernel, by decide +kernel, by decide +kernel⟩

theorem witness_ModexpIsThePowerWhenSafe :
    c17.modvalid = true ∧ DescriptorOk c17 ∧ 3 ≤ c17.q.toNat ∧ barrettSafe c17.q.toNat = true ∧
      c17.sreg[4].toNat < c17.q.toNat :=
  ⟨by decide +kernel, test_descriptor_c17, by decide +kernel, by decide +kernel, by decide +kernel⟩

theorem witness_ModinvIsTheInverseWhenSafe :
    c17.modvalid = true ∧ DescriptorOk c17 ∧ 3 ≤ c17.q.toNat ∧ c17.q.toNat.Prime ∧ barrettSafe c17.q.toNat = true ∧
      c17.sreg[4].toNat < c17.q.toNat ∧ c17.sreg[4].toNat ≠ 0 :=
  ⟨by decide +kernel, test_descriptor_c17, by decide +kernel, test_prime_17, by decide +kernel, by decide +kernel,
    by decide +kernel⟩

-- 490 modulo 491, which is not BarrettSafe
theorem witness_ModexpAndModinvAlwaysComplete :
    barrettSafe 491 = false ∧ (d491 [0, 0, 490, 2]).modvalid = true ∧ 2 ≤ (d491 [0, 0, 490, 2]).logq.toNat ∧
      (d491 [0, 0, 490, 2]).sreg[2].toNat < (d491 [0, 0, 490, 2]).q.toNat ∧ (d491 [0, 0, 490, 2]).sreg[2].toNat ≠ 0 := by
  decide +kernel

theorem witness_ShouppreIsTheScaledQuotient : d2.modvalid = true ∧ d2.sreg[1].toNat < d2.q.toNat := by decide +kernel

-- V29 and V29b: the Shoup word of 13, and another word
theorem witness_ModmulshIsExactForEveryModulus :
    (d17 [0, 0, 9, 13, 0, 14106333703424951235]).modvalid = true ∧ (d17 [0, 0, 9, 13]).q.toNat < 2 ^ 63 ∧
      (d17 [0, 0, 9, 13]).sreg[2].toNat < (d17 [0, 0, 9, 13]).q.toNat ∧
      (d17 [0, 0, 9, 13]).sreg[3].toNat < (d17 [0, 0, 9, 13]).q.toNat ∧
    (d17 [0, 0, 9, 13, 0, 14106333703424951235]).sreg[5].toNat = 13 * 2 ^ 64 / 17 ∧
    (d17 [0, 0, 9, 13]).sreg[5].toNat ≠ 13 * 2 ^ 64 / 17 := by decide +kernel

theorem witness_PrimeFactorsAreExact : 1 ≤ 1 := by decide

/-- S1 and S2 of a state hold any two words: the numbers of the witnesses below are those of such a state. -/
theorem test_any_operands (a n : Nat) (ha : a < 2 ^ 64) (hn : n < 2 ^ 64) :
    (r0 [0, a, n]).sreg[1].toNat = a ∧ (r0 [0, a, n]).sreg[2].toNat = n := by
  simp [r0, regs]; omega

theorem test_degree_bound : Degree (2 ^ 61) := ⟨61, by decide, rfl⟩

-- R164: bits 5, degree 4, candidates 33 and 41; and bits 0, degree 1, candidate 2. R166: from 17, candidates 25, 33, 41
theorem witness_UpwardSearchFindsTheFirstPrime :
    (Degree 4 ∧ 5 < 63 ∧ (2 ^ 5 + 1 + 1 * (2 * 4)).Prime ∧ 2 ^ 5 + 1 + 1 * (2 * 4) < 2 ^ 63 ∧
      ∀ i < 1, ¬ (2 ^ 5 + 1 + i * (2 * 4)).Prime) ∧
    (Degree 1 ∧ 0 < 63 ∧ (2 ^ 0 + 1 + 0 * (2 * 1)).Prime) ∧
    ((17 + 2 * 4 + 2 * (2 * 4)).Prime ∧ ∀ i < 2, ¬ (17 + 2 * 4 + i * (2 * 4)).Prime) := by
  refine ⟨⟨test_degree_four, by norm_num, by norm_num, by norm_num, ?_⟩, ⟨⟨0, by norm_num, rfl⟩, by norm_num, by norm_num⟩,
    by norm_num, ?_⟩
  · intro i hi; interval_cases i; norm_num
  · intro i hi; interval_cases i <;> norm_num

-- R165: bits 5, degree 4, candidates 25 and 17; V43: bits 2, degree 1, candidate 3. R167: from 41, candidates 33, 25, 17
theorem witness_DownwardSearchFindsTheFirstPrime :
    (Degree 4 ∧ (17).Prime ∧ 17 + 1 * (2 * 4) < 2 ^ 63 ∧ (∀ i, 1 ≤ i → i ≤ 1 → ¬ (17 + i * (2 * 4)).Prime) ∧
      5 < 64 ∧ 17 + (1 + 1) * (2 * 4) = 2 ^ 5 + 1) ∧
    ((3).Prime ∧ (∀ i, 1 ≤ i → i ≤ 0 → ¬ (3 + i * (2 * 1)).Prime) ∧ 3 + (0 + 1) * (2 * 1) = 2 ^ 2 + 1) ∧
    ((∀ i, 1 ≤ i → i ≤ 2 → ¬ (17 + i * (2 * 4)).Prime) ∧ 17 + (2 + 1) * (2 * 4) = 41) := by
  refine ⟨⟨test_degree_four, test_prime_17, by norm_num, ?_, by norm_num, by norm_num⟩,
    ⟨by norm_num, fun i h1 h2 => by omega, by norm_num⟩, ?_, by norm_num⟩
  · intro i h1 h2; interval_cases i; norm_num
  · intro i h1 h2; interval_cases i <;> norm_num

-- V48: degree 3 (R163); V42: bits 63, and bits 62 with degree 2^61; bits 64; V46's range; V44: bits 1, degree 1; V47: from 3;
-- the first candidate 2^63 of NPRIMEDN
theorem witness_PrimeSearchesFaultInOrder :
    ¬ Degree 3 ∧ (Degree (2 ^ 61) ∧ 63 ≤ 63 ∧ 64 ≤ 64) ∧
    (62 < 63 ∧ ∀ j, 2 ^ 62 + 1 + j * (2 * 2 ^ 61) < 2 ^ 63 → ¬ (2 ^ 62 + 1 + j * (2 * 2 ^ 61)).Prime) ∧
    (∀ j, (2 ^ 63 - 2) + 2 * 1 + j * (2 * 1) < 2 ^ 63 → ¬ ((2 ^ 63 - 2) + 2 * 1 + j * (2 * 1)).Prime) ∧
    (1 < 64 ∧ ∀ p j, p + (j + 1) * (2 * 1) = 2 ^ 1 + 1 → ¬ p.Prime) ∧ (∀ p j, p + (j + 1) * (2 * 1) = 3 → ¬ p.Prime) ∧
    2 ^ 63 + 2 * 1 ≤ 2 ^ 63 + 2 ∧ 2 ^ 63 + 2 < 2 ^ 64 := by
  refine ⟨?_, ⟨test_degree_bound, by norm_num, by norm_num⟩, ⟨by norm_num, ?_⟩, ?_, ⟨by norm_num, ?_⟩, ?_, by norm_num, by norm_num⟩
  · rintro ⟨k, -, hk⟩
    match k with
    | 0 | 1 => norm_num at hk
    | k + 2 => have := Nat.one_le_two_pow (n := k); rw [pow_add] at hk; omega
  · intro j hj
    obtain rfl : j = 0 := by omega
    norm_num
  · intro j hj; omega
  · intro p j h hp; have := hp.two_le; omega
  · intro p j h hp; have := hp.two_le; omega

-- the prime 17, and the composite 9 of V53
theorem witness_FindrootAnswersTheSmallestRoot :
    (3 ≤ 17 ∧ 17 < 2 ^ 63 ∧ barrettSafe 17 = true ∧ (17).Prime) ∧ 3 ≤ 9 ∧ 9 < 2 ^ 63 ∧ barrettSafe 9 = true :=
  ⟨⟨by decide, by decide, by decide +kernel, test_prime_17⟩, by decide, by decide, by decide +kernel⟩

-- (17, 4), and the composite (9, 4)
theorem witness_FindgenAnswersARootOfOrderTwoN :
    Degree 4 ∧ (2 ≤ 17 ∧ 17 < 2 ^ 63 ∧ 17 % (2 * 4) = 1 ∧ barrettSafe 17 = true ∧ (17).Prime) ∧
      2 ≤ 9 ∧ 9 < 2 ^ 63 ∧ 9 % (2 * 4) = 1 ∧ barrettSafe 9 = true :=
  ⟨test_degree_four, ⟨by decide, by decide, by decide, by decide +kernel, test_prime_17⟩, by decide, by decide, by decide,
    by decide +kernel⟩

theorem test_prime_7681 : Nat.Prime 7681 := by norm_num

-- V52 and V56: q = 1, 2^63, 2 and (17, 16); outside BarrettSafe the prime 7681 and the composite 235
theorem witness_RootSearchesFaultInOrder :
    (r0 [0, 1]).sreg[1].toNat < 2 ∧ 2 ^ 63 ≤ (r0 [0, 2 ^ 63]).sreg[1].toNat ∧ (r0 [0, 2]).sreg[1].toNat = 2 ∧
      (Degree 16 ∧ 17 % (2 * 16) ≠ 1) ∧
      (barrettSafe 7681 = false ∧ 3 ≤ 7681 ∧ 7681 < 2 ^ 63 ∧ Degree 256 ∧ 7681 % (2 * 256) = 1 ∧ (7681).Prime) ∧
      barrettSafe 235 = false ∧ 235 % (2 * 1) = 1 ∧ ¬ (235).Prime :=
  ⟨by decide +kernel, by decide +kernel, by decide +kernel, ⟨⟨4, by decide, rfl⟩, by decide⟩,
    ⟨by decide +kernel, by decide, by decide, ⟨8, by decide, rfl⟩, by decide, test_prime_7681⟩, by decide +kernel, by decide,
    by norm_num⟩

theorem witness_BitReversalIsAnInvolution : 0 < 2 ^ 0 ∧ 6 < 2 ^ 3 := by decide

-- (17, 4), and (7681, 256) of R197 outside BarrettSafe
theorem witness_CtxinitBuildsTheContext :
    ((17).Prime ∧ 17 < 2 ^ 63 ∧ Degree 4 ∧ 4 ≤ (r0 []).cfg.nmax ∧ 17 % (2 * 4) = 1 ∧ barrettSafe 17 = true) ∧
      (7681).Prime ∧ 7681 < 2 ^ 63 ∧ Degree 256 ∧ 256 ≤ (r0 []).cfg.nmax ∧ 7681 % (2 * 256) = 1 ∧ barrettSafe 7681 = false :=
  ⟨⟨test_prime_17, by decide, test_degree_four, by decide +kernel, by decide, by decide +kernel⟩, test_prime_7681, by decide,
    ⟨8, by decide, rfl⟩, by decide +kernel, by decide, by decide +kernel⟩

-- V67: degree 2048 above NMAX; V67a: (1, 1), (17, 16) and the composite 25 ≡ 1 (mod 8)
theorem witness_CtxinitChecksComeInOrder :
    c17.cfg.nmax ≤ 2 ^ 61 ∧ ¬ (Degree 2048 ∧ 2048 ≤ c17.cfg.nmax) ∧ (Degree 4 ∧ 4 ≤ c17.cfg.nmax) ∧
      1 < 2 ∧ 17 % (2 * 16) ≠ 1 ∧ (25 % (2 * 4) = 1 ∧ ¬ (25).Prime) := by
  refine ⟨by decide +kernel, fun h => absurd h.2 (by decide +kernel), ⟨test_degree_four, by decide +kernel⟩, by norm_num,
    by norm_num, by norm_num, by norm_num⟩

-- from a context and from the reset state
theorem witness_ContextDependsOnlyOnItsOperands :
    exec (.ctxinit 1 2) c17 = .next (after (exec (.ctxinit 1 2) c17)) ∧
    exec (.ctxinit 3 4) (r0 [0, 0, 0, 17, 4]) = .next (after (exec (.ctxinit 3 4) (r0 [0, 0, 0, 17, 4]))) ∧
    (after (exec (.ctxinit 1 2) c17)).fault = false ∧
    (after (exec (.ctxinit 3 4) (r0 [0, 0, 0, 17, 4]))).fault = false ∧
    c17.sreg[1] = (r0 [0, 0, 0, 17, 4]).sreg[3] ∧ c17.sreg[2] = (r0 [0, 0, 0, 17, 4]).sreg[4] ∧
    barrettSafe c17.sreg[1].toNat = true :=
  ⟨eq_next_after (by decide +kernel), eq_next_after (by decide +kernel), by decide +kernel, by decide +kernel,
    by decide +kernel, by decide +kernel, by decide +kernel⟩

-- index 3 and index 4 of 4 words
theorem witness_TwrdReadsATableWord :
    c17.n.toNat ≤ c17.cfg.nmax ∧ (c17.ctxvalid = true ∧ c17.sreg[5].toNat < c17.n.toNat) ∧ (d17 []).ctxvalid = false ∧
      c17.n.toNat ≤ c17.sreg[2].toNat := by decide +kernel

/-- P0 carries the tag of another context. -/
def m17 : State := { c17 with poly := c17.poly.set 0 { p17 [0] with tq := 97, tn := 8 } }

-- no context; P3 never written; P0 stranded by a context change
theorem witness_PolyCheckComesInOrder :
    (Instr.padd 2 0 3).polySources = some [0, 3] ∧ (d17 []).ctxvalid = false ∧
    (c17.ctxvalid = true ∧ ∃ p ∈ ([0, 3] : List Buf), c17.poly[p].valid = false) ∧
    ((Instr.padd 2 0 1).polySources = some [0, 1] ∧ m17.ctxvalid = true ∧
      (∀ p ∈ ([0, 1] : List Buf), m17.poly[p].valid = true) ∧
      ∃ p ∈ ([0, 1] : List Buf), m17.poly[p].tq ≠ m17.q ∨ m17.poly[p].tn ≠ m17.n) := by decide +kernel

theorem witness_PzeroMakesTheZeroPolynomial : c17.ctxvalid = true ∧ c17.n.toNat ≤ c17.cfg.nmax := by decide +kernel

-- with the four answers of V85 ready, 16 the largest in range
theorem witness_PrandDrawsNonzeroResidues :
    c17.ctxvalid = true ∧ c17.n.toNat ≤ c17.cfg.nmax ∧ 1 < c17.q.toNat ∧
      ∀ i < 4, ∃ v, ([5, 16, 1, 9] : List Word)[i]? = some v ∧ 1 ≤ v.toNat ∧ v.toNat < c17.q.toNat := by
  refine ⟨by decide +kernel, by decide +kernel, by decide +kernel, ?_⟩
  intro i hi
  interval_cases i
  · exact ⟨5, rfl, by decide +kernel, by decide +kernel⟩
  · exact ⟨16, rfl, by decide +kernel, by decide +kernel⟩
  · exact ⟨1, rfl, by decide +kernel, by decide +kernel⟩
  · exact ⟨9, rfl, by decide +kernel, by decide +kernel⟩

-- index 3, value 16
theorem witness_PwrAndPrdAccessOneWord :
    PolyReady c17 0 ∧ c17.sreg[5].toNat < c17.n.toNat ∧ c17.sreg[4].toNat < c17.q.toNat :=
  ⟨test_ready_c17.1, by decide +kernel, by decide +kernel⟩

-- index 4 = N; index 3 with the value 17 = q
theorem witness_CoefficientChecksComeInOrder :
    PolyReady c17 0 ∧ c17.n.toNat ≤ c17.sreg[2].toNat ∧ c17.sreg[5].toNat < c17.n.toNat ∧
      c17.q.toNat ≤ c17.sreg[1].toNat :=
  ⟨test_ready_c17.1, by decide +kernel, by decide +kernel, by decide +kernel⟩

theorem witness_PcopyCopiesWordsAndTag :
    (c17.poly[1].valid = true ∧ c17.poly[1].tn.toNat ≤ c17.cfg.nmax) ∧ c17.poly[3].valid = false := by decide +kernel

theorem witness_ElementwiseSumsAreExact :
    PolyReady c17 0 ∧ PolyReady c17 1 ∧ (∀ i < c17.n.toNat, c17.coeff 0 i < c17.q.toNat) ∧
      ∀ i < c17.n.toNat, c17.coeff 1 i < c17.q.toNat :=
  ⟨test_ready_c17.1, test_ready_c17.2, by decide +kernel, by decide +kernel⟩

theorem witness_PmulpwIsOneBarrettPerWord :
    Inv c17 ∧ PolyReady c17 0 ∧ PolyReady c17 1 ∧ (∀ i < c17.n.toNat, c17.coeff 0 i < c17.q.toNat) ∧
      (∀ i < c17.n.toNat, c17.coeff 1 i < c17.q.toNat) ∧ barrettSafe c17.q.toNat = true :=
  ⟨test_inv_c17, test_ready_c17.1, test_ready_c17.2, by decide +kernel, by decide +kernel, by decide +kernel⟩

theorem witness_PolynomialCommandsCompleteOnAnyWords : Inv c17 ∧ PolyReady c17 0 ∧ PolyReady c17 1 :=
  ⟨test_inv_c17, test_ready_c17.1, test_ready_c17.2⟩

-- also the hypotheses of ConvnaiveIsTheNegacyclicProduct and TheThreeConvolutionsAgree
theorem witness_ShoupVariantsEqualPlainOnes :
    Inv c17 ∧ Canonical c17 ∧ barrettSafe c17.q.toNat = true ∧ PolyReady c17 0 ∧ PolyReady c17 1 :=
  ⟨test_inv_c17, test_canonical_c17, by decide +kernel, test_ready_c17.1, test_ready_c17.2⟩

theorem witness_ConvnaiveIsTheNegacyclicProduct :
    Inv c17 ∧ Canonical c17 ∧ barrettSafe c17.q.toNat = true ∧ PolyReady c17 0 ∧ PolyReady c17 1 :=
  witness_ShoupVariantsEqualPlainOnes

theorem witness_TheThreeConvolutionsAgree :
    Inv c17 ∧ Canonical c17 ∧ barrettSafe c17.q.toNat = true ∧ PolyReady c17 0 ∧ PolyReady c17 1 :=
  witness_ShoupVariantsEqualPlainOnes

/-- The context (7681, 2), outside BarrettSafe, with the largest residues in P0: the root is 17^1920 = 3383 (R196). -/
def x7681 : State :=
  { r0 [] with
    q := 7681, logq := 13, mu := 8736, modvalid := true, n := 2, logn := 1, ctxvalid := true
    invN := 3841, invNShoup := 9224572840400779554
    tf := cells [1, 3383], tfShoup := cells [2401607092007492, 8124636792261347886]
    itf := cells [1, 4298], itfShoup := cells [2401607092007492, 10322107281448203729]
    poly := State.reset.poly.set 0 { valid := true, tq := 7681, tn := 2, words := cells [7680, 7680] } }

theorem test_buffers_x7681 : ∀ p : Buf, x7681.poly[p].valid = true →
    p.val < x7681.cfg.npoly ∧ x7681.poly[p].tq = 7681 ∧ x7681.poly[p].tn = 2 ∧
      ∀ i < 2, (x7681.poly[p].words.find i).isSome = true := by decide +kernel

theorem test_inv_x7681 : Inv x7681 where
  cfg := by decide +kernel
  canonical := by
    intro m
    cases m with
    | poly p => revert p; decide +kernel
    | _ => decide +kernel
  inside := by
    intro m
    cases m with
    | poly p => revert p; decide +kernel
    | _ => decide +kernel
  descriptor := fun _ => by constructor <;> decide +kernel
  context := fun _ => ⟨by decide +kernel, test_prime_7681, by decide +kernel, by decide +kernel, by decide +kernel,
    by unfold Mem.writtenBelow; decide +kernel, by unfold Mem.writtenBelow; decide +kernel,
    by unfold Mem.writtenBelow; decide +kernel, by unfold Mem.writtenBelow; decide +kernel, by decide +kernel, by decide +kernel⟩
  buffers := by
    intro p hp
    obtain ⟨h1, h2, h3, h4⟩ := test_buffers_x7681 p hp
    have hq : (7681 : Word).toNat = 7681 := rfl
    have hn : (2 : Word).toNat = 2 := rfl
    exact ⟨h1, by rw [h2, hq]; decide, by rw [h2, hq]; decide, by rw [h3, hn]; exact ⟨1, by decide, rfl⟩,
      by rw [h3]; decide +kernel, by rw [h3]; exact h4⟩
  faults := ⟨fun _ => by decide +kernel, fun h => absurd h (by decide +kernel)⟩

-- the context (17, 4) with BarrettSafe, and (7681, 2) without
theorem witness_NttEvaluatesAtTheOddPowers :
    (Inv c17 ∧ PolyReady c17 0 ∧ TablesCanonical c17 ∧ TablesArePowers c17 9 ∧
      (∀ i < c17.n.toNat, c17.coeff 0 i < c17.q.toNat) ∧ barrettSafe c17.q.toNat = true) ∧
    Inv x7681 ∧ PolyReady x7681 0 ∧ TablesCanonical x7681 ∧ TablesArePowers x7681 3383 ∧
      (∀ i < x7681.n.toNat, x7681.coeff 0 i < x7681.q.toNat) ∧ barrettSafe x7681.q.toNat = false :=
  ⟨⟨test_inv_c17, test_ready_c17.1, test_tables_c17.1, test_tables_c17.2, by decide +kernel, by decide +kernel⟩,
    test_inv_x7681, by constructor <;> decide +kernel, by constructor <;> decide +kernel,
    by constructor <;> decide +kernel, by decide +kernel, by decide +kernel⟩

-- one pair of each direction
theorem witness_TransformsUndoEachOther :
    Inv c17 ∧ Canonical c17 ∧ barrettSafe c17.q.toNat = true ∧ PolyReady c17 0 ∧
    (Instr.ntt 0 ∈ [Instr.ntt 0, .nttsh 0] ∧ Instr.inttsh 0 ∈ [Instr.intt 0, .inttsh 0] ∧
      exec (.ntt 0) c17 = .next (after (exec (.ntt 0) c17)) ∧
      exec (.inttsh 0) (after (exec (.ntt 0) c17)) = .next (after (exec (.inttsh 0) (after (exec (.ntt 0) c17))))) ∧
    (Instr.intt 0 ∈ [Instr.intt 0, .inttsh 0] ∧ Instr.ntt 0 ∈ [Instr.ntt 0, .nttsh 0] ∧
      exec (.intt 0) c17 = .next (after (exec (.intt 0) c17)) ∧
      exec (.ntt 0) (after (exec (.intt 0) c17)) = .next (after (exec (.ntt 0) (after (exec (.intt 0) c17))))) :=
  ⟨test_inv_c17, test_canonical_c17, by decide +kernel, test_ready_c17.1,
    ⟨by decide, by decide, eq_next_after (by decide +kernel), eq_next_after (by decide +kernel)⟩,
    by decide, by decide, eq_next_after (by decide +kernel), eq_next_after (by decide +kernel)⟩

end Sys2Proof.Tests
end

/-! # Every command and every step answers a next state (O11)

The one stop of the model is the fault `noSuchWord` (assumption log 15). An action is shown to stay inside the memories
check by check; the bounds this needs are two clauses of the invariant, `WithinMemory`. -/

namespace Sys2Proof.Machine

/-! ## Actions that never stop the model -/

/-- The action ends in a state or in a fault of the block: it reaches no index where no word exists. -/
def StaysInside {α : Type} (a : Except Stop α) : Prop := a ≠ .error .noSuchWord

@[simp] theorem staysInside_ok {α : Type} (x : α) : StaysInside (.ok x) := nofun

@[simp] theorem staysInside_pure {α : Type} (x : α) : StaysInside (pure x) := staysInside_ok x

@[simp] theorem staysInside_raised {α : Type} (c : Cause) : StaysInside (α := α) (.error (.raised c)) := nofun

/-- A sequence stays inside when its first part does and the rest does from whatever the first part gives. -/
@[simp] theorem staysInside_bind {α β : Type} (a : Except Stop α) (k : α → Except Stop β) :
    StaysInside (a >>= k) ↔ StaysInside a ∧ ∀ x, a = .ok x → StaysInside (k x) := by
  cases a with
  | ok x => simp [bind, Except.bind]
  | error e => simp [bind, Except.bind, StaysInside]

@[simp] theorem staysInside_map {α β : Type} (f : α → β) (a : Except Stop α) :
    StaysInside (f <$> a) ↔ StaysInside a := by
  cases a with
  | ok x => exact iff_of_true (staysInside_ok (f x)) (staysInside_ok x)
  | error e => simp [Functor.map, Except.map, StaysInside]

/-- The shape of a command's outcome: a next state exactly where its action stays inside the memories. -/
@[simp] theorem commit_eq_next_iff_staysInside (s : State) (a : Action) :
    (∃ t, commit s a = .next t) ↔ StaysInside a := by
  match a with
  | .ok t => simp
  | .error (.raised c) => simp
  | .error .noSuchWord => simp [StaysInside]

/-! ## The checks raise causes of the block only -/

@[simp] theorem staysInside_ensure (b : Bool) (c : Cause) : StaysInside (ensure b c) := by
  cases b
  · exact staysInside_raised c
  · exact staysInside_ok ()

@[simp] theorem staysInside_needDescriptor (s : State) : StaysInside s.needDescriptor := staysInside_ensure _ _

@[simp] theorem staysInside_needContext (s : State) : StaysInside s.needContext := staysInside_ensure _ _

@[simp] theorem staysInside_needValid (s : State) (p : Buf) : StaysInside (s.needValid p) := staysInside_ensure _ _

@[simp] theorem staysInside_needShift (s : State) : StaysInside s.needShift := staysInside_ensure _ _

@[simp] theorem staysInside_needResidue (s : State) (r : Reg) : StaysInside (s.needResidue r) := staysInside_ensure _ _

@[simp] theorem staysInside_needTag (s : State) (p : Buf) : StaysInside (s.needTag p) := staysInside_ensure _ _

@[simp] theorem staysInside_needDegree (n bound : Nat) : StaysInside (needDegree n bound) := staysInside_ensure _ _

@[simp] theorem staysInside_needModulus (q : Nat) : StaysInside (needModulus q) := staysInside_ensure _ _

@[simp] theorem staysInside_needCongruent (q n : Nat) : StaysInside (needCongruent q n) := staysInside_ensure _ _

@[simp] theorem staysInside_needReadable (s : State) (c : Csr) : StaysInside (s.needReadable c) := by
  cases c with
  | status | nmax | npoly => exact staysInside_ok ()
  | q | logq | mu => exact staysInside_needDescriptor s
  | n | logn | invN | invNShoup => exact staysInside_needContext s

@[simp] theorem staysInside_polyCheck1 (s : State) (p : Buf) : StaysInside (s.polyCheck1 p) := by
  simp [State.polyCheck1]

@[simp] theorem staysInside_polyCheck2 (s : State) (p r : Buf) : StaysInside (s.polyCheck2 p r) := by
  simp [State.polyCheck2]

/-! ## The searches end in a value or in SearchExhausted -/

@[simp] theorem staysInside_takePrime (r : Option Nat) : StaysInside (takePrime r) := by
  cases r with
  | none => exact staysInside_raised _
  | some p => exact staysInside_ok p

@[simp] theorem staysInside_takeRoot (r : Scan) : StaysInside (takeRoot r) := by
  obtain ⟨g, -, h⟩ | ⟨-, h⟩ | ⟨-, h⟩ := takeRoot_cases r <;> simp [h]

@[simp] theorem staysInside_takeRootContext (s : State) (r : Scan) : StaysInside (takeRootContext s r) := by
  obtain ⟨g, -, h⟩ | ⟨-, h⟩ | ⟨-, h⟩ := takeRootContext_cases s r <;> simp [h]

/-! ## Accesses inside the memories -/

/-- What of the invariant keeps every access below NMAX (20_memory.md R60, R62): the context in force and the tag of
every valid buffer have a degree of at most NMAX. -/
structure WithinMemory (s : State) : Prop where
  context : s.ctxvalid = true → s.n.toNat ≤ s.cfg.nmax
  buffers : ∀ p : Buf, s.poly[p].valid = true → s.poly[p].tn.toNat ≤ s.cfg.nmax

theorem Inv.withinMemory {s : State} (h : Inv s) : WithinMemory s where
  context hc := (h.context hc).bound
  buffers p hp := (h.buffers p hp).bound

/-- Taking a command word off the inbox changes nothing the bounds speak of. -/
theorem WithinMemory.withCommand {s : State} (h : WithinMemory s) (rest : List HostInput) (w : CmdWord) :
    WithinMemory { s with inbox := rest, cmd := w } := ⟨h.context, h.buffers⟩

theorem staysInside_wordsExist {s : State} {n : Nat} (h : n ≤ s.cfg.nmax) : StaysInside (s.wordsExist n) := by
  simp [State.wordsExist, h]

theorem staysInside_needIndex {s : State} (h : s.n.toNat ≤ s.cfg.nmax) (r : Reg) : StaysInside (s.needIndex r) := by
  refine (staysInside_bind _ _).mpr ⟨staysInside_ensure _ _, fun _ hr => staysInside_wordsExist ?_⟩
  have hlt : s.nat r < s.n.toNat := of_decide_eq_true (ensure_eq_ok.mp hr)
  omega

/-- A sequence that begins with the context check passes it only with a context in force. -/
theorem ctxvalid_of_needContext_bind {α : Type} {s : State} {k : Unit → Except Stop α} {x : α}
    (h : (s.needContext >>= k) = .ok x) : s.ctxvalid = true := by
  rw [needContext_bind] at h
  split at h
  · assumption
  · cases h

theorem ctxvalid_of_polyCheck1 {s : State} {p : Buf} {x : Unit} (h : s.polyCheck1 p = .ok x) : s.ctxvalid = true :=
  ctxvalid_of_needContext_bind h

theorem ctxvalid_of_polyCheck2 {s : State} {p r : Buf} {x : Unit} (h : s.polyCheck2 p r = .ok x) : s.ctxvalid = true :=
  ctxvalid_of_needContext_bind h

section Commands

variable {s : State} (h : WithinMemory s)
include h

/-- A command whose check passes only with a context in force answers a next state, when its access stays inside the
memories for a degree of at most NMAX. -/
theorem check_access_answers {check access : Except Stop Unit} (result : State) (hcheck : StaysInside check)
    (hctx : ∀ x, check = .ok x → s.ctxvalid = true) (haccess : s.n.toNat ≤ s.cfg.nmax → StaysInside access) :
    ∃ t, commit s (do check; access; return result) = .next t := by
  rw [commit_eq_next_iff_staysInside, staysInside_bind]
  refine ⟨hcheck, fun x hx => ?_⟩
  rw [staysInside_bind]
  exact ⟨haccess (h.context (hctx x hx)), fun _ _ => staysInside_ok result⟩

theorem context_words_answers (result : State) :
    ∃ t, commit s (do s.needContext; s.wordsExist s.n.toNat; return result) = .next t :=
  check_access_answers h result (staysInside_needContext s) (fun _ => ensure_eq_ok.mp) staysInside_wordsExist

theorem polyCheck1_words_answers (p : Buf) (result : State) :
    ∃ t, commit s (do s.polyCheck1 p; s.wordsExist s.n.toNat; return result) = .next t :=
  check_access_answers h result (staysInside_polyCheck1 s p) (fun _ => ctxvalid_of_polyCheck1) staysInside_wordsExist

theorem polyCheck2_words_answers (p r : Buf) (result : State) :
    ∃ t, commit s (do s.polyCheck2 p r; s.wordsExist s.n.toNat; return result) = .next t :=
  check_access_answers h result (staysInside_polyCheck2 s p r) (fun _ => ctxvalid_of_polyCheck2) staysInside_wordsExist

theorem execTwrd_answers (rd : Reg) (tbl : Tbl) (rs1 : Reg) : ∃ t, execTwrd rd tbl rs1 s = .next t :=
  check_access_answers h _ (staysInside_needContext s) (fun _ => ensure_eq_ok.mp) (staysInside_needIndex · rs1)

theorem execPrd_answers (rd : Reg) (pa : Buf) (rs2 : Reg) : ∃ t, execPrd rd pa rs2 s = .next t :=
  check_access_answers h _ (staysInside_polyCheck1 s pa) (fun _ => ctxvalid_of_polyCheck1) (staysInside_needIndex · rs2)

/-- PWR tests its index before its value and the word's existence last (43_polynomial_ring.md R225). -/
theorem execPwr_answers (pd : Buf) (rs1 rs2 : Reg) : ∃ t, execPwr pd rs1 rs2 s = .next t := by
  simp only [execPwr, commit_eq_next_iff_staysInside, staysInside_bind, staysInside_polyCheck1, staysInside_ensure,
    staysInside_needResidue, staysInside_pure, true_and, implies_true, and_true]
  intro _ hcheck _ hindex _ _
  have hn : s.n.toNat ≤ s.cfg.nmax := h.context (ctxvalid_of_polyCheck1 hcheck)
  have hlt : s.nat rs1 < s.n.toNat := of_decide_eq_true (ensure_eq_ok.mp hindex)
  exact staysInside_wordsExist (by omega)

/-- PCOPY needs no context: the source's own tag bounds its words (R227). -/
theorem execPcopy_answers (pd pa : Buf) : ∃ t, execPcopy pd pa s = .next t := by
  simp only [execPcopy, commit_eq_next_iff_staysInside, staysInside_bind, staysInside_needValid, staysInside_pure,
    true_and, implies_true, and_true]
  intro _ hvalid
  exact staysInside_wordsExist (h.buffers pa (ensure_eq_ok.mp hvalid))

/-- The commands up to CTXINIT can end early only in a check or a search. The others access words below the degree of the
context or of their source, after the check that makes that degree one of `WithinMemory`. -/
theorem exec_answers (i : Instr) : ∃ t, exec i s = .next t := by
  cases i with
  | get => exact ⟨_, rfl⟩
  | movz | movk | csrr => simp [exec, execMovz, execMovk, execCsrr]
  | setmod | modadd | modsub | modneg | shouppre | modmulsh =>
    simp [exec, execSetmod, execModadd, execModsub, execModneg, execShouppre, execModmulsh]
  | modmul | modsqr | modexp | modinv => simp [exec, execModmul, execModsqr, execModexp, execModinv]
  | fprimeup | fprimedn | nprimeup | nprimedn =>
    simp [exec, execFprimeup, execFprimedn, execNprimeup, execNprimedn]
  | findroot | findgen | ctxinit => simp [exec, execFindroot, execFindgen, execCtxinit]
  | twrd rd tbl rs1 => exact execTwrd_answers h rd tbl rs1
  | prd rd pa rs2 => exact execPrd_answers h rd pa rs2
  | pwr pd rs1 rs2 => exact execPwr_answers h pd rs1 rs2
  | pcopy pd pa => exact execPcopy_answers h pd pa
  | pzero | prand => exact context_words_answers h _
  | pneg pd p | ntt p | intt p | nttsh p | inttsh p => exact polyCheck1_words_answers h p _
  | padd pd pa pb | psub pd pa pb | pmulpw pd pa pb | convnaive pd pa pb | conv pd pa pb | convsh pd pa pb =>
    exact polyCheck2_words_answers h pa pb _

/-- A word is refused, raises IllegalCommand or is executed (60_exceptions.md R326). -/
theorem runWord_answers (w : CmdWord) (rest : List HostInput) : ∃ t, runWord w { s with inbox := rest } = .next t := by
  unfold runWord
  split
  · exact ⟨_, rfl⟩
  · split
    · exact ⟨_, rfl⟩
    · exact exec_answers (h.withCommand rest w) _

theorem step_answers : ∃ t, step s = .next t := by
  unfold step takeInput
  split
  · exact ⟨_, rfl⟩
  · exact ⟨_, rfl⟩
  · exact runWord_answers h _ _

end Commands

/-- Settles O11: the invariant bounds every degree by NMAX, so no command reaches an index where no word exists. -/
theorem everyStepAnswersANextState : Obligations.EveryStepAnswersANextState := by
  unfold Obligations.EveryStepAnswersANextState
  intro s hinv
  exact ⟨exec_answers hinv.withinMemory, step_answers hinv.withinMemory⟩

end Sys2Proof.Machine

/-! # Reset (O12, O13)

Power-on and a RESET request leave the same block state; `Cleared` is what the statements need of it. -/

namespace Sys2Proof.Machine

/-- The block as 10_state.md R49 leaves it: pc, the fault registers and every valid flag 0, no word written. -/
structure Cleared (s : State) : Prop where
  pc : s.pc = 0
  fault : s.fault = false
  cause : s.cause = 0
  faultcmd : s.faultcmd = 0
  modvalid : s.modvalid = false
  ctxvalid : s.ctxvalid = false
  poly : ∀ p : Buf, s.poly[p].valid = false
  mem : ∀ m : Space, s.mem m = []

theorem cleared_reset : Cleared State.reset :=
  ⟨rfl, rfl, rfl, rfl, rfl, rfl, by simp [State.reset, Poly.reset], State.mem_reset⟩

theorem State.mem_resetBlock (s : State) (m : Space) : s.resetBlock.mem m = State.reset.mem m := by cases m <;> rfl

theorem cleared_resetBlock (s : State) : Cleared s.resetBlock :=
  ⟨rfl, rfl, rfl, rfl, rfl, rfl, cleared_reset.poly, fun m => (s.mem_resetBlock m).trans (cleared_reset.mem m)⟩

theorem step_reset {s : State} {rest : List HostInput} (h : s.inbox = .reset :: rest) :
    step s = .next { s with inbox := rest }.resetBlock := by
  simp [step, takeInput, h]

/-- Settles O12. -/
theorem resetClearsTheFlags : Obligations.ResetClearsTheFlags := by
  have flags : ∀ t : State, Cleared t → t.pc = 0 ∧ t.fault = false ∧ t.cause = 0 ∧ t.faultcmd = 0 ∧
      t.modvalid = false ∧ t.ctxvalid = false ∧ ∀ p : Buf, t.poly[p].valid = false :=
    fun _ h => ⟨h.pc, h.fault, h.cause, h.faultcmd, h.modvalid, h.ctxvalid, h.poly⟩
  exact ⟨flags _ cleared_reset, fun s rest h => ⟨_, step_reset h, flags _ (cleared_resetBlock _), rfl, rfl, rfl⟩⟩

/-- With every flag 0 and no word written the invariant asks of the parameters only. -/
theorem Cleared.inv {s : State} (h : Cleared s) (hcfg : s.cfg.ok) : Inv s where
  cfg := hcfg
  canonical m := by simp [h.mem m, Mem.wf]
  inside m := by simp [h.mem m]
  descriptor hv := absurd hv (ne_true_of_eq_false h.modvalid)
  context hv := absurd hv (ne_true_of_eq_false h.ctxvalid)
  buffers p hv := absurd hv (ne_true_of_eq_false (h.poly p))
  faults := ⟨fun _ => ⟨h.cause, h.faultcmd⟩, fun hf => absurd hf (ne_true_of_eq_false h.fault)⟩

theorem Cleared.canonical {s : State} (h : Cleared s) : Canonical s where
  tables hv := absurd hv (ne_true_of_eq_false h.ctxvalid)
  coeffs p hv := absurd hv (ne_true_of_eq_false (h.poly p))

/-- Settles O13: the reference parameters are in range, and reset clears every flag. -/
theorem invariantsHoldAtReset : Obligations.InvariantsHoldAtReset := by
  unfold Obligations.InvariantsHoldAtReset
  exact ⟨cleared_reset.inv (by decide), cleared_reset.canonical⟩

end Sys2Proof.Machine

/-! # What a completing command does (O10, O18)

`exec_ends` says once what can become of a command: it raises a fault, or it completes and its work is one of the nine
forms of `Effect`. The statements about every command are derived from that. -/

namespace Sys2Proof.Machine

/-! ## What an action gives when no check ends it -/

/-- Whatever the action ends in, when no check ends it early, meets P. -/
def Gives {α : Type} (a : Except Stop α) (P : α → Prop) : Prop := ∀ x, a = .ok x → P x

@[simp] theorem gives_ok {α : Type} (x : α) (P : α → Prop) : Gives (.ok x) P ↔ P x := by simp [Gives]

@[simp] theorem gives_pure {α : Type} (x : α) (P : α → Prop) : Gives (pure x) P ↔ P x := gives_ok x P

@[simp] theorem gives_error {α : Type} (e : Stop) (P : α → Prop) : Gives (.error e) P := nofun

/-- A sequence gives what its rest gives from whatever its first part gives. -/
@[simp] theorem gives_bind {α β : Type} (a : Except Stop α) (k : α → Except Stop β) (P : β → Prop) :
    Gives (a >>= k) P ↔ Gives a fun x => Gives (k x) P := by
  cases a with
  | ok x => rw [gives_ok]; rfl
  | error e => exact iff_of_true (gives_error e P) (gives_error e _)

@[simp] theorem gives_map {α β : Type} (f : α → β) (a : Except Stop α) (P : β → Prop) :
    Gives (f <$> a) P ↔ Gives a fun x => P (f x) := by
  cases a with
  | ok x => rw [gives_ok]; exact gives_ok (f x) P
  | error e => exact iff_of_true (gives_error e P) (gives_error e _)

/-- What the rest gives whatever comes before it, the sequence gives. -/
theorem gives_after {α β : Type} {a : Except Stop α} {k : α → Except Stop β} {P : β → Prop}
    (h : ∀ x, Gives (k x) P) : Gives (a >>= k) P := (gives_bind a k P).mpr fun x _ => h x

/-! ### The checks: what holds once they are passed -/

@[simp] theorem gives_ensure (b : Bool) (c : Cause) (P : Unit → Prop) :
    Gives (ensure b c) P ↔ (b = true → P ()) := by
  cases b <;> simp [ensure]

@[simp] theorem gives_needContext (s : State) (P : Unit → Prop) :
    Gives s.needContext P ↔ (s.ctxvalid = true → P ()) := gives_ensure _ _ P

@[simp] theorem gives_needValid (s : State) (p : Buf) (P : Unit → Prop) :
    Gives (s.needValid p) P ↔ (s.poly[p].valid = true → P ()) := gives_ensure _ _ P

@[simp] theorem gives_needTag (s : State) (p : Buf) (P : Unit → Prop) :
    Gives (s.needTag p) P ↔ (s.poly[p].tq = s.q → s.poly[p].tn = s.n → P ()) := by simp [State.needTag]

@[simp] theorem gives_needResidue (s : State) (r : Reg) (P : Unit → Prop) :
    Gives (s.needResidue r) P ↔ (s.nat r < s.q.toNat → P ()) := by simp [State.needResidue]

@[simp] theorem gives_needDegree (n bound : Nat) (P : Unit → Prop) :
    Gives (needDegree n bound) P ↔ (isPow2 n = true → n ≤ bound → P ()) := by simp [needDegree]

@[simp] theorem gives_needModulus (q : Nat) (P : Unit → Prop) :
    Gives (needModulus q) P ↔ (2 ≤ q → q < two63 → P ()) := by simp [needModulus]

@[simp] theorem gives_needCongruent (q n : Nat) (P : Unit → Prop) :
    Gives (needCongruent q n) P ↔ (q % (2 * n) = 1 → P ()) := by simp [needCongruent]

@[simp] theorem gives_wordsExist (s : State) (n : Nat) (P : Unit → Prop) :
    Gives (s.wordsExist n) P ↔ (n ≤ s.cfg.nmax → P ()) := by
  unfold State.wordsExist; split <;> simp_all

@[simp] theorem gives_polyCheck1 (s : State) (p : Buf) (P : Unit → Prop) :
    Gives (s.polyCheck1 p) P ↔
      (s.ctxvalid = true → s.poly[p].valid = true → s.poly[p].tq = s.q → s.poly[p].tn = s.n → P ()) := by
  simp [State.polyCheck1]

@[simp] theorem gives_polyCheck2 (s : State) (p r : Buf) (P : Unit → Prop) :
    Gives (s.polyCheck2 p r) P ↔
      (s.ctxvalid = true → s.poly[p].valid = true → s.poly[r].valid = true → s.poly[p].tq = s.q → s.poly[p].tn = s.n →
        s.poly[r].tq = s.q → s.poly[r].tn = s.n → P ()) := by
  simp [State.polyCheck2]

/-! ## The work of a completing command -/

/-- The buffer and the values of a command whose result is a polynomial computed by the internal units
(43_polynomial_ring.md R228 to R232; 44_ntt_and_convolution.md). -/
def State.polyValues (s : State) : Instr → Option (Buf × List Val)
  | .padd pd pa pb => some (pd, List.zipWith (vAdd s.q.toNat) (s.coeffs pa) (s.coeffs pb))
  | .psub pd pa pb => some (pd, List.zipWith (vSub s.q.toNat) (s.coeffs pa) (s.coeffs pb))
  | .pneg pd pa => some (pd, (s.coeffs pa).map (vNeg s.q.toNat))
  | .pmulpw pd pa pb => some (pd, List.zipWith (vBarrett s.desc) (s.coeffs pa) (s.coeffs pb))
  | .ntt pd => some (pd, nttForward .plain s.ctx (s.coeffs pd))
  | .intt pd => some (pd, nttInverse .plain s.ctx (s.coeffs pd))
  | .nttsh pd => some (pd, nttForward .shoup s.ctx (s.coeffs pd))
  | .inttsh pd => some (pd, nttInverse .shoup s.ctx (s.coeffs pd))
  | .convnaive pd pa pb => some (pd, naiveConv s.ctx (s.coeffs pa) (s.coeffs pb))
  | .conv pd pa pb => some (pd, fastConv .plain s.ctx (s.coeffs pa) (s.coeffs pb))
  | .convsh pd pa pb => some (pd, fastConv .shoup s.ctx (s.coeffs pa) (s.coeffs pb))
  | _ => none

/-- The state CTXINIT leaves from the root g0 of its scan (42_transform_context.md R192, Operation). -/
def State.buildContext (s : State) (q n : Nat) (g0 : Val) : State :=
  ((((s.afterScan (findPrimitiveRoot q)).setDesc (makeDescriptor q)).setDegree n).setTables
    (buildTables q n g0)).flagsCtxinit

/-- All that command i can have done to s when it completes, apart from pc and the response; with the checks it passed
where the invariants rest on them. -/
inductive Effect (s : State) : Instr → State → Prop where
  /-- one scalar register is written, and an arbitrary value may have used a free value -/
  | register {i : Instr} {rd : Reg} (hrd : i.destReg = some rd) (w : Word) (k : Nat) :
      Effect s i { s.setS rd w with free := k }
  /-- GET writes nothing -/
  | response (r : Reg) : Effect s (.get r) s
  | descriptor (r : Reg) (two_le : 2 ≤ s.nat r) (lt : s.nat r < two63) :
      Effect s (.setmod r) (s.setDesc (makeDescriptor (s.nat r))).flagsSetmod
  | context (rs1 rs2 : Reg) (g0 : Val) (pow2 : isPow2 (s.nat rs2) = true) (bound : s.nat rs2 ≤ s.cfg.nmax)
      (two_le : 2 ≤ s.nat rs1) (lt : s.nat rs1 < two63) (congruent : s.nat rs1 % (2 * s.nat rs2) = 1)
      (prime : isPrime (s.nat rs1) = true) (scan : takeRootContext s (findPrimitiveRoot (s.nat rs1)) = .ok g0) :
      Effect s (.ctxinit rs1 rs2) (s.buildContext (s.nat rs1) (s.nat rs2) g0)
  | zero (pd : Buf) (ctx : s.ctxvalid = true) (bound : s.n.toNat ≤ s.cfg.nmax) :
      Effect s (.pzero pd) (s.putPoly pd (List.replicate s.n.toNat 0))
  | random (pd : Buf) (ctx : s.ctxvalid = true) (bound : s.n.toNat ≤ s.cfg.nmax) :
      Effect s (.prand pd) ((s.draws 1 s.q.toNat s.n.toNat).2.putPoly pd (s.draws 1 s.q.toNat s.n.toNat).1)
  | word (pd : Buf) (rs1 rs2 : Reg) (ctx : s.ctxvalid = true) (valid : s.poly[pd].valid = true)
      (tq : s.poly[pd].tq = s.q) (index : s.nat rs1 < s.n.toNat) (residue : s.nat rs2 < s.q.toNat)
      (bound : s.nat rs1 + 1 ≤ s.cfg.nmax) :
      Effect s (.pwr pd rs1 rs2) (s.memWrite (.poly pd) (s.nat rs1) (s.getS rs2))
  | copy (pd pa : Buf) (valid : s.poly[pa].valid = true) (bound : s.poly[pa].tn.toNat ≤ s.cfg.nmax) :
      Effect s (.pcopy pd pa)
        ((s.store (.poly pd) (s.load (.poly pa) s.poly[pa].tn.toNat)).tag pd s.poly[pa].tq s.poly[pa].tn)
  | values {i : Instr} {pd : Buf} {vs : List Val} {srcs : List Buf} (hvs : s.polyValues i = some (pd, vs))
      (hsrcs : i.polySources = some srcs) (ctx : s.ctxvalid = true) (ready : ∀ p ∈ srcs, PolyReady s p) :
      Effect s i (s.putPolyVals pd vs)

theorem effect_setS {s : State} {i : Instr} {rd : Reg} (h : i.destReg = some rd) (w : Word) :
    Effect s i (s.setS rd w) := .register h w s.free

theorem effect_setVal {s : State} {i : Instr} {rd : Reg} (h : i.destReg = some rd) (v : Val) :
    Effect s i (s.setVal rd v) := by
  obtain ⟨w, k, hv, -⟩ := setVal_eq s rd v
  exact hv ▸ .register h w k

/-- The data of the response of a command that completes: the register for GET, else 0 (10_state.md R25). -/
def State.responseData (s : State) : Instr → Word
  | .get r => s.sreg[r]
  | _ => 0

/-- Command i took s to t by a fault or by completing with one of the effects. -/
inductive Ends (s : State) (i : Instr) : State → Prop where
  | raised (c : Cause) : Ends s i (s.raise c)
  | completed {u : State} (effect : Effect s i u) : Ends s i (u.complete (s.responseData i))

/-- A command whose action gives one of the effects ends so. -/
theorem ends_of_gives {s t : State} {i : Instr} {a : Action} (hdata : s.responseData i = 0)
    (ha : Gives a (Effect s i)) (h : commit s a = .next t) : Ends s i t := by
  obtain ⟨u, hu, rfl⟩ | ⟨c, -, rfl⟩ := commit_eq_next h
  · exact hdata ▸ .completed (ha u hu)
  · exact .raised c

/-- A computed result of one source that passed its PolyCheck. -/
theorem ends_of_values1 {s t : State} {i : Instr} {pd p : Buf} {vs : List Val} (hdata : s.responseData i = 0)
    (hvs : s.polyValues i = some (pd, vs)) (hsrcs : i.polySources = some [p])
    (h : commit s (do s.polyCheck1 p; s.wordsExist s.n.toNat; return s.putPolyVals pd vs) = .next t) : Ends s i t := by
  refine ends_of_gives hdata ?_ h
  simp only [gives_bind, gives_polyCheck1, gives_wordsExist, gives_pure]
  intro hctx hvalid htq htn hbound
  exact .values hvs hsrcs hctx (by simpa using ⟨hctx, hvalid, htq, htn, hbound⟩)

/-- A computed result of two sources that passed their PolyCheck. -/
theorem ends_of_values2 {s t : State} {i : Instr} {pd p r : Buf} {vs : List Val} (hdata : s.responseData i = 0)
    (hvs : s.polyValues i = some (pd, vs)) (hsrcs : i.polySources = some [p, r])
    (h : commit s (do s.polyCheck2 p r; s.wordsExist s.n.toNat; return s.putPolyVals pd vs) = .next t) :
    Ends s i t := by
  refine ends_of_gives hdata ?_ h
  simp only [gives_bind, gives_polyCheck2, gives_wordsExist, gives_pure]
  intro hctx hp hr hpq hpn hrq hrn hbound
  exact .values hvs hsrcs hctx (by simpa using ⟨⟨hctx, hp, hpq, hpn, hbound⟩, hctx, hr, hrq, hrn, hbound⟩)

/-- All that a command can do: it raises a fault, or it completes with one of the effects. A command that writes one scalar
register has that effect whatever its checks are. -/
theorem exec_ends {i : Instr} {s t : State} (h : exec i s = .next t) : Ends s i t := by
  cases i with
  | get r =>
    cases h
    exact .completed (.response r)
  | movz rd | movk rd =>
    cases h
    exact .completed (effect_setS rfl _)
  | csrr | modadd | modsub | modneg | modmul | modsqr | shouppre | fprimeup | fprimedn | nprimeup | nprimedn | twrd
  | prd =>
    refine ends_of_gives rfl ?_ h
    repeat refine gives_after fun _ => ?_
    exact (gives_pure _ _).mpr (effect_setS rfl _)
  | modexp | modinv | modmulsh | findroot | findgen =>
    refine ends_of_gives rfl ?_ h
    repeat refine gives_after fun _ => ?_
    exact (gives_pure _ _).mpr (effect_setVal rfl _)
  | setmod r => exact ends_of_gives rfl (by simpa using .descriptor r) h
  | ctxinit rs1 rs2 =>
    refine ends_of_gives rfl ?_ h
    simp only [gives_bind, gives_needDegree, gives_needModulus, gives_needCongruent, gives_ensure, gives_pure]
    exact fun pow2 bound two_le lt congruent prime g0 scan =>
      .context rs1 rs2 g0 pow2 bound two_le lt congruent prime scan
  | pzero pd => exact ends_of_gives rfl (by simpa using .zero pd) h
  | prand pd => exact ends_of_gives rfl (by simpa using .random pd) h
  | pwr pd rs1 rs2 =>
    refine ends_of_gives rfl ?_ h
    simp only [gives_bind, gives_polyCheck1, gives_ensure, decide_eq_true_eq, gives_needResidue, gives_wordsExist,
      gives_pure]
    exact fun ctx valid tq _ index residue bound => .word pd rs1 rs2 ctx valid tq index residue bound
  | pcopy pd pa => exact ends_of_gives rfl (by simpa using .copy pd pa) h
  | pneg pd p | ntt p | intt p | nttsh p | inttsh p => exact ends_of_values1 rfl rfl rfl h
  | padd pd pa pb | psub pd pa pb | pmulpw pd pa pb | convnaive pd pa pb | conv pd pa pb | convsh pd pa pb =>
    exact ends_of_values2 rfl rfl rfl h

/-! ## What every completing command leaves as it was -/

/-- No effect touches pc, the fault registers or the responses. -/
structure SameFlow (s t : State) : Prop where
  pc : t.pc = s.pc
  fault : t.fault = s.fault
  cause : t.cause = s.cause
  faultcmd : t.faultcmd = s.faultcmd
  outbox : t.outbox = s.outbox

theorem Effect.sameFlow {s u : State} {i : Instr} (h : Effect s i u) : SameFlow s u := by
  cases h <;> constructor <;> simp [State.buildContext]

theorem responseData_cases (s : State) (i : Instr) :
    (∃ r, i = .get r ∧ s.responseData i = s.sreg[r]) ∨ ((∀ r, i ≠ .get r) ∧ s.responseData i = 0) := by
  cases i with
  | get r => exact .inl ⟨r, rfl, rfl⟩
  | _ => exact .inr ⟨nofun, rfl⟩

/-- Settles O10: no effect touches pc, the fault registers or the responses, and completing adds 1 and one response. -/
theorem completingCommandAdvancesAndAnswers : Obligations.CompletingCommandAdvancesAndAnswers := by
  unfold Obligations.CompletingCommandAdvancesAndAnswers
  intro i s t _ hexec ht
  cases exec_ends hexec with
  | raised c => simp at ht
  | completed effect =>
    obtain ⟨hpc, -, hcause, hcmd, hout⟩ := effect.sameFlow
    exact ⟨by simp [hpc], hcause, hcmd, s.responseData i, by simp [hout], responseData_cases s i⟩

/-! ## The buffers -/

@[simp] theorem State.store_poly (s : State) (p : Buf) (ws : List Word) :
    (s.store (.poly p) ws).poly = s.poly.set p { s.poly[p] with words := Mem.store s.poly[p].words 0 ws } := rfl

@[simp] theorem State.memWrite_poly (s : State) (p : Buf) (i : Nat) (v : Word) :
    (s.memWrite (.poly p) i v).poly = s.poly.set p { s.poly[p] with words := Mem.write s.poly[p].words i v } := rfl

/-- A buffer once the words of a result are stored in it and it is tagged (43_polynomial_ring.md R232). -/
def Poly.withResult (b : Poly) (tq tn : Word) (ws : List Word) : Poly := ⟨true, tq, tn, Mem.store b.words 0 ws⟩

@[simp] theorem State.putPoly_poly (s : State) (p : Buf) (ws : List Word) :
    (s.putPoly p ws).poly = s.poly.set p (s.poly[p].withResult s.q s.n ws) := by
  rw [State.putPoly_eq]; rfl

@[simp] theorem State.putPolyVals_poly (s : State) (p : Buf) (vs : List Val) :
    (s.putPolyVals p vs).poly = s.poly.set p (s.poly[p].withResult s.q s.n (resolve s.free vs).1) := by
  rw [State.putPolyVals_eq]; rfl

theorem State.tag_store_poly (s : State) (p : Buf) (ws : List Word) (tq tn : Word) :
    ((s.store (.poly p) ws).tag p tq tn).poly = s.poly.set p (s.poly[p].withResult tq tn ws) := by
  simp [Poly.withResult]

/-- What holds of every buffer holds of every buffer after one is replaced, when it holds of the new one. -/
theorem forall_poly_set {P : Buf → Poly → Prop} {v : Vector Poly 16} {pd : Buf} {b : Poly}
    (h : ∀ p : Buf, P p v[p]) (hb : P pd b) (p : Buf) : P p (v.set pd b)[p] := by
  rw [getElem_vector_set]
  split
  · next e => exact e ▸ hb
  · exact h p

/-! ## The flags -/

/-- The valid flags after an effect. -/
structure KeepsFlags (s : State) (i : Instr) (t : State) : Prop where
  modvalid : s.modvalid = true → t.modvalid = true
  poly : ∀ p : Buf, s.poly[p].valid = true → t.poly[p].valid = true
  ctxvalid : s.ctxvalid = true → t.ctxvalid = true ∨ ∃ r, i = .setmod r

theorem keepsFlags_of_set {s t : State} {i : Instr} {pd : Buf} {b : Poly} (hmod : t.modvalid = s.modvalid)
    (hctx : t.ctxvalid = s.ctxvalid) (hpoly : t.poly = s.poly.set pd b)
    (hb : s.poly[pd].valid = true → b.valid = true) : KeepsFlags s i t where
  modvalid := hmod.trans
  poly := hpoly ▸ forall_poly_set (P := fun p b => s.poly[p].valid = true → b.valid = true) (fun _ => id) hb
  ctxvalid h := .inl (hctx.trans h)

theorem Effect.keepsFlags {s u : State} {i : Instr} (h : Effect s i u) : KeepsFlags s i u := by
  cases h with
  | register | response => exact ⟨id, fun _ => id, .inl⟩
  | descriptor r => exact ⟨fun _ => rfl, fun _ => id, fun _ => .inr ⟨r, rfl⟩⟩
  | context => exact ⟨fun _ => rfl, fun _ => by simp [State.buildContext], fun _ => .inl rfl⟩
  | zero pd => exact keepsFlags_of_set (by simp) (by simp) (State.putPoly_poly ..) fun _ => rfl
  | random pd => exact keepsFlags_of_set (by simp) (by simp) (by simp; rfl) fun _ => rfl
  | word pd => exact keepsFlags_of_set (by simp) (by simp) (State.memWrite_poly ..) id
  | copy pd pa => exact keepsFlags_of_set (by simp) (by simp) (State.tag_store_poly ..) fun _ => rfl
  | values => exact keepsFlags_of_set (by simp) (by simp) (State.putPolyVals_poly ..) fun _ => rfl

/-- Settles O18: only the descriptor effect, SETMOD's, clears a flag, and of those only CTXVALID. -/
theorem onlySetmodClearsAValidFlag : Obligations.OnlySetmodClearsAValidFlag := by
  unfold Obligations.OnlySetmodClearsAValidFlag
  intro i s t hexec
  cases exec_ends hexec with
  | raised c => exact ⟨id, fun _ => id, .inl⟩
  | completed effect =>
    obtain ⟨hmod, hpoly, hctx⟩ := effect.keepsFlags
    exact ⟨hmod, hpoly, hctx⟩

end Sys2Proof.Machine

/-! # What the units keep, the polynomial commands keep (O14, O15)

Every command that computes a polynomial answers N values, and each value has every property that the internal units
keep (`UnitsKeep`). O14 takes from this that there are N values, O15 that they are residues. -/

namespace Sys2Proof.Machine

/-! ## Lists of n values with a property -/

/-- A list of n values, each of which meets P. -/
structure AllOf (P : Val → Prop) (n : Nat) (l : List Val) : Prop where
  length : l.length = n
  all : ∀ v ∈ l, P v

section Lists

variable {P : Val → Prop} {n m : Nat} {l l' : List Val}

theorem AllOf.map {f : Val → Val} (hf : ∀ v, P v → P (f v)) (h : AllOf P n l) : AllOf P n (l.map f) where
  length := by simp [h.length]
  all := by simpa using fun v hv => hf v (h.all v hv)

theorem AllOf.zipWith {f : Val → Val → Val} (hf : ∀ {v w}, P v → P w → P (f v w)) (h : AllOf P n l)
    (h' : AllOf P n l') : AllOf P n (List.zipWith f l l') where
  length := by simp [h.length, h'.length]
  all x hx := by
    rw [← List.map_uncurry_zip_eq_zipWith] at hx
    obtain ⟨⟨v, w⟩, hvw, rfl⟩ := List.mem_map.mp hx
    obtain ⟨hv, hw⟩ := List.of_mem_zip hvw
    exact hf (h.all v hv) (h'.all w hw)

theorem AllOf.append (h : AllOf P n l) (h' : AllOf P m l') : AllOf P (n + m) (l ++ l') where
  length := by simp [h.length, h'.length]
  all v hv := (List.mem_append.mp hv).elim (h.all v) (h'.all v)

theorem AllOf.take (h : AllOf P (n + m) l) : AllOf P n (l.take n) where
  length := by simp [h.length]
  all v hv := h.all v (List.mem_of_mem_take hv)

theorem AllOf.drop (h : AllOf P (n + m) l) : AllOf P m (l.drop n) where
  length := by simp [h.length]
  all v hv := h.all v (List.mem_of_mem_drop hv)

theorem AllOf.entry (h : AllOf P n l) {i : Nat} (hi : i < n) : P (entry l i) := by
  have hl : i < l.length := h.length ▸ hi
  simpa [Machine.entry, List.getD, hl] using h.all l[i] (List.getElem_mem hl)

end Lists

/-! ## The units, and the networks built from them -/

/-- Every internal unit, with the table words of the context where it takes one, keeps P. -/
structure UnitsKeep (c : Ctx) (P : Val → Prop) : Prop where
  zero : P (some 0)
  add : ∀ {a b}, P a → P b → P (vAdd c.d.q a b)
  sub : ∀ {a b}, P a → P b → P (vSub c.d.q a b)
  neg : ∀ {a}, P a → P (vNeg c.d.q a)
  mul : ∀ {a b}, P a → P b → P (vMul c.d a b)
  barrett : ∀ {a b}, P a → P b → P (vBarrett c.d a b)
  forward : ∀ mode {a}, P a → ∀ k < c.n, P (twMul mode c.d a (entry c.tf k) (entry c.tfShoup k))
  inverse : ∀ mode {a}, P a → ∀ k < c.n, P (twMul mode c.d a (entry c.itf k) (entry c.itfShoup k))
  scale : ∀ mode {a}, P a → P (residue c.d.q (twMul mode c.d a c.invN c.invNShoup))

section Networks

variable {c : Ctx} {P : Val → Prop} (hP : UnitsKeep c P)
include hP

theorem forwardGroup_allOf (mode : Mode) {t k : Nat} {blk : List Val} (hk : k < c.n) (h : AllOf P (t + t) blk) :
    AllOf P (t + t) (forwardGroup mode c.d (entry c.tf k) (entry c.tfShoup k) t blk) := by
  have hv := h.drop.map fun v hv => hP.forward mode hv k hk
  exact (h.take.zipWith hP.add hv).append (h.take.zipWith hP.sub hv)

theorem inverseGroup_allOf (mode : Mode) {t k : Nat} {blk : List Val} (hk : k < c.n) (h : AllOf P (t + t) blk) :
    AllOf P (t + t) (inverseGroup mode c.d (entry c.itf k) (entry c.itfShoup k) t blk) :=
  (h.take.zipWith hP.add h.drop).append ((h.take.zipWith hP.sub h.drop).map fun _ hv => hP.inverse mode hv k hk)

omit hP in
/-- One level of g groups of 2t words, the first with table word k: it keeps P when every group does. -/
theorem level_allOf {group : Nat → List Val → List Val} {level : Nat → Nat → List Val → List Val} {t : Nat}
    (hnil : ∀ k a, level 0 k a = a)
    (hcons : ∀ g k a, level (g + 1) k a = group k (a.take (2 * t)) ++ level g (k + 1) (a.drop (2 * t)))
    (hgroup : ∀ k blk, k < c.n → AllOf P (2 * t) blk → AllOf P (2 * t) (group k blk)) (g : Nat) :
    ∀ (k : Nat) (a : List Val), k + g ≤ c.n → AllOf P (2 * t * g) a → AllOf P (2 * t * g) (level g k a) := by
  induction g with
  | zero => exact fun k a _ h => (hnil k a).symm ▸ h
  | succ g ih =>
    intro k a hk h
    rw [show 2 * t * (g + 1) = 2 * t + 2 * t * g by ring] at h ⊢
    exact hcons g k a ▸ (hgroup k _ (by omega) h.take).append (ih (k + 1) _ (by omega) h.drop)

theorem forwardLevel_allOf (mode : Mode) (t g k : Nat) {a : List Val} (hk : k + g ≤ c.n) (h : AllOf P (2 * t * g) a) :
    AllOf P (2 * t * g) (forwardLevel mode c t g k a) :=
  level_allOf (level := forwardLevel mode c t) (fun _ _ => rfl) (fun _ _ _ => rfl)
    (fun _ _ hk h => two_mul t ▸ forwardGroup_allOf hP mode hk (two_mul t ▸ h)) g k a hk h

theorem inverseLevel_allOf (mode : Mode) (t g k : Nat) {a : List Val} (hk : k + g ≤ c.n) (h : AllOf P (2 * t * g) a) :
    AllOf P (2 * t * g) (inverseLevel mode c t g k a) :=
  level_allOf (level := inverseLevel mode c t) (fun _ _ => rfl) (fun _ _ _ => rfl)
    (fun _ _ hk h => two_mul t ▸ inverseGroup_allOf hP mode hk (two_mul t ▸ h)) g k a hk h

omit hP in
/-- A level of 2^j groups of 2·2^i words covers the N words, and its table words 2^j to 2·2^j − 1 are below N. -/
theorem level_words {n i j : Nat} (hn : n = 2 ^ (i + j + 1)) : n = 2 * 2 ^ i * 2 ^ j ∧ 2 ^ j + 2 ^ j ≤ n := by
  have hwords : n = 2 * 2 ^ i * 2 ^ j := by rw [hn]; ring
  have : 2 ^ j ≤ 2 ^ i * 2 ^ j := Nat.le_mul_of_pos_left _ (by positivity)
  exact ⟨hwords, by rw [hwords, mul_assoc]; omega⟩

/-- The levels from t = 2^i, m = 2^j on: while m < N there is a factor 2 left in t. -/
theorem forwardLoop_allOf (mode : Mode) (f : Nat) : ∀ {i j : Nat} {a : List Val}, c.n = 2 ^ (i + j) →
    AllOf P c.n a → AllOf P c.n (forwardLoop mode c f (2 ^ i) (2 ^ j) a) := by
  induction f with
  | zero => exact fun _ h => h
  | succ f ih =>
    intro i j a hn h
    rw [forwardLoop]
    split
    · next hlt =>
      cases i with
      | zero => simp [hn] at hlt
      | succ i =>
        obtain ⟨hwords, hbound⟩ := level_words (n := c.n) (i := i) (j := j) (by rw [hn]; ring)
        rw [show 2 ^ (i + 1) / 2 = 2 ^ i by simp [pow_succ], show 2 * 2 ^ j = 2 ^ (j + 1) by ring]
        refine ih (by rw [hn]; ring) ?_
        rw [hwords] at h ⊢
        exact forwardLevel_allOf hP mode _ _ _ hbound h
    · exact h

/-- The levels from t = 2^i, m = 2^j on: while 1 < m there is a factor 2 left in m. -/
theorem inverseLoop_allOf (mode : Mode) (f : Nat) : ∀ {i j : Nat} {a : List Val}, c.n = 2 ^ (i + j) →
    AllOf P c.n a → AllOf P c.n (inverseLoop mode c f (2 ^ i) (2 ^ j) a) := by
  induction f with
  | zero => exact fun _ h => h
  | succ f ih =>
    intro i j a hn h
    rw [inverseLoop]
    split
    · next hlt =>
      cases j with
      | zero => simp at hlt
      | succ j =>
        obtain ⟨hwords, hbound⟩ := level_words (n := c.n) (i := i) (j := j) (by rw [hn]; ring)
        rw [show 2 ^ (j + 1) / 2 = 2 ^ j by simp [pow_succ], show 2 * 2 ^ i = 2 ^ (i + 1) by ring]
        refine ih (by rw [hn]; ring) ?_
        rw [hwords] at h ⊢
        exact inverseLevel_allOf hP mode _ _ _ hbound h
    · exact h

variable {a b : List Val}

theorem nttForward_allOf (mode : Mode) {w : Nat} (hn : c.n = 2 ^ w) (h : AllOf P c.n a) :
    AllOf P c.n (nttForward mode c a) := by
  have := forwardLoop_allOf hP mode 64 (i := w) (j := 0) hn h
  rwa [← hn] at this

theorem nttInverse_allOf (mode : Mode) {w : Nat} (hn : c.n = 2 ^ w) (h : AllOf P c.n a) :
    AllOf P c.n (nttInverse mode c a) := by
  have := inverseLoop_allOf hP mode 64 (i := 0) (j := w) (by simpa using hn) h
  rw [← hn] at this
  exact this.map fun _ hv => hP.scale mode hv

theorem fastConv_allOf (mode : Mode) {w : Nat} (hn : c.n = 2 ^ w) (ha : AllOf P c.n a) (hb : AllOf P c.n b) :
    AllOf P c.n (fastConv mode c a b) :=
  nttInverse_allOf hP mode hn
    ((nttForward_allOf hP mode hn ha).zipWith hP.mul (nttForward_allOf hP mode hn hb))

/-- The indices of R264 stay below N. -/
theorem naiveAcc_keeps (ha : AllOf P c.n a) (hb : AllOf P c.n b) {i : Nat} (hi : i < c.n) (count : Nat) :
    count ≤ c.n → P (naiveAcc c.d c.n a b i count) := by
  induction count with
  | zero => exact fun _ => hP.zero
  | succ j ih =>
    intro hj
    rw [naiveAcc]
    split
    · exact hP.add (ih (by omega)) (hP.mul (ha.entry (by omega)) (hb.entry (by omega)))
    · exact hP.sub (ih (by omega)) (hP.mul (ha.entry (by omega)) (hb.entry (by omega)))

theorem naiveConv_allOf (ha : AllOf P c.n a) (hb : AllOf P c.n b) : AllOf P c.n (naiveConv c a b) where
  length := by simp [naiveConv]
  all := by simpa [naiveConv] using fun i hi => naiveAcc_keeps hP ha hb hi c.n le_rfl

end Networks

/-! ## The polynomial commands -/

theorem polyValues_allOf {s : State} {P : Val → Prop} {i : Instr} {pd : Buf} {vs : List Val} {srcs : List Buf} {w : Nat}
    (hP : UnitsKeep s.ctx P) (hn : s.n.toNat = 2 ^ w) (hvs : s.polyValues i = some (pd, vs))
    (hsrcs : i.polySources = some srcs) (h : ∀ p ∈ srcs, AllOf P s.n.toNat (s.coeffs p)) : AllOf P s.n.toNat vs := by
  cases i <;> cases hvs <;> cases hsrcs
  case pneg pa => exact (h pa (by simp)).map fun _ => hP.neg
  case padd pa pb => exact (h pa (by simp)).zipWith hP.add (h pb (by simp))
  case psub pa pb => exact (h pa (by simp)).zipWith hP.sub (h pb (by simp))
  case pmulpw pa pb => exact (h pa (by simp)).zipWith hP.barrett (h pb (by simp))
  case ntt => exact nttForward_allOf hP .plain hn (h pd (by simp))
  case nttsh => exact nttForward_allOf hP .shoup hn (h pd (by simp))
  case intt => exact nttInverse_allOf hP .plain hn (h pd (by simp))
  case inttsh => exact nttInverse_allOf hP .shoup hn (h pd (by simp))
  case convnaive pa pb => exact naiveConv_allOf hP (h pa (by simp)) (h pb (by simp))
  case conv pa pb => exact fastConv_allOf hP .plain hn (h pa (by simp)) (h pb (by simp))
  case convsh pa pb => exact fastConv_allOf hP .shoup hn (h pa (by simp)) (h pb (by simp))

/-- Without any property asked of the values: every polynomial command computes N of them. -/
theorem polyValues_length {s : State} {i : Instr} {pd : Buf} {vs : List Val} {srcs : List Buf} {w : Nat}
    (hn : s.n.toNat = 2 ^ w) (hvs : s.polyValues i = some (pd, vs)) (hsrcs : i.polySources = some srcs) :
    vs.length = s.n.toNat := by
  have units : UnitsKeep s.ctx fun _ => True := by constructor <;> intros <;> trivial
  exact (polyValues_allOf units hn hvs hsrcs fun p _ => ⟨by simp [State.coeffs], fun _ _ => trivial⟩).length

end Sys2Proof.Machine

/-! # Every step keeps the invariant (O14)

The invariant is proved by what an effect touches: an effect that leaves the context alone keeps it when the buffer it
writes is a good one (`Inv.of_goodBuffers`); SETMOD and CTXINIT, which leave the buffers alone, install a good descriptor
and a good context. -/

namespace Sys2Proof.Machine

/-! ## Trial division (41_number_theory.md R160) -/

/-- The candidates from d up pass exactly when none of them divides n; with n < (d + fuel)² they reach √n. -/
theorem noDivisorFrom_iff {n : Nat} (fuel : Nat) : ∀ {d : Nat}, n < (d + fuel) * (d + fuel) →
    (noDivisorFrom n fuel d = true ↔ ∀ e, d ≤ e → e * e ≤ n → ¬ e ∣ n) := by
  induction fuel with
  | zero =>
    refine fun {d} hn => iff_of_true rfl fun e hde hen => ?_
    have := Nat.mul_le_mul hde hde
    simp only [Nat.add_zero] at hn
    omega
  | succ f ih =>
    intro d hn
    have hnext := ih (d := d + 1) (by rwa [show d + 1 + f = d + (f + 1) by omega])
    rw [noDivisorFrom]
    split
    · next hlt =>
      refine iff_of_true rfl fun e hde hen => ?_
      have := Nat.mul_le_mul hde hde
      omega
    · next hle =>
      split
      · next hdvd => exact iff_of_false nofun fun h => h d le_rfl (by omega) (Nat.dvd_of_mod_eq_zero hdvd)
      · next hndvd =>
        rw [hnext]
        refine ⟨fun h e hde hen => ?_, fun h e hde => h e (by omega)⟩
        rcases hde.eq_or_lt with rfl | hlt
        · exact fun hdvd => hndvd (Nat.mod_eq_zero_of_dvd hdvd)
        · exact h e hlt hen

/-- `IsPrime` is the exact predicate. -/
theorem isPrime_iff (n : Nat) : isPrime n = true ↔ n.Prime := by
  have hfuel : n < (2 + n) * (2 + n) := by nlinarith
  simp only [isPrime, Bool.and_eq_true, decide_eq_true_eq, noDivisorFrom_iff n hfuel, Nat.prime_def_le_sqrt,
    Nat.le_sqrt]

/-! ## The descriptor (40_modular_arithmetic.md R122) -/

theorem lt_two_pow_bitlen (v : Nat) : v < 2 ^ bitlen v := by
  unfold bitlen
  split
  · simp_all
  · exact Nat.lt_log2_self

theorem bitlen_le_iff {v k : Nat} : bitlen v ≤ k ↔ v < 2 ^ k := by
  refine ⟨fun h => (lt_two_pow_bitlen v).trans_le (Nat.pow_le_pow_right two_pos h), fun h => ?_⟩
  unfold bitlen
  split
  · exact Nat.zero_le k
  · next hv => exact (Nat.log2_lt hv).mpr h

theorem lt_bitlen_iff {v k : Nat} : k < bitlen v ↔ 2 ^ k ≤ v := by
  rw [← not_le, bitlen_le_iff, not_lt]

/-- The bounds of a descriptor's fields: they fit the control registers. -/
theorem makeDescriptor_fits {q : Nat} (two_le : 2 ≤ q) (lt : q < two63) :
    (makeDescriptor q).k < 64 ∧ (makeDescriptor q).mu < 2 ^ 64 := by
  have hk : bitlen (q - 1) ≤ 63 := bitlen_le_iff.mpr ((Nat.sub_le q 1).trans_lt lt)
  have hpos : 0 < bitlen (q - 1) := lt_bitlen_iff.mpr (by omega)
  have hq : 2 ^ (bitlen (q - 1) - 1) < q := by
    have := lt_bitlen_iff.mp (Nat.sub_lt hpos one_pos)
    omega
  refine ⟨Nat.lt_succ_of_le hk, Nat.div_lt_of_lt_mul ?_⟩
  calc 2 ^ (2 * bitlen (q - 1)) = 2 ^ (bitlen (q - 1) - 1) * 2 ^ (bitlen (q - 1) + 1) := by
        rw [← pow_add]; congr 1; omega
    _ < q * 2 ^ (bitlen (q - 1) + 1) := Nat.mul_lt_mul_of_pos_right hq (by positivity)
    _ ≤ q * 2 ^ 64 := Nat.mul_le_mul_left _ (Nat.pow_le_pow_right two_pos (by omega))

/-- The descriptor of a modulus in range, once stored, is in order (10_state.md R29). -/
theorem descriptorOk_of_stored {t : State} {q : Nat} (two_le : 2 ≤ q) (lt : q < two63)
    (hq : t.q = BitVec.ofNat 64 q) (hlogq : t.logq = BitVec.ofNat 6 (makeDescriptor q).k)
    (hmu : t.mu = BitVec.ofNat 64 (makeDescriptor q).mu) : DescriptorOk t ∧ t.q.toNat = q := by
  obtain ⟨hk, hm⟩ := makeDescriptor_fits two_le lt
  have toq : t.q.toNat = q := by rw [hq, BitVec.toNat_ofNat, Nat.mod_eq_of_lt (lt.trans (by decide))]
  have tok : t.logq.toNat = bitlen (q - 1) := by rw [hlogq, BitVec.toNat_ofNat]; exact Nat.mod_eq_of_lt hk
  refine ⟨⟨by omega, by omega, by rw [tok, toq], ?_⟩, toq⟩
  rw [hmu, BitVec.toNat_ofNat, Nat.mod_eq_of_lt hm, tok, toq]
  rfl

/-! ## Memories inside their bound -/

/-- A memory in canonical form with every cell below a bound. -/
structure Mem.Fits (bound : Nat) (m : Mem) : Prop where
  wf : m.wf
  inside : ∀ c ∈ m, c.1 < bound

theorem Mem.Fits.write {bound : Nat} {m : Mem} (h : m.Fits bound) {i : Nat} (hi : i < bound) (v : Word) :
    (Mem.write m i v).Fits bound where
  wf := Mem.wf_write h.wf i v
  inside c hc := (Mem.mem_write hc).elim (fun e => e ▸ hi) (h.inside c)

theorem Mem.Fits.store {bound : Nat} {m : Mem} (h : m.Fits bound) {ws : List Word} (hws : ws.length ≤ bound) :
    (Mem.store m 0 ws).Fits bound where
  wf := Mem.wf_store ws h.wf 0
  inside c hc := (Mem.mem_store ws hc).elim (fun hlt => by omega) (h.inside c)

theorem Mem.find_store_zero (m : Mem) (ws : List Word) {i : Nat} (hi : i < ws.length) :
    Mem.find (Mem.store m 0 ws) i = some ws[i] := by
  simp [Mem.find_store, hi]

theorem Mem.writtenBelow_store (m : Mem) {ws : List Word} {n : Nat} (h : ws.length = n) :
    Mem.writtenBelow (Mem.store m 0 ws) n := by
  intro i hi
  rw [Mem.find_store_zero m ws (h ▸ hi)]
  rfl

theorem Mem.writtenBelow_write {m : Mem} {n : Nat} (h : Mem.writtenBelow m n) (i : Nat) (v : Word) :
    Mem.writtenBelow (Mem.write m i v) n := by
  intro j hj
  rw [Mem.find_write]
  split
  · rfl
  · exact h j hj

/-! ## Good buffers -/

/-- A tag a buffer can carry: that of a context which could be built (10_state.md R42). -/
structure TagOk (cfg : Config) (tq tn : Word) : Prop where
  two_le : 2 ≤ tq.toNat
  lt : tq.toNat < two63
  degree : Degree tn.toNat
  bound : tn.toNat ≤ cfg.nmax

/-- What the invariant asks of the one buffer p. -/
structure GoodBuffer (cfg : Config) (p : Buf) (b : Poly) : Prop where
  fits : b.words.Fits cfg.nmax
  present : b.valid = true → p.val < cfg.npoly
  tag : b.valid = true → TagOk cfg b.tq b.tn
  written : b.valid = true → Mem.writtenBelow b.words b.tn.toNat

theorem Inv.fits {s : State} (h : Inv s) (m : Space) : (s.mem m).Fits s.cfg.nmax := ⟨h.canonical m, h.inside m⟩

theorem Inv.goodBuffer {s : State} (h : Inv s) (p : Buf) : GoodBuffer s.cfg p s.poly[p] where
  fits := h.fits (.poly p)
  present hv := (h.buffers p hv).present
  tag hv := have b := h.buffers p hv; ⟨b.two_le, b.lt, b.degree, b.bound⟩
  written hv := (h.buffers p hv).words

theorem GoodBuffer.bufferOk {s : State} {p : Buf} (h : GoodBuffer s.cfg p s.poly[p]) (hv : s.poly[p].valid = true) :
    BufferOk s p :=
  have t := h.tag hv
  ⟨h.present hv, t.two_le, t.lt, t.degree, t.bound, h.written hv⟩

/-- Storing a result of TN words under a good tag makes a buffer good. -/
theorem GoodBuffer.withResult {cfg : Config} {p : Buf} {b : Poly} (h : GoodBuffer cfg p b) (hp : p.val < cfg.npoly)
    {tq tn : Word} (htag : TagOk cfg tq tn) {ws : List Word} (hws : ws.length = tn.toNat) :
    GoodBuffer cfg p (b.withResult tq tn ws) where
  fits := h.fits.store (hws ▸ htag.bound)
  present _ := hp
  tag _ := htag
  written _ := Mem.writtenBelow_store _ hws

theorem GoodBuffer.write {cfg : Config} {p : Buf} {b : Poly} (h : GoodBuffer cfg p b) {i : Nat} (hi : i < cfg.nmax)
    (v : Word) : GoodBuffer cfg p { b with words := Mem.write b.words i v } where
  fits := h.fits.write hi v
  present := h.present
  tag := h.tag
  written hv := Mem.writtenBelow_write (h.written hv) i v

/-! ## Steps that leave the context alone -/

/-- The parameters, the descriptor and the context of t are those of s. -/
structure SameContext (s t : State) : Prop where
  cfg : t.cfg = s.cfg
  q : t.q = s.q
  logq : t.logq = s.logq
  mu : t.mu = s.mu
  modvalid : t.modvalid = s.modvalid
  n : t.n = s.n
  logn : t.logn = s.logn
  invN : t.invN = s.invN
  invNShoup : t.invNShoup = s.invNShoup
  ctxvalid : t.ctxvalid = s.ctxvalid
  tf : t.tf = s.tf
  tfShoup : t.tfShoup = s.tfShoup
  itf : t.itf = s.itf
  itfShoup : t.itfShoup = s.itfShoup

theorem DescriptorOk.congr {s t : State} (h : DescriptorOk s) (hq : t.q = s.q) (hlogq : t.logq = s.logq)
    (hmu : t.mu = s.mu) : DescriptorOk t where
  two_le := hq ▸ h.two_le
  lt := hq ▸ h.lt
  logq := by rw [hlogq, hq]; exact h.logq
  mu := by rw [hmu, hlogq, hq]; exact h.mu

theorem ContextOk.congr {s t : State} (h : ContextOk s) (hc : SameContext s t) : ContextOk t where
  modvalid := hc.modvalid.trans h.modvalid
  prime := hc.q ▸ h.prime
  degree := by rw [hc.n, hc.logn]; exact h.degree
  bound := by rw [hc.n, hc.cfg]; exact h.bound
  congruent := by rw [hc.q, hc.n]; exact h.congruent
  tf := by rw [hc.tf, hc.n]; exact h.tf
  tfShoup := by rw [hc.tfShoup, hc.n]; exact h.tfShoup
  itf := by rw [hc.itf, hc.n]; exact h.itf
  itfShoup := by rw [hc.itfShoup, hc.n]; exact h.itfShoup
  tf_zero := (State.memRead_congr (m := .tf) hc.tf 0).trans h.tf_zero
  itf_zero := (State.memRead_congr (m := .itf) hc.itf 0).trans h.itf_zero

theorem FaultsOk.congr {s t : State} (h : FaultsOk s) (hf : SameFlow s t) : FaultsOk t where
  clear := by rw [hf.fault, hf.cause, hf.faultcmd]; exact h.clear
  coded := by rw [hf.fault, hf.cause]; exact h.coded

/-- A change that leaves the context alone keeps the invariant when every buffer is good after it. -/
theorem Inv.of_goodBuffers {s t : State} (h : Inv s) (hc : SameContext s t) (hf : FaultsOk t)
    (hb : ∀ p : Buf, GoodBuffer s.cfg p t.poly[p]) : Inv t := by
  have hfits : ∀ m, (t.mem m).Fits t.cfg.nmax := by
    rw [hc.cfg]
    intro m
    cases m with
    | poly p => exact (hb p).fits
    | tf => exact (congrArg (Mem.Fits _) hc.tf).mpr (h.fits .tf)
    | tfShoup => exact (congrArg (Mem.Fits _) hc.tfShoup).mpr (h.fits .tfShoup)
    | itf => exact (congrArg (Mem.Fits _) hc.itf).mpr (h.fits .itf)
    | itfShoup => exact (congrArg (Mem.Fits _) hc.itfShoup).mpr (h.fits .itfShoup)
  exact {
    cfg := hc.cfg ▸ h.cfg
    canonical m := (hfits m).wf
    inside m := (hfits m).inside
    descriptor hv := (h.descriptor (hc.modvalid ▸ hv)).congr hc.q hc.logq hc.mu
    context hv := (h.context (hc.ctxvalid ▸ hv)).congr hc
    buffers p := (hc.cfg ▸ hb p : GoodBuffer t.cfg p t.poly[p]).bufferOk
    faults := hf }

/-- Scalar registers, fault registers, pc and the host's lists are not what the invariant speaks of. -/
theorem Inv.of_samePoly {s t : State} (h : Inv s) (hc : SameContext s t) (hp : t.poly = s.poly) (hf : FaultsOk t) :
    Inv t := h.of_goodBuffers hc hf (hp ▸ h.goodBuffer)

theorem Inv.of_setPoly {s t : State} (h : Inv s) (hc : SameContext s t) (hf : SameFlow s t) {pd : Buf} {b : Poly}
    (hp : t.poly = s.poly.set pd b) (hb : GoodBuffer s.cfg pd b) : Inv t :=
  h.of_goodBuffers hc (h.faults.congr hf) (hp ▸ forall_poly_set h.goodBuffer hb)

/-- The tag a polynomial result of the context in force carries is a good one. -/
theorem Inv.contextTag {s : State} (h : Inv s) (ctx : s.ctxvalid = true) : TagOk s.cfg s.q s.n := by
  have hctx := h.context ctx
  have hdesc := h.descriptor hctx.modvalid
  refine ⟨hdesc.two_le, hdesc.lt, ⟨s.logn.toNat, ?_, hctx.degree⟩, hctx.bound⟩
  obtain ⟨⟨k, hk, hnmax⟩, -⟩ := h.cfg
  have hle : 2 ^ s.logn.toNat ≤ 2 ^ k := hctx.degree ▸ hnmax ▸ hctx.bound
  have := (Nat.pow_le_pow_iff_right (by omega)).mp hle
  have := List.mem_range.mp hk
  omega

/-! ## SETMOD -/

theorem Inv.setmod {s : State} (h : Inv s) {q : Nat} (two_le : 2 ≤ q) (lt : q < two63) :
    Inv (s.setDesc (makeDescriptor q)).flagsSetmod where
  cfg := h.cfg
  canonical m := by simpa using h.canonical m
  inside m := by simpa using h.inside m
  descriptor _ := (descriptorOk_of_stored two_le lt rfl rfl rfl).1
  context := nofun
  buffers p := GoodBuffer.bufferOk (s := (s.setDesc _).flagsSetmod) (h.goodBuffer p)
  faults := ⟨h.faults.clear, h.faults.coded⟩

/-! ## CTXINIT -/

/-- The values BuildTables computes for a memory (42_transform_context.md R196). -/
def Tables.values (t : Tables) : Space → List Val
  | .tf => t.tf
  | .tfShoup => t.tfShoup
  | .itf => t.itf
  | .itfShoup => t.itfShoup
  | .poly _ => []

theorem State.mem_storeVals (s : State) (m m' : Space) (vs : List Val) :
    (s.storeVals m vs).mem m' = if m' = m then Mem.store (s.mem m) 0 (resolve s.free vs).1 else s.mem m' := by
  have : (s.storeVals m vs).mem m' = (s.store m (resolve s.free vs).1).mem m' := by cases m' <;> rfl
  rw [this, State.store, State.mem_setMem]

/-- The context's values are stored in each memory from index 0, with free values from some index of the counter. -/
theorem State.mem_buildContext (s : State) (q n : Nat) (g0 : Val) (m : Space) :
    ∃ k, (s.buildContext q n g0).mem m =
      Mem.store (s.mem m) 0 (resolve k ((buildTables q n g0).values m)).1 := by
  simp only [State.buildContext, State.setTables, State.mem_flagsCtxinit, State.mem_setInvN, State.mem_storeVals,
    State.mem_setDegree, State.mem_setDesc, State.mem_afterScan]
  cases m with
  | poly p => exact ⟨0, rfl⟩
  | tf | tfShoup | itf | itfShoup => exact ⟨_, rfl⟩

theorem State.memRead_buildContext (s : State) (q n : Nat) (g0 : Val) {m : Space} {i : Nat}
    (hi : i < ((buildTables q n g0).values m).length) :
    Agrees (entry ((buildTables q n g0).values m) i) ((s.buildContext q n g0).memRead m i) := by
  obtain ⟨k, hm⟩ := s.mem_buildContext q n g0 m
  have hr : i < (resolve k ((buildTables q n g0).values m)).1.length := by rwa [length_resolve]
  rw [State.memRead, hm, Mem.find_store_zero _ _ hr, entry, List.getD_eq_getElem _ _ hi]
  exact resolve_agrees _ k i hr hi

/-! ### The degree -/

theorem eq_two_pow_log2 {n : Nat} (h : isPow2 n = true) : n = 2 ^ Nat.log2 n := by
  obtain ⟨k, rfl⟩ := (isPow2_iff n).mp h
  rw [Nat.log2_two_pow]

/-- NMAX is at most 2^61 (00_scope.md R7), so a degree fits its registers. -/
theorem log2_le_of_bound {cfg : Config} (hcfg : cfg.ok) {n : Nat} (pow2 : isPow2 n = true) (bound : n ≤ cfg.nmax) :
    Nat.log2 n ≤ 61 := by
  obtain ⟨⟨k, hk, hnmax⟩, -⟩ := hcfg
  rw [eq_two_pow_log2 pow2, hnmax] at bound
  have := (Nat.pow_le_pow_iff_right (by omega)).mp bound
  have := List.mem_range.mp hk
  omega

/-! ### The tables -/

theorem bitRev_zero (w : Nat) : bitRev 0 w = 0 := by
  induction w with
  | zero => rfl
  | succ w ih => simp [bitRev, ih]

theorem entry_bitReversed (w : Nat) (ps : List Val) {j : Nat} (hj : j < 2 ^ w) :
    entry (bitReversed w ps) j = entry ps (bitRev j w) := by
  simp [bitReversed, entry, List.getD, hj]

/-- The constant word 0 of a table (42_transform_context.md R200): the running powers begin with 1. -/
theorem entry_powers_zero (d : Descriptor) (g : Val) {n : Nat} (hn : 0 < n) (w : Nat) :
    entry (bitReversed w (powersFrom d g n (some 1))) 0 = some 1 := by
  rw [entry_bitReversed w _ (by positivity), bitRev_zero]
  cases n with
  | zero => omega
  | succ n => rfl

theorem length_tables {q n : Nat} {g0 : Val} (pow2 : isPow2 n = true) {m : Space} (hm : ∀ p, m ≠ .poly p) :
    ((buildTables q n g0).values m).length = n := by
  cases m with
  | poly p => exact absurd rfl (hm p)
  | tf | tfShoup | itf | itfShoup =>
    simp only [Tables.values, buildTables, bitReversed, List.length_map, List.length_range]
    exact (eq_two_pow_log2 pow2).symm

/-- The operands CTXINIT accepts (R192). -/
structure ContextOperands (cfg : Config) (q n : Nat) : Prop where
  pow2 : isPow2 n = true
  bound : n ≤ cfg.nmax
  two_le : 2 ≤ q
  lt : q < two63
  congruent : q % (2 * n) = 1
  prime : isPrime q = true

section Context

variable {s : State} (hcfg : s.cfg.ok) {q n : Nat} (h : ContextOperands s.cfg q n) (g0 : Val)
include hcfg h

theorem toNat_n_buildContext : (s.buildContext q n g0).n.toNat = n := by
  have hlog := log2_le_of_bound hcfg h.pow2 h.bound
  have : n ≤ 2 ^ 61 := eq_two_pow_log2 h.pow2 ▸ Nat.pow_le_pow_right two_pos hlog
  simp only [State.buildContext, State.flagsCtxinit_n, State.setTables_n, State.setDegree_n, BitVec.toNat_ofNat]
  omega

theorem toNat_logn_buildContext : (s.buildContext q n g0).logn.toNat = Nat.log2 n := by
  have hlog := log2_le_of_bound hcfg h.pow2 h.bound
  simp only [State.buildContext, State.flagsCtxinit_logn, State.setTables_logn, State.setDegree_logn,
    BitVec.toNat_ofNat]
  omega

omit hcfg in
theorem descriptorOk_buildContext :
    DescriptorOk (s.buildContext q n g0) ∧ (s.buildContext q n g0).q.toNat = q :=
  descriptorOk_of_stored h.two_le h.lt (by simp [State.buildContext]; rfl) (by simp [State.buildContext])
    (by simp [State.buildContext])

omit hcfg in
/-- Words 0 to N − 1 of a table are written. -/
theorem writtenBelow_buildContext {m : Space} (hm : ∀ p, m ≠ .poly p) :
    Mem.writtenBelow ((s.buildContext q n g0).mem m) n := by
  obtain ⟨k, hk⟩ := s.mem_buildContext q n g0 m
  rw [hk]
  exact Mem.writtenBelow_store _ (by rw [length_resolve, length_tables h.pow2 hm])

omit hcfg in
theorem memRead_buildContext_eq {m : Space} {i x : Nat} (hm : ∀ p, m ≠ .poly p) (hi : i < n)
    (hx : entry ((buildTables q n g0).values m) i = some x) :
    (s.buildContext q n g0).memRead m i = BitVec.ofNat 64 x :=
  s.memRead_buildContext q n g0 (by rwa [length_tables h.pow2 hm]) x hx

theorem contextOk_buildContext : ContextOk (s.buildContext q n g0) := by
  have hn := toNat_n_buildContext hcfg h g0
  have hpos : 0 < n := eq_two_pow_log2 h.pow2 ▸ by positivity
  have hq := (descriptorOk_buildContext h g0).2
  exact {
    modvalid := rfl
    prime := by rw [hq]; exact (isPrime_iff q).mp h.prime
    degree := by rw [hn, toNat_logn_buildContext hcfg h g0]; exact eq_two_pow_log2 h.pow2
    bound := by rw [hn]; simpa [State.buildContext] using h.bound
    congruent := by rw [hq, hn]; exact h.congruent
    tf := hn.symm ▸ writtenBelow_buildContext h g0 (m := .tf) nofun
    tfShoup := hn.symm ▸ writtenBelow_buildContext h g0 (m := .tfShoup) nofun
    itf := hn.symm ▸ writtenBelow_buildContext h g0 (m := .itf) nofun
    itfShoup := hn.symm ▸ writtenBelow_buildContext h g0 (m := .itfShoup) nofun
    tf_zero := memRead_buildContext_eq h g0 nofun hpos (entry_powers_zero _ _ hpos _)
    itf_zero := memRead_buildContext_eq h g0 nofun hpos (entry_powers_zero _ _ hpos _) }

end Context

theorem Inv.ctxinit {s : State} (h : Inv s) {q n : Nat} (hop : ContextOperands s.cfg q n) (g0 : Val) :
    Inv (s.buildContext q n g0) := by
  have hcfg : (s.buildContext q n g0).cfg = s.cfg := by simp [State.buildContext]
  have hpoly : (s.buildContext q n g0).poly = s.poly := by simp [State.buildContext]
  have hfits : ∀ m, ((s.buildContext q n g0).mem m).Fits s.cfg.nmax := by
    intro m
    obtain ⟨k, hk⟩ := s.mem_buildContext q n g0 m
    rw [hk]
    refine (h.fits m).store ?_
    rw [length_resolve]
    cases m with
    | poly p => exact Nat.zero_le _
    | tf | tfShoup | itf | itfShoup => exact (length_tables hop.pow2 (by simp)).trans_le hop.bound
  exact {
    cfg := hcfg ▸ h.cfg
    canonical m := (hfits m).wf
    inside m := hcfg ▸ (hfits m).inside
    descriptor _ := (descriptorOk_buildContext hop g0).1
    context _ := contextOk_buildContext h.cfg hop g0
    buffers p := (by rw [hcfg, hpoly]; exact h.goodBuffer p : GoodBuffer _ p _).bufferOk
    faults := h.faults.congr (by constructor <;> simp [State.buildContext]) }

/-! ## Every effect -/

theorem polyValues_mem_bufs {s : State} {i : Instr} {pd : Buf} {vs : List Val} (h : s.polyValues i = some (pd, vs)) :
    pd ∈ i.bufs := by
  cases i <;> cases h <;> simp [Instr.bufs]

theorem Inv.effect {s u : State} {i : Instr} (h : Inv s) (hbufs : ∀ p ∈ i.bufs, p.val < s.cfg.npoly)
    (he : Effect s i u) : Inv u := by
  cases he with
  | register => exact h.of_samePoly (by constructor <;> rfl) rfl ⟨h.faults.clear, h.faults.coded⟩
  | response => exact h
  | descriptor r two_le lt => exact h.setmod two_le lt
  | context rs1 rs2 g0 pow2 bound two_le lt congruent prime =>
    exact h.ctxinit ⟨pow2, bound, two_le, lt, congruent, prime⟩ g0
  | zero pd ctx =>
    refine h.of_setPoly (by constructor <;> simp) (by constructor <;> simp) (State.putPoly_poly ..) ?_
    exact (h.goodBuffer pd).withResult (hbufs pd (by simp [Instr.bufs])) (h.contextTag ctx) List.length_replicate
  | random pd ctx =>
    have htag := h.contextTag ctx
    refine h.of_setPoly (by constructor <;> simp) (by constructor <;> simp) (by simp; rfl) ?_
    refine (h.goodBuffer pd).withResult (hbufs pd (by simp [Instr.bufs])) htag ?_
    exact (draws_mem _ s (by have := htag.two_le; omega) (htag.lt.le.trans (by decide))).1
  | word pd rs1 rs2 ctx valid tq index residue bound =>
    refine h.of_setPoly ?_ (by constructor <;> simp) (State.memWrite_poly ..) ((h.goodBuffer pd).write bound _)
    constructor <;> rfl
  | copy pd pa valid =>
    refine h.of_setPoly ?_ (by constructor <;> simp) (State.tag_store_poly ..) ?_
    · constructor <;> rfl
    · exact (h.goodBuffer pd).withResult (hbufs pd (by simp [Instr.bufs])) ((h.goodBuffer pa).tag valid) (by simp)
  | @values _ pd vs srcs hvs hsrcs ctx =>
    refine h.of_setPoly (by constructor <;> simp) (by constructor <;> simp) (State.putPolyVals_poly ..) ?_
    refine (h.goodBuffer pd).withResult (hbufs pd (polyValues_mem_bufs hvs)) (h.contextTag ctx) ?_
    rw [length_resolve, polyValues_length (h.context ctx).degree hvs hsrcs]

/-! ## Every step -/

theorem Inv.complete {s : State} (h : Inv s) (d : Word) : Inv (s.complete d) :=
  h.of_samePoly (by constructor <;> rfl) rfl ⟨h.faults.clear, h.faults.coded⟩

theorem Inv.raise {s : State} (h : Inv s) (c : Cause) : Inv (s.raise c) :=
  h.of_samePoly (by constructor <;> rfl) rfl ⟨nofun, fun _ => ⟨c, rfl⟩⟩

theorem Inv.refuse {s : State} (h : Inv s) : Inv s.refuse :=
  h.of_samePoly (by constructor <;> rfl) rfl ⟨h.faults.clear, h.faults.coded⟩

theorem Inv.withCommand {s : State} (h : Inv s) (rest : List HostInput) (w : CmdWord) :
    Inv { s with inbox := rest, cmd := w } :=
  h.of_samePoly (by constructor <;> rfl) rfl ⟨h.faults.clear, h.faults.coded⟩

theorem Inv.withInbox {s : State} (h : Inv s) (rest : List HostInput) : Inv { s with inbox := rest } :=
  h.withCommand rest s.cmd

theorem Inv.exec {s t : State} {i : Instr} (h : Inv s) (hbufs : ∀ p ∈ i.bufs, p.val < s.cfg.npoly)
    (he : exec i s = .next t) : Inv t := by
  cases exec_ends he with
  | raised c => exact h.raise c
  | completed effect => exact (h.effect hbufs effect).complete _

/-- The buffers of a legal word exist (30_encoding.md R96 (c)). -/
theorem bufs_lt_of_decodeLegal {npoly : Nat} {w : CmdWord} {i : Instr} (h : decodeLegal npoly w = some i) :
    ∀ p ∈ i.bufs, p.val < npoly := by
  simpa [Instr.wf] using (Option.filter_eq_some_iff.mp h).2

/-- All a step can do: idle, reset, refuse a word, raise IllegalCommand, or execute a legal command (R326). -/
inductive Steps (s : State) : State → Prop where
  | idle : Steps s s
  | reset (rest : List HostInput) : Steps s { s with inbox := rest }.resetBlock
  | refused (rest : List HostInput) : Steps s { s with inbox := rest }.refuse
  | illegal (rest : List HostInput) (w : CmdWord) : Steps s ({ s with inbox := rest, cmd := w }.raise .illegalCommand)
  | executed {t : State} (rest : List HostInput) (w : CmdWord) (i : Instr) (legal : ∀ p ∈ i.bufs, p.val < s.cfg.npoly)
      (h : exec i { s with inbox := rest, cmd := w } = .next t) : Steps s t

theorem step_cases {s t : State} (h : step s = .next t) : Steps s t := by
  unfold step takeInput at h
  split at h
  · cases h
    exact .idle
  · next rest _ =>
    cases h
    exact .reset rest
  · next w rest _ =>
    unfold runWord at h
    split at h
    · cases h
      exact .refused rest
    · split at h
      · cases h
        exact .illegal rest w
      · next i hi => exact .executed rest w i (bufs_lt_of_decodeLegal hi) h

/-- Settles O14: whatever becomes of the host's input, each end of a step keeps the invariant. -/
theorem stepKeepsTheInvariant : Obligations.StepKeepsTheInvariant := by
  unfold Obligations.StepKeepsTheInvariant
  intro s t h hstep
  cases step_cases hstep with
  | idle => exact h
  | reset rest => exact (cleared_resetBlock _).inv h.cfg
  | refused rest => exact (h.withInbox rest).refuse
  | illegal rest w => exact (h.withCommand rest w).raise _
  | executed rest w i legal he => exact (h.withCommand rest w).exec legal he

end Sys2Proof.Machine

/-! # The units on residues (O15)

Under BarrettSafe (40_modular_arithmetic.md R133) every unit answers the exact residue. Both multiplications are an
estimate of the quotient, at most 1 too low, and one correction (`correct_once`). -/

namespace Sys2Proof.Machine

/-! ## One correction -/

/-- The remainder from a quotient estimate that is at most 1 too low, by at most one correction in 64 bits. -/
theorem correct_once {x c q : Nat} (hq : q < two63) (hlow : c * q ≤ x) (hhigh : x < c * q + 2 * q) :
    (if q ≤ trunc64 ((x : Int) - ((c * q : Nat) : Int)) then trunc64 ((x : Int) - ((c * q : Nat) : Int)) - q
      else trunc64 ((x : Int) - ((c * q : Nat) : Int))) = x % q := by
  have hr : trunc64 ((x : Int) - ((c * q : Nat) : Int)) = x - c * q := by
    have h63 : q < 2 ^ 63 := hq
    rw [trunc64, ← Nat.cast_sub hlow]
    omega
  have hx : x % q = (x - c * q) % q := by
    conv_lhs => rw [← Nat.sub_add_cancel hlow, Nat.add_mul_mod_self_right]
  rw [hr, hx]
  split
  · next hle => rw [Nat.mod_eq_sub_mod hle, Nat.mod_eq_of_lt (by omega)]
  · next hlt => rw [Nat.mod_eq_of_lt (by omega)]

/-! ## `BarrettMul` under BarrettSafe -/

/-- A modulus for which every product is exact (R133). -/
structure SafeModulus (q : Nat) : Prop where
  three_le : 3 ≤ q
  lt : q < two63
  safe : barrettSafe q = true

theorem SafeModulus.two_le_k {q : Nat} (h : SafeModulus q) : 2 ≤ (makeDescriptor q).k :=
  lt_bitlen_iff.mpr (by have := h.three_le; omega)

/-- The quotient estimate c of x by q: x without its low part e, times mu without its fraction ρ/q,
without its low part f. Its error times K·L is at most x·ρ + K·(K·L), which BarrettSafe bounds by q·(K·L). -/
theorem estimate_bounds {x q K L A mu ρ e c f : Nat} (hA : K * A + e = x) (he : e < K) (hmu : q * mu + ρ = K * L)
    (hc : L * c + f = A * mu) (hf : f < L) (hx : x ≤ q ^ 2) (hq : 0 < q)
    (hsafe : ρ * q ^ 2 + K * (K * L) ≤ q * (K * L)) : c * q ≤ x ∧ x < c * q + 2 * q := by
  have hKL : 0 < K * L := Nat.mul_pos (by omega) (by omega)
  constructor
  · refine Nat.le_of_mul_le_mul_right ?_ hKL
    calc c * q * (K * L) = L * c * (K * q) := by ring
      _ ≤ A * mu * (K * q) := Nat.mul_le_mul_right _ (by omega)
      _ = K * A * (q * mu) := by ring
      _ ≤ x * (K * L) := Nat.mul_le_mul (by omega) (by omega)
  · refine Nat.lt_of_mul_lt_mul_right (a := K * L) ?_
    have hlow : A * mu * (K * q) < (L * c + L) * (K * q) :=
      Nat.mul_lt_mul_of_pos_right (by omega) (Nat.mul_pos (by omega) hq)
    have hfraction : K * A * ρ ≤ q ^ 2 * ρ := Nat.mul_le_mul_right _ (by omega)
    have hrest : e * (K * L) ≤ K * (K * L) := Nat.mul_le_mul_right _ he.le
    calc x * (K * L) = A * mu * (K * q) + (K * A * ρ + e * (K * L)) := by rw [← hA, ← hmu]; ring
      _ < (L * c + L) * (K * q) + (q ^ 2 * ρ + K * (K * L)) := by omega
      _ = c * q * (K * L) + q * (K * L) + (ρ * q ^ 2 + K * (K * L)) := by ring
      _ ≤ c * q * (K * L) + q * (K * L) + q * (K * L) := Nat.add_le_add_left hsafe _
      _ = (c * q + 2 * q) * (K * L) := by ring

/-- The estimate is not too high and at most 1 too low. -/
theorem barrettQuot_bounds {q : Nat} (h : SafeModulus q) {a b : Nat} (ha : a < q) (hb : b < q) :
    barrettQuot (makeDescriptor q) a b * q ≤ a * b ∧ a * b < barrettQuot (makeDescriptor q) a b * q + 2 * q := by
  obtain ⟨k, hk⟩ : ∃ k, bitlen (q - 1) = k + 2 := ⟨_, (Nat.sub_add_cancel h.two_le_k).symm⟩
  have hM : 2 ^ (2 * (k + 2)) = 2 ^ k * 2 ^ (k + 4) := by rw [← pow_add]; congr 1; omega
  have hsafe := of_decide_eq_true h.safe
  rw [hk, show 3 * (k + 2) - 2 = k + 2 * (k + 2) by omega, pow_add 2 k, hM] at hsafe
  have hquot : barrettQuot (makeDescriptor q) a b = a * b / 2 ^ k * (2 ^ k * 2 ^ (k + 4) / q) / 2 ^ (k + 4) := by
    simp [barrettQuot, makeDescriptor, mul128, hk, hM, Nat.shiftRight_eq_div_pow]
  rw [hquot]
  exact estimate_bounds (Nat.div_add_mod _ _) (Nat.mod_lt _ (by positivity)) (Nat.div_add_mod _ _)
    (Nat.div_add_mod _ _) (Nat.mod_lt _ (by positivity)) (by rw [sq]; exact Nat.mul_le_mul ha.le hb.le) (by omega) hsafe

theorem barrettMul_eq_mod {q : Nat} (h : SafeModulus q) {a b : Nat} (ha : a < q) (hb : b < q) :
    barrettMul (makeDescriptor q) a b = a * b % q := by
  obtain ⟨hlow, hhigh⟩ := barrettQuot_bounds h ha hb
  have := correct_once h.lt hlow hhigh
  rwa [Nat.cast_mul, Nat.cast_mul] at this

/-! ## `MulShoup` (R146): no condition on the modulus -/

/-- The estimate a·bp / 2^64 with bp = b·2^64 / q: both divisions together lose less than 2. -/
theorem shoupQuot_bounds {q W : Nat} (hqW : q ≤ W) {a b : Nat} (ha : a < q) :
    a * (b * W / q) / W * q ≤ a * b ∧ a * b < a * (b * W / q) / W * q + 2 * q := by
  have hq : 0 < q := by omega
  have hp := Nat.div_add_mod (b * W) q
  have he : b * W % q < q := Nat.mod_lt _ hq
  have hc := Nat.div_add_mod (a * (b * W / q)) W
  have hf : a * (b * W / q) % W < W := Nat.mod_lt _ (by omega)
  generalize b * W / q = p at *
  generalize b * W % q = e at *
  generalize a * p / W = c at *
  generalize a * p % W = f at *
  constructor
  · refine Nat.le_of_mul_le_mul_right ?_ (by omega : 0 < W)
    calc c * q * W = W * c * q := by ring
      _ ≤ a * p * q := Nat.mul_le_mul_right _ (by omega)
      _ = a * (q * p) := by ring
      _ ≤ a * (b * W) := Nat.mul_le_mul_left _ (by omega)
      _ = a * b * W := by ring
  · refine Nat.lt_of_mul_lt_mul_right (a := W) ?_
    have hlow : a * p * q < (W * c + W) * q := Nat.mul_lt_mul_of_pos_right (by omega) hq
    have hrest : a * e ≤ q * W := Nat.mul_le_mul ha.le (by omega)
    calc a * b * W = a * p * q + a * e := by rw [mul_assoc, ← hp]; ring
      _ < (W * c + W) * q + q * W := by omega
      _ = (c * q + 2 * q) * W := by ring

theorem mulShoup_eq_mod {q : Nat} (hq : q < two63) {a b : Nat} (ha : a < q) :
    mulShoup q a b (shoupPre q b) = a * b % q := by
  obtain ⟨hlow, hhigh⟩ := shoupQuot_bounds (W := 2 ^ 64) (b := b) (hq.le.trans (by decide)) ha
  have := correct_once hq hlow hhigh
  rwa [← Nat.shiftRight_eq_div_pow (a * _)] at this

/-! ## The units on residues -/

section Units

variable {q : Nat}

theorem residue_some {a : Nat} (ha : a < q) : residue q (some a) = some a := by simp [residue, ha]

@[simp] theorem makeDescriptor_q (q : Nat) : (makeDescriptor q).q = q := rfl

theorem vAdd_some {a b : Nat} (ha : a < q) (hb : b < q) : vAdd q (some a) (some b) = some (modAdd q a b) := by
  simp [vAdd, residue_some, ha, hb]

theorem vSub_some {a b : Nat} (ha : a < q) (hb : b < q) : vSub q (some a) (some b) = some (modSub q a b) := by
  simp [vSub, residue_some, ha, hb]

theorem vNeg_some {a : Nat} (ha : a < q) : vNeg q (some a) = some (modNeg q a) := by simp [vNeg, residue_some, ha]

theorem vBarrett_some (h : SafeModulus q) {a b : Nat} (ha : a < q) (hb : b < q) :
    vBarrett (makeDescriptor q) (some a) (some b) = some (a * b % q) := by
  simp [vBarrett, h.two_le_k.not_gt, residue_some, ha, hb, barrettMul_eq_mod h ha hb]

theorem vMul_some (h : SafeModulus q) {a b : Nat} (ha : a < q) (hb : b < q) :
    vMul (makeDescriptor q) (some a) (some b) = some (a * b % q) := by
  simp [vMul, vBarrett_some h ha hb]

theorem vShoupPre_some {b : Nat} (hb : b < q) : vShoupPre q (some b) = some (shoupPre q b) := by
  simp [vShoupPre, residue_some, hb]

theorem vMulShoup_some (hq : q < two63) {a b : Nat} (ha : a < q) (hb : b < q) :
    vMulShoup q (some a) (some b) (some (shoupPre q b)) = some (a * b % q) := by
  simp [vMulShoup, residue_some, ha, hb, mulShoup_eq_mod hq ha]

theorem twMul_some (mode : Mode) (h : SafeModulus q) {a b : Nat} (ha : a < q) (hb : b < q) :
    twMul mode (makeDescriptor q) (some a) (some b) (some (shoupPre q b)) = some (a * b % q) := by
  cases mode with
  | plain => exact vMul_some h ha hb
  | shoup => exact vMulShoup_some h.lt ha hb

theorem modAdd_lt {a b : Nat} (ha : a < q) (hb : b < q) : modAdd q a b < q := by
  unfold modAdd
  dsimp only
  split_ifs <;> omega

theorem modSub_lt {a b : Nat} (ha : a < q) (hb : b < q) : modSub q a b < q := by
  unfold modSub
  split <;> omega

theorem modNeg_lt {a : Nat} (ha : a < q) : modNeg q a < q := by
  unfold modNeg
  split <;> omega

/-! ### `ModExp` (R141) and `ModInv` (R143) -/

theorem modExpLoop_some (h : SafeModulus q) (f : Nat) : ∀ {r b e : Nat}, r < q → b < q → e < 2 ^ f →
    modExpLoop (makeDescriptor q) f (some r) (some b) e = some (r * b ^ e % q) := by
  have hq : 0 < q := by have := h.three_le; omega
  induction f with
  | zero =>
    intro r b e hr _ he
    obtain rfl : e = 0 := by simpa using he
    simp [modExpLoop, Nat.mod_eq_of_lt hr]
  | succ f ih =>
    intro r b e hr hb he
    rw [modExpLoop]
    split
    · next h0 => simp [h0, Nat.mod_eq_of_lt hr]
    · have hsq : b * b % q < q := Nat.mod_lt _ hq
      have hhalf : e / 2 < 2 ^ f := by omega
      rw [vSquare, vMul_some h hb hb]
      split
      · next hodd =>
        rw [vMul_some h hr hb, ih (Nat.mod_lt _ hq) hsq hhalf]
        have hpow : r * b * (b * b) ^ (e / 2) = r * b ^ e := by
          conv_rhs => rw [← Nat.div_add_mod e 2, hodd, pow_succ, pow_mul, sq]
          ring
        rw [← hpow, Nat.mod_mul_mod, Nat.mul_mod, ← Nat.pow_mod, ← Nat.mul_mod]
      · next heven =>
        rw [ih hr hsq hhalf]
        have hpow : r * (b * b) ^ (e / 2) = r * b ^ e := by
          conv_rhs => rw [← Nat.div_add_mod e 2, show e % 2 = 0 by omega, add_zero, pow_mul, sq]
        rw [← hpow, Nat.mul_mod, ← Nat.pow_mod, ← Nat.mul_mod]

/-- `ModExp` is the power. -/
theorem modExp_some (h : SafeModulus q) {a e : Nat} (ha : a < q) (he : e < 2 ^ 64) :
    modExp (makeDescriptor q) (some a) e = some (a ^ e % q) := by
  have hq : 1 < q := by have := h.three_le; omega
  simp only [modExp, makeDescriptor_q, residue_some ha, modExpLoop_some h 64 hq ha he, one_mul]
  exact residue_some (Nat.mod_lt _ (by omega))

theorem modInv_some (h : SafeModulus q) {a : Nat} (ha : a < q) (h0 : a ≠ 0) :
    modInv (makeDescriptor q) (some a) = some (a ^ (q - 2) % q) := by
  have he : q - 2 < 2 ^ 64 := (Nat.sub_le q 2).trans_lt (h.lt.trans (by decide))
  simp only [modInv, Option.some.injEq, h0, if_false]
  exact modExp_some h ha he

end Units

/-! ## Residues as a property the units keep -/

/-- The value is defined and a canonical residue. -/
def IsResidue (q : Nat) (v : Val) : Prop := ∃ x < q, v = some x

/-- A descriptor in order is the one MakeDescriptor gives. -/
theorem DescriptorOk.desc_eq {s : State} (h : DescriptorOk s) : s.desc = makeDescriptor s.q.toNat := by
  simp [State.desc, makeDescriptor, h.logq, h.mu]

theorem entry_load (s : State) (m : Space) {n i : Nat} (hi : i < n) :
    entry ((s.load m n).map ofWord) i = some (s.memRead m i).toNat := by
  simp [entry, List.getD, hi, ofWord]

section Entries

variable {s : State} {k : Nat} (hk : k < s.n.toNat)
include hk

theorem entry_ctx_tf : entry s.ctx.tf k = some (s.memRead .tf k).toNat := entry_load s .tf hk

theorem entry_ctx_tfShoup : entry s.ctx.tfShoup k = some (s.memRead .tfShoup k).toNat := entry_load s .tfShoup hk

theorem entry_ctx_itf : entry s.ctx.itf k = some (s.memRead .itf k).toNat := entry_load s .itf hk

theorem entry_ctx_itfShoup : entry s.ctx.itfShoup k = some (s.memRead .itfShoup k).toNat := entry_load s .itfShoup hk

end Entries

/-- Under BarrettSafe and with canonical tables every unit answers a residue to residues. -/
theorem unitsKeep_isResidue {s : State} (hd : DescriptorOk s) (h : SafeModulus s.q.toNat) (ht : TablesCanonical s) :
    UnitsKeep s.ctx (IsResidue s.q.toNat) := by
  have hd : s.ctx.d = makeDescriptor s.q.toNat := hd.desc_eq
  have hq : 0 < s.q.toNat := by have := h.three_le; omega
  have hmod : ∀ x, x % s.q.toNat < s.q.toNat := fun x => Nat.mod_lt _ hq
  exact {
    zero := ⟨0, hq, rfl⟩
    add := by rintro _ _ ⟨a, ha, rfl⟩ ⟨b, hb, rfl⟩; exact ⟨_, modAdd_lt ha hb, vAdd_some ha hb⟩
    sub := by rintro _ _ ⟨a, ha, rfl⟩ ⟨b, hb, rfl⟩; exact ⟨_, modSub_lt ha hb, vSub_some ha hb⟩
    neg := by rintro _ ⟨a, ha, rfl⟩; exact ⟨_, modNeg_lt ha, vNeg_some ha⟩
    mul := by rintro _ _ ⟨a, ha, rfl⟩ ⟨b, hb, rfl⟩; exact ⟨_, hmod _, hd ▸ vMul_some h ha hb⟩
    barrett := by rintro _ _ ⟨a, ha, rfl⟩ ⟨b, hb, rfl⟩; exact ⟨_, hmod _, hd ▸ vBarrett_some h ha hb⟩
    forward := by
      rintro mode _ ⟨a, ha, rfl⟩ k hk
      refine ⟨a * (s.memRead .tf k).toNat % s.q.toNat, hmod _, ?_⟩
      rw [hd, entry_ctx_tf hk, entry_ctx_tfShoup hk, ht.tfShoup k hk]
      exact twMul_some mode h ha (ht.tf k hk)
    inverse := by
      rintro mode _ ⟨a, ha, rfl⟩ k hk
      refine ⟨a * (s.memRead .itf k).toNat % s.q.toNat, hmod _, ?_⟩
      rw [hd, entry_ctx_itf hk, entry_ctx_itfShoup hk, ht.itfShoup k hk]
      exact twMul_some mode h ha (ht.itf k hk)
    scale := by
      rintro mode _ ⟨a, ha, rfl⟩
      refine ⟨a * s.invN.toNat % s.q.toNat, hmod _, ?_⟩
      rw [hd, State.ctx, ofWord, ofWord, ht.invNShoup, twMul_some mode h ha ht.invN]
      exact residue_some (hmod _) }

end Sys2Proof.Machine

/-! # Every step keeps coefficients and tables canonical (O15)

CTXINIT on a BarrettSafe prime: the scan's powers are all exact, so its root r has r^((q−1)/2) ≠ 1, the generator g made
of it has g^N = −1, and the tables hold the powers of g and of its inverse. A polynomial command answers residues because
the units do (`unitsKeep_isResidue`). -/

namespace Sys2Proof.Machine

/-! ## Bit reversal (42_transform_context.md R194) -/

theorem bitRev_lt (i w : Nat) : bitRev i w < 2 ^ w := by
  induction w generalizing i with
  | zero => simp [bitRev]
  | succ w ih =>
    have hrest := ih (i / 2)
    have hbit : i % 2 * 2 ^ w ≤ 1 * 2 ^ w := Nat.mul_le_mul_right _ (by omega)
    rw [bitRev, pow_succ]
    omega

/-- The same recursion from the other end: the top bit goes to the bottom. -/
theorem bitRev_succ_top (i w : Nat) : bitRev i (w + 1) = 2 * bitRev i w + i / 2 ^ w % 2 := by
  induction w generalizing i with
  | zero => simp [bitRev]
  | succ w ih =>
    rw [bitRev, ih (i / 2), Nat.div_div_eq_div_mul, ← pow_succ', bitRev]
    ring

/-- Reversing twice gives the w low bits back. -/
theorem bitRev_bitRev (i w : Nat) : bitRev (bitRev i w) w = i % 2 ^ w := by
  induction w with
  | zero => simp [bitRev, Nat.mod_one]
  | succ w ih =>
    have hbit : (2 * bitRev i w + i / 2 ^ w % 2) % 2 = i / 2 ^ w % 2 := by omega
    have hrest : (2 * bitRev i w + i / 2 ^ w % 2) / 2 = bitRev i w := by omega
    rw [bitRev_succ_top i, bitRev, hbit, hrest, ih, Nat.mod_pow_succ]
    ring

/-! ## The scan for a primitive root (41_number_theory.md R170) -/

theorem two_mem_primeFactors {n : Nat} (heven : n % 2 = 0) (hpos : 0 < n) : 2 ∈ primeFactors n := by
  rw [primeFactors, primeFactorsFrom, if_pos heven]
  split
  · obtain rfl : n = 2 := by omega
    simp
  · exact List.mem_cons_self

/-- With exact powers the test rejects or passes, never ends unspecified; what passes has no power equal to 1. -/
theorem certify_of_safe {q r : Nat} (h : SafeModulus q) (hr : r < q) (F : List Nat) :
    certify (makeDescriptor q) F r = .rejected ∨
      certify (makeDescriptor q) F r = .passes ∧ ∀ p ∈ F, r ^ ((q - 1) / p) % q ≠ 1 := by
  have hpow : ∀ p, modExp (makeDescriptor q) (some r) ((q - 1) / p) = some (r ^ ((q - 1) / p) % q) := fun p =>
    modExp_some h hr ((Nat.div_le_self _ p).trans_lt ((Nat.sub_le q 1).trans_lt (h.lt.trans (by decide))))
  simp only [certify, makeDescriptor_q, hpow]
  rw [if_neg (by simp)]
  split
  · exact .inl rfl
  · next hone => exact .inr ⟨rfl, by simpa using hone⟩

/-- The scan among candidates from 2 below q: it ends in none or in a root that passed the test. -/
theorem scanRoots_of_safe {q : Nat} (h : SafeModulus q) (F : List Nat) (left : Nat) :
    ∀ {r : Nat}, 2 ≤ r → r + left ≤ q →
    scanRoots (makeDescriptor q) F left r = .exhausted ∨
      ∃ c, 2 ≤ c ∧ c < q ∧ scanRoots (makeDescriptor q) F left r = .root c ∧ ∀ p ∈ F, c ^ ((q - 1) / p) % q ≠ 1 := by
  induction left with
  | zero => exact fun _ _ => .inl rfl
  | succ left ih =>
    intro r h2 hr
    rw [scanRoots]
    obtain hrej | ⟨hpass, hpowers⟩ := certify_of_safe h (show r < q by omega) F
    · rw [hrej]
      exact ih (by omega) (by omega)
    · rw [hpass]
      exact .inr ⟨r, h2, by omega, rfl, hpowers⟩

/-- What CTXINIT takes from the scan under BarrettSafe: a root whose power (q − 1)/2 is not 1. -/
theorem exists_root_of_takeRootContext {s : State} {q : Nat} {g0 : Val} (h : SafeModulus q) (hodd : q % 2 = 1)
    (hscan : takeRootContext s (findPrimitiveRoot q) = .ok g0) :
    ∃ r, 2 ≤ r ∧ r < q ∧ g0 = some r ∧ r ^ ((q - 1) / 2) % q ≠ 1 := by
  have hq := h.three_le
  obtain hnone | ⟨r, h2, hr, hroot, hpowers⟩ := scanRoots_of_safe h (primeFactors (q - 1)) (q - 2) le_rfl (by omega)
  · rw [findPrimitiveRoot, hnone] at hscan
    cases hscan
  · rw [findPrimitiveRoot, hroot] at hscan
    cases hscan
    exact ⟨r, h2, hr, rfl, hpowers 2 (two_mem_primeFactors (by omega) (by omega))⟩

/-! ## The generator (41_number_theory.md R172) and the inverse (40_modular_arithmetic.md R143) of a prime modulus -/

section Prime

variable {q : Nat}

theorem natCast_ne_zero_of_lt {a : Nat} (h0 : a ≠ 0) (ha : a < q) : (a : ZMod q) ≠ 0 := by
  rw [Ne, ZMod.natCast_eq_zero_iff]
  exact Nat.not_dvd_of_pos_of_lt (Nat.pos_of_ne_zero h0) ha

/-- Fermat: a nonzero residue times its power q − 2 is 1. -/
theorem mul_pow_sub_two_mod (hp : q.Prime) {a : Nat} (ha : a < q) (h0 : a ≠ 0) : a * (a ^ (q - 2) % q) % q = 1 := by
  have := Fact.mk hp
  have hone : ((a * a ^ (q - 2) : Nat) : ZMod q) = (1 : Nat) := by
    rw [← pow_succ', show q - 2 + 1 = q - 1 by have := hp.two_le; omega]
    push_cast
    exact ZMod.pow_card_sub_one_eq_one (natCast_ne_zero_of_lt h0 ha)
  rw [Nat.mul_mod_mod]
  exact ((ZMod.natCast_eq_natCast_iff' _ _ q).mp hone).trans (Nat.mod_eq_of_lt hp.one_lt)

/-- The generator's power N is r^((q−1)/2), a square root of 1 that is not 1, so −1. -/
theorem generatorFrom_pow (hp : q.Prime) {n r : Nat} (hcong : q % (2 * n) = 1) (h0 : r ≠ 0) (hr : r < q)
    (hroot : r ^ ((q - 1) / 2) % q ≠ 1) : generatorFrom q n r ^ n % q = q - 1 := by
  have := Fact.mk hp
  obtain ⟨c, hc⟩ : ∃ c, q = 2 * n * c + 1 := ⟨q / (2 * n), by rw [← hcong, Nat.div_add_mod]⟩
  have hn : 0 < n := Nat.pos_of_ne_zero (by rintro rfl; have := hp.two_le; omega)
  have hhalf : (q - 1) / 2 = n * c := by rw [hc, mul_assoc]; omega
  have hexp : (q - 1) / (2 * n) * n = n * c := by
    rw [hc, Nat.add_sub_cancel, Nat.mul_div_cancel_left c (by omega), mul_comm]
  have hq2 : q / 2 = n * c := by rw [← hhalf]; rw [mul_assoc] at hc; omega
  rw [hhalf] at hroot
  have hpow : (r : ZMod q) ^ (n * c) = -1 := by
    refine (hq2 ▸ ZMod.pow_div_two_eq_neg_one_or_one q (natCast_ne_zero_of_lt h0 hr)).resolve_left fun hone => hroot ?_
    have : ((r ^ (n * c) : Nat) : ZMod q) = (1 : Nat) := by push_cast; exact hone
    exact ((ZMod.natCast_eq_natCast_iff' _ _ q).mp this).trans (Nat.mod_eq_of_lt hp.one_lt)
  have hcast : ((r ^ (n * c) : Nat) : ZMod q) = ((q - 1 : Nat) : ZMod q) := by
    rw [Nat.cast_pow, hpow, Nat.cast_pred hp.pos, ZMod.natCast_self, zero_sub]
  rw [generatorFrom, ← Nat.pow_mod, ← pow_mul, hexp, (ZMod.natCast_eq_natCast_iff' _ _ q).mp hcast]
  exact Nat.mod_eq_of_lt (Nat.sub_lt hp.pos one_pos)

end Prime

/-! ## The tables (42_transform_context.md R196, R197) -/

theorem entry_powersFrom {q : Nat} (h : SafeModulus q) {g : Nat} (hg : g < q) (n : Nat) : ∀ {p i : Nat}, p < q → i < n →
    entry (powersFrom (makeDescriptor q) (some g) n (some p)) i = some (p * g ^ i % q) := by
  induction n with
  | zero => exact fun _ hi => absurd hi (Nat.not_lt_zero _)
  | succ n ih =>
    intro p i hp hi
    cases i with
    | zero => simp [powersFrom, entry, Nat.mod_eq_of_lt hp]
    | succ i =>
      have hnext : p * g % q < q := Nat.mod_lt _ (by omega)
      have := ih hnext (i := i) (by omega)
      rw [Nat.mod_mul_mod, mul_assoc, ← pow_succ'] at this
      rwa [powersFrom, vMul_some h hp hg]

theorem entry_map_of_some {f : Val → Val} {l : List Val} {i x : Nat} (h : entry l i = some x) :
    entry (l.map f) i = f (some x) := by
  have hl : l[i]? = some (some x) := by simpa [entry, List.getD, Option.getD_eq_iff] using h
  simp [entry, List.getD, hl]

theorem odd_of_congruent {q n : Nat} (h : q % (2 * n) = 1) : q % 2 = 1 := by
  have := Nat.mod_mul_right_mod q 2 n
  rw [h] at this
  omega

namespace ContextOperands

variable {cfg : Config} {q n : Nat} (h : ContextOperands cfg q n)
include h

theorem degree_pos : 0 < n := eq_two_pow_log2 h.pow2 ▸ by positivity

theorem degree_lt : n < q := by
  have hpos := h.degree_pos
  have hcong := h.congruent
  by_contra hle
  rw [Nat.mod_eq_of_lt (by omega)] at hcong
  have := h.two_le
  omega

theorem natPrime : q.Prime := (isPrime_iff q).mp h.prime

theorem safeModulus (hsafe : barrettSafe q = true) : SafeModulus q :=
  ⟨by have := h.two_le; have := odd_of_congruent h.congruent; omega, h.lt, hsafe⟩

end ContextOperands

theorem generatorOf_some {q : Nat} (hs : SafeModulus q) (n : Nat) {r : Nat} (hr : r < q) :
    generatorOf q n (some r) = some (generatorFrom q n r) :=
  modExp_some hs hr ((Nat.div_le_self _ _).trans_lt ((Nat.sub_le q 1).trans_lt (hs.lt.trans (by decide))))

theorem shoupPre_lt {q b : Nat} (hb : b < q) : shoupPre q b < 2 ^ 64 :=
  Nat.div_lt_of_lt_mul (Nat.mul_lt_mul_of_pos_right hb (by positivity))

/-- Operands CTXINIT accepts with a modulus of which every product is exact, and a root its scan may answer. -/
structure SafeContext (cfg : Config) (q n r : Nat) : Prop where
  operands : ContextOperands cfg q n
  modulus : SafeModulus q
  root_two_le : 2 ≤ r
  root_lt : r < q
  root : r ^ ((q - 1) / 2) % q ≠ 1

section Tables

variable {s : State} {q n r : Nat} (h : SafeContext s.cfg q n r)
include h

theorem generator_pow : generatorFrom q n r ^ n % q = q - 1 :=
  generatorFrom_pow h.operands.natPrime h.operands.congruent (by have := h.root_two_le; omega) h.root_lt h.root

theorem generator_lt : generatorFrom q n r < q := Nat.mod_lt _ h.operands.natPrime.pos

theorem generator_ne_zero : generatorFrom q n r ≠ 0 := by
  intro h0
  have hpow := generator_pow h
  rw [h0, zero_pow h.operands.degree_pos.ne', Nat.zero_mod] at hpow
  have := h.modulus.three_le
  omega

theorem entry_tf {j : Nat} (hj : j < n) : entry ((buildTables q n (some r)).values .tf) j =
    some (generatorFrom q n r ^ bitRev j (Nat.log2 n) % q) := by
  have hn := eq_two_pow_log2 h.operands.pow2
  simp only [Tables.values, buildTables, generatorOf_some h.modulus n h.root_lt]
  rw [entry_bitReversed _ _ (hn ▸ hj), entry_powersFrom h.modulus (generator_lt h) n h.operands.natPrime.one_lt
    (by have := bitRev_lt j (Nat.log2 n); omega), one_mul]

theorem entry_itf {j : Nat} (hj : j < n) : entry ((buildTables q n (some r)).values .itf) j =
    some ((generatorFrom q n r ^ (q - 2) % q) ^ bitRev j (Nat.log2 n) % q) := by
  have hn := eq_two_pow_log2 h.operands.pow2
  simp only [Tables.values, buildTables, generatorOf_some h.modulus n h.root_lt,
    modInv_some h.modulus (generator_lt h) (generator_ne_zero h)]
  rw [entry_bitReversed _ _ (hn ▸ hj), entry_powersFrom h.modulus (Nat.mod_lt _ h.operands.natPrime.pos) n
    h.operands.natPrime.one_lt (by have := bitRev_lt j (Nat.log2 n); omega), one_mul]

/-- A word of a table, once its value is known. -/
theorem toNat_memRead_buildContext {m : Space} {i x : Nat} (hm : ∀ p, m ≠ .poly p) (hi : i < n)
    (hx : entry ((buildTables q n (some r)).values m) i = some x) (hlt : x < 2 ^ 64) :
    ((s.buildContext q n (some r)).memRead m i).toNat = x := by
  rw [memRead_buildContext_eq h.operands (some r) hm hi hx, BitVec.toNat_ofNat, Nat.mod_eq_of_lt hlt]

theorem mod_lt_word (x : Nat) : x % q < 2 ^ 64 :=
  (Nat.mod_lt _ h.operands.natPrime.pos).trans (h.operands.lt.trans (by decide))

theorem toNat_tf {j : Nat} (hj : j < n) : ((s.buildContext q n (some r)).memRead .tf j).toNat =
    generatorFrom q n r ^ bitRev j (Nat.log2 n) % q :=
  toNat_memRead_buildContext h nofun hj (entry_tf h hj) (mod_lt_word h _)

theorem toNat_itf {j : Nat} (hj : j < n) : ((s.buildContext q n (some r)).memRead .itf j).toNat =
    (generatorFrom q n r ^ (q - 2) % q) ^ bitRev j (Nat.log2 n) % q :=
  toNat_memRead_buildContext h nofun hj (entry_itf h hj) (mod_lt_word h _)

theorem toNat_tfShoup {j : Nat} (hj : j < n) : ((s.buildContext q n (some r)).memRead .tfShoup j).toNat =
    shoupPre q (generatorFrom q n r ^ bitRev j (Nat.log2 n) % q) := by
  have hlt := Nat.mod_lt (generatorFrom q n r ^ bitRev j (Nat.log2 n)) h.operands.natPrime.pos
  exact toNat_memRead_buildContext h nofun hj ((entry_map_of_some (entry_tf h hj)).trans (vShoupPre_some hlt))
    (shoupPre_lt hlt)

theorem toNat_itfShoup {j : Nat} (hj : j < n) : ((s.buildContext q n (some r)).memRead .itfShoup j).toNat =
    shoupPre q ((generatorFrom q n r ^ (q - 2) % q) ^ bitRev j (Nat.log2 n) % q) := by
  have hlt := Nat.mod_lt ((generatorFrom q n r ^ (q - 2) % q) ^ bitRev j (Nat.log2 n)) h.operands.natPrime.pos
  exact toNat_memRead_buildContext h nofun hj ((entry_map_of_some (entry_itf h hj)).trans (vShoupPre_some hlt))
    (shoupPre_lt hlt)

/-- The two scalars: N⁻¹ and its Shoup word. -/
theorem toNat_invN : (s.buildContext q n (some r)).invN.toNat = n ^ (q - 2) % q ∧
    (s.buildContext q n (some r)).invNShoup.toNat = shoupPre q (n ^ (q - 2) % q) := by
  have hlt := Nat.mod_lt (n ^ (q - 2)) h.operands.natPrime.pos
  have hinv : (buildTables q n (some r)).invN = some (n ^ (q - 2) % q) :=
    modInv_some h.modulus h.operands.degree_lt h.operands.degree_pos.ne'
  have hshoup : (buildTables q n (some r)).invNShoup = some (shoupPre q (n ^ (q - 2) % q)) := by
    rw [← vShoupPre_some hlt, ← hinv]
    rfl
  simp only [State.buildContext, State.flagsCtxinit_invN, State.flagsCtxinit_invNShoup, State.setTables,
    State.setInvN, hinv, hshoup, takeVal, BitVec.toNat_ofNat]
  exact ⟨Nat.mod_eq_of_lt (mod_lt_word h _), Nat.mod_eq_of_lt (shoupPre_lt hlt)⟩

variable (hcfg : s.cfg.ok)
include hcfg

theorem tablesCanonical_buildContext : TablesCanonical (s.buildContext q n (some r)) := by
  have hpos := h.operands.natPrime.pos
  constructor <;> simp only [toNat_n_buildContext hcfg h.operands, (descriptorOk_buildContext h.operands _).2]
  case tf => exact fun i hi => toNat_tf h hi ▸ Nat.mod_lt _ hpos
  case itf => exact fun i hi => toNat_itf h hi ▸ Nat.mod_lt _ hpos
  case tfShoup => exact fun i hi => toNat_tf h hi ▸ toNat_tfShoup h hi
  case itfShoup => exact fun i hi => toNat_itf h hi ▸ toNat_itfShoup h hi
  case invN => exact (toNat_invN h).1 ▸ Nat.mod_lt _ hpos
  case invNShoup => exact (toNat_invN h).1 ▸ (toNat_invN h).2

theorem tablesArePowers_buildContext :
    TablesArePowers (s.buildContext q n (some r)) (generatorFrom q n r) := by
  have hp := h.operands.natPrime
  have hn := eq_two_pow_log2 h.operands.pow2
  have hrev : ∀ i, bitRev i (Nat.log2 n) < n := fun i => (bitRev_lt i _).trans_eq hn.symm
  have hback : ∀ i < n, bitRev (bitRev i (Nat.log2 n)) (Nat.log2 n) = i := fun i hi => by
    rw [bitRev_bitRev, ← hn, Nat.mod_eq_of_lt hi]
  constructor <;> simp only [toNat_n_buildContext hcfg h.operands, toNat_logn_buildContext hcfg h.operands,
    (descriptorOk_buildContext h.operands _).2]
  case root => exact generator_pow h
  case tf =>
    intro i hi
    rw [toNat_tf h (hrev i), hback i hi]
  case itf =>
    intro i hi
    rw [toNat_itf h (hrev i), hback i hi, Nat.mod_mul_mod, ← mul_pow, Nat.pow_mod, mul_comm,
      mul_pow_sub_two_mod hp (generator_lt h) (generator_ne_zero h), one_pow, Nat.mod_eq_of_lt hp.one_lt]
  case invN =>
    rw [(toNat_invN h).1, mul_comm]
    exact mul_pow_sub_two_mod hp h.operands.degree_lt h.operands.degree_pos.ne'

end Tables

/-! ## Canonical buffers -/

/-- What R44 asks of one buffer: under BarrettSafe of its modulus its TN words are written and residues. -/
def CanonicalBuffer (b : Poly) : Prop :=
  b.valid = true → barrettSafe b.tq.toNat = true →
    ∀ i < b.tn.toNat, ∃ w, Mem.find b.words i = some w ∧ w.toNat < b.tq.toNat

theorem memRead_of_find {s : State} {m : Space} {i : Nat} {w : Word} (h : Mem.find (s.mem m) i = some w) :
    s.memRead m i = w := by
  simp [State.memRead, h]

theorem Canonical.canonicalBuffer {s : State} (h : Canonical s) (hinv : Inv s) (p : Buf) :
    CanonicalBuffer s.poly[p] := by
  intro hv hsafe i hi
  obtain ⟨w, hw⟩ := Option.isSome_iff_exists.mp ((hinv.buffers p hv).words i hi)
  exact ⟨w, hw, memRead_of_find (m := .poly p) hw ▸ h.coeffs p hv hsafe i hi⟩

/-- The clause of `Canonical` about coefficients, from every buffer's. -/
theorem coeffs_of_canonicalBuffers {s : State} (h : ∀ p : Buf, CanonicalBuffer s.poly[p]) (p : Buf)
    (hv : s.poly[p].valid = true) (hsafe : barrettSafe s.poly[p].tq.toNat = true) :
    ∀ i < s.poly[p].tn.toNat, (s.memRead (.poly p) i).toNat < s.poly[p].tq.toNat := by
  intro i hi
  obtain ⟨w, hw, hlt⟩ := h p hv hsafe i hi
  exact (memRead_of_find (m := .poly p) hw).symm ▸ hlt

theorem canonicalBuffer_withResult (b : Poly) {tq tn : Word} {ws : List Word} (hlen : ws.length = tn.toNat)
    (hws : barrettSafe tq.toNat = true → ∀ w ∈ ws, w.toNat < tq.toNat) : CanonicalBuffer (b.withResult tq tn ws) := by
  intro _ hsafe i hi
  have hi : i < ws.length := hlen ▸ hi
  exact ⟨ws[i], Mem.find_store_zero _ _ hi, hws hsafe _ (List.getElem_mem hi)⟩

theorem CanonicalBuffer.write {b : Poly} (h : CanonicalBuffer b) (i : Nat) {v : Word} (hv : v.toNat < b.tq.toNat) :
    CanonicalBuffer { b with words := Mem.write b.words i v } := by
  intro hvalid hsafe j hj
  rw [Mem.find_write]
  split
  · exact ⟨v, rfl, hv⟩
  · exact h hvalid hsafe j hj

/-! ## Effects that leave the context alone -/

theorem TablesCanonical.congr {s t : State} (h : TablesCanonical s) (hc : SameContext s t) : TablesCanonical t := by
  have htf : ∀ i, t.memRead .tf i = s.memRead .tf i := State.memRead_congr hc.tf
  have hitf : ∀ i, t.memRead .itf i = s.memRead .itf i := State.memRead_congr hc.itf
  have htfShoup : ∀ i, t.memRead .tfShoup i = s.memRead .tfShoup i := State.memRead_congr hc.tfShoup
  have hitfShoup : ∀ i, t.memRead .itfShoup i = s.memRead .itfShoup i := State.memRead_congr hc.itfShoup
  obtain ⟨tf, itf, tfShoup, itfShoup, invN, invNShoup⟩ := h
  constructor <;> simpa only [htf, hitf, htfShoup, hitfShoup, hc.q, hc.n, hc.invN, hc.invNShoup]

theorem TablesArePowers.congr {s t : State} {g : Nat} (h : TablesArePowers s g) (hc : SameContext s t) :
    TablesArePowers t g := by
  have htf : ∀ i, t.memRead .tf i = s.memRead .tf i := State.memRead_congr hc.tf
  have hitf : ∀ i, t.memRead .itf i = s.memRead .itf i := State.memRead_congr hc.itf
  obtain ⟨root, tf, itf, invN⟩ := h
  constructor <;> simpa only [htf, hitf, hc.q, hc.n, hc.logn, hc.invN]

theorem Canonical.of_canonicalBuffers {s t : State} (h : Canonical s) (hc : SameContext s t)
    (hb : ∀ p : Buf, CanonicalBuffer t.poly[p]) : Canonical t where
  tables hv hsafe :=
    have ⟨hcanonical, g, hpowers⟩ := h.tables (hc.ctxvalid ▸ hv) (hc.q ▸ hsafe)
    ⟨hcanonical.congr hc, g, hpowers.congr hc⟩
  coeffs := coeffs_of_canonicalBuffers hb

theorem Canonical.of_samePoly {s t : State} (h : Canonical s) (hinv : Inv s) (hc : SameContext s t)
    (hp : t.poly = s.poly) : Canonical t := h.of_canonicalBuffers hc (hp ▸ h.canonicalBuffer hinv)

theorem Canonical.of_setPoly {s t : State} (h : Canonical s) (hinv : Inv s) (hc : SameContext s t) {pd : Buf} {b : Poly}
    (hp : t.poly = s.poly.set pd b) (hb : CanonicalBuffer b) : Canonical t :=
  h.of_canonicalBuffers hc (hp ▸ forall_poly_set (P := fun _ b => CanonicalBuffer b) (h.canonicalBuffer hinv) hb)

/-! ## The polynomial commands -/

theorem ContextOk.safeModulus {s : State} (h : ContextOk s) (hd : DescriptorOk s)
    (hsafe : barrettSafe s.q.toNat = true) : SafeModulus s.q.toNat :=
  ⟨by have := hd.two_le; have := odd_of_congruent h.congruent; omega, hd.lt, hsafe⟩

/-- Residues are stored as themselves, so the words are residues. -/
theorem resolve_lt {q : Nat} (hq : q ≤ 2 ^ 64) (vs : List Val) : ∀ k, (∀ v ∈ vs, IsResidue q v) →
    ∀ w ∈ (resolve k vs).1, w.toNat < q := by
  induction vs with
  | nil => exact fun _ _ _ => nofun
  | cons v vs ih =>
    intro k h
    obtain ⟨⟨x, hx, rfl⟩, hvs⟩ := List.forall_mem_cons.mp h
    refine List.forall_mem_cons.mpr ⟨?_, ih k hvs⟩
    rwa [BitVec.toNat_ofNat, Nat.mod_eq_of_lt (by omega)]

/-- The coefficients of a source that passed PolyCheck are residues. -/
theorem coeffs_allOf_isResidue {s : State} (h : Canonical s) (hsafe : barrettSafe s.q.toNat = true) {p : Buf}
    (hp : PolyReady s p) : AllOf (IsResidue s.q.toNat) s.n.toNat (s.coeffs p) where
  length := by simp [State.coeffs]
  all := by
    have hcoeffs := h.coeffs p hp.valid (by rwa [hp.tq])
    rw [hp.tq, hp.tn] at hcoeffs
    simpa [State.coeffs, State.load, ofWord, IsResidue] using hcoeffs

theorem polyValues_isResidue {s : State} (hinv : Inv s) (h : Canonical s) (hctx : s.ctxvalid = true)
    (hsafe : barrettSafe s.q.toNat = true) {i : Instr} {pd : Buf} {vs : List Val} {srcs : List Buf}
    (hvs : s.polyValues i = some (pd, vs)) (hsrcs : i.polySources = some srcs) (hready : ∀ p ∈ srcs, PolyReady s p) :
    ∀ v ∈ vs, IsResidue s.q.toNat v := by
  have hc := hinv.context hctx
  have hd := hinv.descriptor hc.modvalid
  have hunits := unitsKeep_isResidue hd (hc.safeModulus hd hsafe) (h.tables hctx hsafe).1
  exact (polyValues_allOf hunits hc.degree hvs hsrcs fun p hp => coeffs_allOf_isResidue h hsafe (hready p hp)).all

/-! ## CTXINIT -/

theorem Canonical.ctxinit {s : State} (h : Canonical s) (hinv : Inv s) {q n : Nat} {g0 : Val}
    (hop : ContextOperands s.cfg q n) (hscan : takeRootContext s (findPrimitiveRoot q) = .ok g0) :
    Canonical (s.buildContext q n g0) where
  tables _ hsafe := by
    rw [(descriptorOk_buildContext hop g0).2] at hsafe
    have hs := hop.safeModulus hsafe
    obtain ⟨r, h2, hr, rfl, hroot⟩ := exists_root_of_takeRootContext hs (odd_of_congruent hop.congruent) hscan
    have hsc : SafeContext s.cfg q n r := ⟨hop, hs, h2, hr, hroot⟩
    exact ⟨tablesCanonical_buildContext hsc hinv.cfg, _, tablesArePowers_buildContext hsc hinv.cfg⟩
  coeffs := coeffs_of_canonicalBuffers (by
    rw [show (s.buildContext q n g0).poly = s.poly by simp [State.buildContext]]
    exact h.canonicalBuffer hinv)

/-! ## Every effect and every step -/

theorem Canonical.effect {s u : State} {i : Instr} (h : Canonical s) (hinv : Inv s) (he : Effect s i u) :
    Canonical u := by
  cases he with
  | register => exact h.of_samePoly hinv (by constructor <;> rfl) rfl
  | response => exact h
  | descriptor r => exact ⟨nofun, coeffs_of_canonicalBuffers (h.canonicalBuffer hinv)⟩
  | context rs1 rs2 g0 pow2 bound two_le lt congruent prime scan =>
    exact h.ctxinit hinv ⟨pow2, bound, two_le, lt, congruent, prime⟩ scan
  | zero pd ctx =>
    refine h.of_setPoly hinv (by constructor <;> simp) (State.putPoly_poly ..) ?_
    have hq := (hinv.contextTag ctx).two_le
    exact canonicalBuffer_withResult _ List.length_replicate fun _ w hw => by
      rw [List.eq_of_mem_replicate hw]
      exact (by decide : (0 : Word).toNat < 2).trans_le hq
  | random pd ctx =>
    have htag := hinv.contextTag ctx
    have hdraws := draws_mem s.n.toNat s (lo := 1) htag.two_le (htag.lt.le.trans (by decide))
    refine h.of_setPoly hinv (by constructor <;> simp) (by simp; rfl) ?_
    exact canonicalBuffer_withResult _ hdraws.1 fun _ w hw => (hdraws.2 w hw).2
  | word pd rs1 rs2 ctx valid tq index residue =>
    refine h.of_setPoly hinv (by constructor <;> rfl) (State.memWrite_poly ..) ?_
    exact (h.canonicalBuffer hinv pd).write _ (by rw [tq]; exact residue)
  | copy pd pa valid =>
    refine h.of_setPoly hinv (by constructor <;> rfl) (State.tag_store_poly ..) ?_
    refine canonicalBuffer_withResult _ (by simp) fun hsafe w hw => ?_
    obtain ⟨i, hi, rfl⟩ := List.mem_map.mp hw
    exact h.coeffs pa valid hsafe i (List.mem_range.mp hi)
  | @values _ pd vs srcs hvs hsrcs ctx ready =>
    refine h.of_setPoly hinv (by constructor <;> simp) (State.putPolyVals_poly ..) ?_
    have hlen := polyValues_length (hinv.context ctx).degree hvs hsrcs
    refine canonicalBuffer_withResult _ (by rw [length_resolve, hlen]) fun hsafe => ?_
    exact resolve_lt ((hinv.contextTag ctx).lt.le.trans (by decide)) vs _
      (polyValues_isResidue hinv h ctx hsafe hvs hsrcs ready)

theorem Canonical.withCommand {s : State} (h : Canonical s) (hinv : Inv s) (rest : List HostInput) (w : CmdWord) :
    Canonical { s with inbox := rest, cmd := w } := h.of_samePoly hinv (by constructor <;> rfl) rfl

theorem Canonical.raise {s : State} (h : Canonical s) (hinv : Inv s) (c : Cause) : Canonical (s.raise c) :=
  h.of_samePoly hinv (by constructor <;> rfl) rfl

theorem Canonical.exec {s t : State} {i : Instr} (h : Canonical s) (hinv : Inv s)
    (hbufs : ∀ p ∈ i.bufs, p.val < s.cfg.npoly) (he : exec i s = .next t) : Canonical t := by
  cases exec_ends he with
  | raised c => exact h.raise hinv c
  | completed effect =>
    exact (h.effect hinv effect).of_samePoly (hinv.effect hbufs effect) (by constructor <;> rfl) rfl

/-- Settles O15: the same case split as for the invariant, which the step rests on. -/
theorem stepKeepsCoefficientsCanonical : Obligations.StepKeepsCoefficientsCanonical := by
  unfold Obligations.StepKeepsCoefficientsCanonical
  intro s t hinv h hstep
  cases step_cases hstep with
  | idle => exact h
  | reset rest => exact (cleared_resetBlock _).canonical
  | refused rest => exact h.of_samePoly hinv (by constructor <;> rfl) rfl
  | illegal rest w => exact (h.withCommand hinv rest w).raise (hinv.withCommand rest w) _
  | executed rest w i legal he => exact (h.withCommand hinv rest w).exec (hinv.withCommand rest w) legal he

end Sys2Proof.Machine

/-! # The frame of a command (O16, O17)

Both statements are read off the effects (`exec_ends`): each lemma says which effects leave a part of the state as it was,
and raising a fault or completing touches none of these parts. -/

namespace Sys2Proof.Machine

/-! ## The context and the descriptor (20_memory.md R67) -/

/-- Only the effects of SETMOD and CTXINIT touch the context or the descriptor. -/
theorem Effect.sameContext {s u : State} {i : Instr} (h : Effect s i u) (hset : ∀ r, i ≠ .setmod r)
    (hctx : ∀ a b, i ≠ .ctxinit a b) : SameContext s u := by
  cases h with
  | descriptor r => exact absurd rfl (hset r)
  | context rs1 rs2 => exact absurd rfl (hctx rs1 rs2)
  | register | response | word | copy => constructor <;> rfl
  | zero | random | values => constructor <;> simp

/-- The table words, the degree and the scalars of the context of t are those of s. -/
structure SameTables (s t : State) : Prop where
  tf : t.tf = s.tf
  tfShoup : t.tfShoup = s.tfShoup
  itf : t.itf = s.itf
  itfShoup : t.itfShoup = s.itfShoup
  n : t.n = s.n
  logn : t.logn = s.logn
  invN : t.invN = s.invN
  invNShoup : t.invNShoup = s.invNShoup

/-- SETMOD too leaves the tables: it writes the descriptor and CTXVALID only (40_modular_arithmetic.md R121). -/
theorem Effect.sameTables {s u : State} {i : Instr} (h : Effect s i u) (hctx : ∀ a b, i ≠ .ctxinit a b) :
    SameTables s u := by
  cases h with
  | context rs1 rs2 => exact absurd rfl (hctx rs1 rs2)
  | register | response | descriptor | word | copy => constructor <;> rfl
  | zero | random | values => constructor <;> simp

/-- Settles O16: of the effects only that of CTXINIT touches the tables, and only those of CTXINIT and SETMOD the
descriptor. -/
theorem onlyCtxinitWritesTheContext : Obligations.OnlyCtxinitWritesTheContext := by
  unfold Obligations.OnlyCtxinitWritesTheContext
  intro i s t hexec hctx
  cases exec_ends hexec with
  | raised c => exact ⟨⟨rfl, rfl, rfl, rfl, rfl, rfl, rfl, rfl⟩, fun _ => ⟨rfl, rfl, rfl, rfl, rfl⟩⟩
  | completed effect =>
    obtain ⟨htf, htfShoup, hitf, hitfShoup, hn, hlogn, hinvN, hinvNShoup⟩ := effect.sameTables hctx
    refine ⟨⟨htf, htfShoup, hitf, hitfShoup, hn, hlogn, hinvN, hinvNShoup⟩, fun hset => ?_⟩
    have hc := effect.sameContext hset hctx
    exact ⟨hc.q, hc.logq, hc.mu, hc.modvalid, hc.ctxvalid⟩

/-! ## Registers, buffers and the host's side (20_memory.md R60, R75) -/

theorem Effect.sreg {s u : State} {i : Instr} (h : Effect s i u) {r : Reg} (hr : i.destReg ≠ some r) :
    u.sreg[r] = s.sreg[r] := by
  cases h with
  | @register _ rd hrd w k =>
    have hne : rd ≠ r := fun e => hr (e ▸ hrd)
    exact (getElem_vector_set s.sreg rd r w).trans (if_neg hne)
  | response | descriptor | word | copy => rfl
  | context => simp [State.buildContext]
  | zero | random | values => simp

theorem polyValues_destBuf {s : State} {i : Instr} {pd : Buf} {vs : List Val} (h : s.polyValues i = some (pd, vs)) :
    i.destBuf = some pd := by
  cases i <;> cases h <;> rfl

/-- Replacing the destination buffer leaves the other buffers. -/
theorem poly_of_set_destBuf {s t : State} {i : Instr} {pd p : Buf} {b : Poly} (hdest : i.destBuf = some pd)
    (hp : i.destBuf ≠ some p) (hpoly : t.poly = s.poly.set pd b) : t.poly[p] = s.poly[p] := by
  have hne : pd ≠ p := fun e => hp (e ▸ hdest)
  rw [hpoly, getElem_vector_set, if_neg hne]

theorem Effect.poly {s u : State} {i : Instr} (h : Effect s i u) {p : Buf} (hp : i.destBuf ≠ some p) :
    u.poly[p] = s.poly[p] := by
  cases h with
  | register | response | descriptor => rfl
  | context => simp [State.buildContext]
  | zero => exact poly_of_set_destBuf rfl hp (State.putPoly_poly ..)
  | random => exact poly_of_set_destBuf rfl hp (by simp; rfl)
  | word => exact poly_of_set_destBuf rfl hp (State.memWrite_poly ..)
  | copy => exact poly_of_set_destBuf rfl hp (State.tag_store_poly ..)
  | values hvs => exact poly_of_set_destBuf (polyValues_destBuf hvs) hp (State.putPolyVals_poly ..)

/-- No effect touches the parameters, what the host presents or the latched word. -/
structure SameHost (s t : State) : Prop where
  cfg : t.cfg = s.cfg
  inbox : t.inbox = s.inbox
  cmd : t.cmd = s.cmd

theorem Effect.sameHost {s u : State} {i : Instr} (h : Effect s i u) : SameHost s u := by
  cases h <;> constructor <;> simp [State.buildContext]

/-- Only PRAND draws from the random source (43_polynomial_ring.md R224). -/
theorem Effect.oracle {s u : State} {i : Instr} (h : Effect s i u) (hi : ∀ p, i ≠ .prand p) : u.oracle = s.oracle := by
  cases h with
  | random pd => exact absurd rfl (hi pd)
  | register | response | descriptor | word | copy => rfl
  | context => simp [State.buildContext]
  | zero | values => simp

/-- Settles O17: every effect writes at most its destination register or buffer, and raising and completing write neither. -/
theorem commandChangesOnlyItsDestination : Obligations.CommandChangesOnlyItsDestination := by
  unfold Obligations.CommandChangesOnlyItsDestination
  intro i s t hexec
  cases exec_ends hexec with
  | raised c => exact ⟨fun _ _ => rfl, fun _ _ => rfl, rfl, rfl, rfl, fun _ => rfl⟩
  | completed effect =>
    obtain ⟨hcfg, hinbox, hcmd⟩ := effect.sameHost
    exact ⟨fun _ => effect.sreg, fun _ => effect.poly, hcfg, hinbox, hcmd, effect.oracle⟩

end Sys2Proof.Machine

/-! # The encoding (O1, O2, O3, O4)

`bits` cuts a word into fields. The encoder puts an operand where the decoder reads it (O1). What the decoder does with a
word is said once, by the five cases of `DecodeCase`; the other direction of the round trip (O2) and the opcode map (O3) are
read off them. -/

namespace Sys2Proof

/-! ## The fields of the words the encoder makes (30_encoding.md R91 to R94) -/

section EncodedFields

variable {op a b c d : Nat}

theorem bits_encodeR_opcode (hop : op < 256) : bits (encodeR op a b c d) 7 0 = op := by
  simp only [bits, encodeR]; omega

theorem bits_encodeR_slotA (hop : op < 256) (ha : a < 16) : bits (encodeR op a b c d) 11 8 = a := by
  simp only [bits, encodeR]; omega

theorem bits_encodeR_slotB (hop : op < 256) (ha : a < 16) (hb : b < 16) : bits (encodeR op a b c d) 15 12 = b := by
  simp only [bits, encodeR]; omega

theorem bits_encodeR_slotC (hop : op < 256) (ha : a < 16) (hb : b < 16) (hc : c < 16) :
    bits (encodeR op a b c d) 19 16 = c := by
  simp only [bits, encodeR]; omega

theorem bits_encodeR_slotD (hop : op < 256) (ha : a < 16) (hb : b < 16) (hc : c < 16) (hd : d < 16) :
    bits (encodeR op a b c d) 23 20 = d := by
  simp only [bits, encodeR]; omega

theorem bits_encodeR_top (hop : op < 256) (ha : a < 16) (hb : b < 16) (hc : c < 16) (hd : d < 16) :
    bits (encodeR op a b c d) 31 24 = 0 := by
  simp only [bits, encodeR]; omega

theorem encodeR_lt (hop : op < 256) (ha : a < 16) (hb : b < 16) (hc : c < 16) (hd : d < 16) :
    encodeR op a b c d < 2 ^ 32 := by
  simp only [encodeR]; omega

end EncodedFields

theorem bits_encodeI_opcode {op : Nat} (hop : op < 256) (rd : Reg) (imm : BitVec 16) (hw : Fin 4) :
    bits (encodeI op rd imm hw) 7 0 = op := by
  simp only [bits, encodeI]; omega

/-- Format I reads back its three operands (R92). -/
theorem formatI_encodeI {op : Nat} (hop : op < 256) (mk : Reg → BitVec 16 → Fin 4 → Instr) (rd : Reg) (imm : BitVec 16)
    (hw : Fin 4) : formatI (encodeI op rd imm hw) mk = some (mk rd imm hw) := by
  have hzero : bits (encodeI op rd imm hw) 15 14 = 0 := by simp only [bits, encodeI]; omega
  have hrd : bits (encodeI op rd imm hw) 11 8 = rd := by simp only [bits, encodeI]; omega
  have hhw : bits (encodeI op rd imm hw) 13 12 = hw := by simp only [bits, encodeI]; omega
  have himm : bits (encodeI op rd imm hw) 31 16 = imm.toNat := by
    have := imm.isLt
    simp only [bits, encodeI]; omega
  simp [formatI, slotA, slot, hzero, hrd, hhw, himm]

theorem encodeI_lt {op : Nat} (hop : op < 256) (rd : Reg) (imm : BitVec 16) (hw : Fin 4) :
    encodeI op rd imm hw < 2 ^ 32 := by
  have := imm.isLt
  simp only [encodeI]; omega

/-! ## Control registers and tables by number (10_state.md R38, 30_encoding.md R94) -/

theorem csrNum_le (c : Csr) : csrNum c ≤ 9 := by cases c <;> decide

theorem csrOf_eq_some_iff {n : Nat} {c : Csr} : csrOf n = some c ↔ csrNum c = n := by
  constructor
  · unfold csrOf
    split <;> rintro ⟨⟩ <;> rfl
  · rintro rfl
    cases c <;> rfl

theorem csrOf_isSome_iff {n : Nat} : (csrOf n).isSome ↔ n ≤ 9 := by
  constructor
  · intro h
    obtain ⟨c, hc⟩ := Option.isSome_iff_exists.mp h
    exact csrOf_eq_some_iff.mp hc ▸ csrNum_le c
  · intro h
    interval_cases n <;> rfl

theorem tblNum_le (t : Tbl) : tblNum t ≤ 3 := by cases t <;> decide

theorem tblNum_lt (t : Tbl) : tblNum t < 16 := by
  have := tblNum_le t
  omega

theorem tblOf_eq_some_iff {n : Nat} {t : Tbl} : tblOf n = some t ↔ tblNum t = n := by
  constructor
  · unfold tblOf
    split <;> rintro ⟨⟩ <;> rfl
  · rintro rfl
    cases t <;> rfl

theorem tblOf_tblNum (t : Tbl) : tblOf (tblNum t) = some t := tblOf_eq_some_iff.mpr rfl

theorem tblOf_isSome_iff {n : Nat} : (tblOf n).isSome ↔ n ≤ 3 := by
  constructor
  · intro h
    obtain ⟨t, ht⟩ := Option.isSome_iff_exists.mp h
    exact tblOf_eq_some_iff.mp ht ▸ tblNum_le t
  · intro h
    interval_cases n <;> rfl

/-! ## Decoding what was encoded -/

theorem encodeNat_csrr (rd : Reg) (csr : Csr) : encodeNat (.csrr rd csr) = 0x04 + rd * 2 ^ 8 + csrNum csr * 2 ^ 16 := rfl

/-- Format C reads back the register and the number of the control register (R93). -/
theorem formatC_encodeNat (rd : Reg) (csr : Csr) : formatC (encodeNat (.csrr rd csr)) = some (.csrr rd csr) := by
  have := csrNum_le csr
  have htop : bits (encodeNat (.csrr rd csr)) 31 24 = 0 := by simp only [bits, encodeNat_csrr]; omega
  have hzero : bits (encodeNat (.csrr rd csr)) 15 12 = 0 := by simp only [bits, encodeNat_csrr]; omega
  have hrd : bits (encodeNat (.csrr rd csr)) 11 8 = rd := by simp only [bits, encodeNat_csrr]; omega
  have hcsr : csrOf (bits (encodeNat (.csrr rd csr)) 23 16) = some csr :=
    csrOf_eq_some_iff.mpr (by simp only [bits, encodeNat_csrr]; omega)
  simp [formatC, slotA, slot, htop, hzero, hrd, hcsr]

theorem encodeNat_lt (i : Instr) : encodeNat i < 2 ^ 32 := by
  cases i with
  | movz rd imm hw | movk rd imm hw => exact encodeI_lt (by decide) rd imm hw
  | csrr rd csr =>
    have := csrNum_le csr
    rw [encodeNat_csrr]; omega
  | _ => apply encodeR_lt <;> simp [tblNum_lt]

theorem decodeNat_encodeNat (i : Instr) : decodeNat (encodeNat i) = some i := by
  cases i with
  | movz rd imm hw | movk rd imm hw => simp [decodeNat, encodeNat, bits_encodeI_opcode, formatI_encodeI]
  | csrr rd csr =>
    have hop : bits (encodeNat (.csrr rd csr)) 7 0 = 0x04 := by simp only [bits, encodeNat_csrr]; omega
    simp [decodeNat, hop, formatC_encodeNat]
  | _ => -- the commands of format R
    simp [decodeNat, encodeNat, formatR, slotA, slotB, slotC, slotD, slot, bits_encodeR_opcode, bits_encodeR_slotA,
      bits_encodeR_slotB, bits_encodeR_slotC, bits_encodeR_slotD, bits_encodeR_top, tblNum_lt, tblOf_tblNum]

/-- Settles O1: each field of the word is the operand put there, and the unused ones are 0. -/
theorem decodeOfEncodeIsTheCommand : Obligations.DecodeOfEncodeIsTheCommand := by
  unfold Obligations.DecodeOfEncodeIsTheCommand
  intro i
  rw [decode, encode, BitVec.toNat_ofNat, Nat.mod_eq_of_lt (encodeNat_lt i), decodeNat_encodeNat]

/-! ## What the decoder does with a word

The mask of a row of the opcode map is the mask of the opcode together with those of the fields that must be 0. -/

/-- The mask of the field `hi:lo`. -/
def fieldMask (hi lo : Nat) : CmdWord := BitVec.ofNat 32 ((2 ^ (hi - lo + 1) - 1) * 2 ^ lo)

/-- The mask of a slot that must be 0 unless the command uses it (R96 (b)). -/
def unusedMask (used : Bool) (hi lo : Nat) : CmdWord := bif used then 0 else fieldMask hi lo

/-- The fields of format R that must be 0, for the marks `formatR` takes. -/
def zeroMaskR (a b c d : Bool) : CmdWord :=
  fieldMask 31 24 ||| unusedMask a 11 8 ||| unusedMask b 15 12 ||| unusedMask c 19 16 ||| unusedMask d 23 20

/-- What the encoder puts into a slot: the operand, or 0 where the command does not use the slot. -/
def slotValue (used : Bool) (r : Fin 16) : Nat := bif used then r else 0

/-- The rows of the opcode map with the opcode `op`. -/
def rowsOf (op : Nat) : List (CmdWord × CmdWord) := opcodeMap.filter fun r => op == r.2.toNat

/-- The opcode map has one row for `op`, whose mask is `zero` beside the opcode's. -/
def HasRow (op : Nat) (zero : CmdWord) : Prop := rowsOf op = [(fieldMask 7 0 ||| zero, BitVec.ofNat 32 op)]

/-- What is behind the answer of the decoder to `w`: a format with the command it builds (`word`: what the encoder makes of
that command) and the one row of the map with the opcode (`row`), or an opcode without a row. CSRR and TWRD stand apart:
they have an operand with a limit of its own (R96 (d), (e)). -/
inductive DecodeCase (w : Nat) : Option Instr → Prop where
  | formatI (mk : Reg → BitVec 16 → Fin 4 → Instr)
      (word : ∀ rd imm hw, encodeNat (mk rd imm hw) = encodeI (bits w 7 0) rd imm hw)
      (row : HasRow (bits w 7 0) (fieldMask 15 14))
      (noLimit : bits w 7 0 ≠ 0x04 ∧ bits w 7 0 ≠ 0x31) : DecodeCase w (formatI w mk)
  | formatR (a b c d : Bool) (i : Instr)
      (word : encodeNat i = encodeR (bits w 7 0) (slotValue a (slotA w)) (slotValue b (slotB w))
        (slotValue c (slotC w)) (slotValue d (slotD w)))
      (row : HasRow (bits w 7 0) (zeroMaskR a b c d))
      (noLimit : bits w 7 0 ≠ 0x04 ∧ bits w 7 0 ≠ 0x31) : DecodeCase w (formatR w a b c d i)
  | csrr (opcode : bits w 7 0 = 0x04) : DecodeCase w (formatC w)
  | twrd (opcode : bits w 7 0 = 0x31) :
      DecodeCase w ((tblOf (bits w 19 16)).bind fun t => formatR w true true true false (.twrd (slotA w) t (slotB w)))
  | unassigned (row : rowsOf (bits w 7 0) = []) : DecodeCase w none

theorem decodeNat_case (w : Nat) : DecodeCase w (decodeNat w) := by
  unfold decodeNat
  split
  -- MOVZ and MOVK, CSRR, TWRD, an opcode outside the map; what is left is the commands of format R
  case h_1 hop | h_2 hop => exact .formatI _ (by rw [hop]; intros; rfl) (by rw [hop]; rfl) (by rw [hop]; decide)
  case h_4 hop => exact .csrr hop
  case h_22 hop => exact .twrd hop
  case h_39 => exact .unassigned (by simp_all [rowsOf, opcodeMap])
  all_goals
    rename_i hop
    exact .formatR _ _ _ _ _ (by rw [hop]; rfl) (by rw [hop]; rfl) (by rw [hop]; decide)

/-! ## Encoding what was decoded -/

/-- The fields a format R command does not use are 0 (R91). -/
def UnusedZero (w : Nat) (a b c d : Bool) : Prop :=
  bits w 31 24 = 0 ∧ (a ∨ bits w 11 8 = 0) ∧ (b ∨ bits w 15 12 = 0) ∧ (c ∨ bits w 19 16 = 0) ∧ (d ∨ bits w 23 20 = 0)

theorem formatR_eq_some_iff {w : Nat} {a b c d : Bool} {i j : Instr} :
    formatR w a b c d i = some j ↔ UnusedZero w a b c d ∧ i = j := by
  rw [formatR, Option.ite_none_right_eq_some, Option.some.injEq, UnusedZero]

theorem slotValue_slot {used : Bool} {w hi lo : Nat} (h : used ∨ bits w hi lo = 0) (hwidth : hi - lo + 1 = 4) :
    slotValue used (slot w hi lo) = bits w hi lo := by
  have hlt : bits w hi lo < 16 := by rw [bits, hwidth]; exact Nat.mod_lt _ (by decide)
  rcases h with rfl | h
  · exact Nat.mod_eq_of_lt hlt
  · cases used <;> simp [slotValue, slot, h]

theorem slotA_val (w : Nat) : (slotA w : Nat) = bits w 11 8 := slotValue_slot (used := true) (.inl rfl) rfl

theorem encodeR_of_unusedZero {w : Nat} (hw : w < 2 ^ 32) {a b c d : Bool} (h : UnusedZero w a b c d) :
    encodeR (bits w 7 0) (slotValue a (slotA w)) (slotValue b (slotB w)) (slotValue c (slotC w)) (slotValue d (slotD w))
      = w := by
  obtain ⟨htop, ha, hb, hc, hd⟩ := h
  rw [slotA, slotB, slotC, slotD, slotValue_slot ha rfl, slotValue_slot hb rfl, slotValue_slot hc rfl, slotValue_slot hd rfl]
  simp only [bits, encodeR] at htop ⊢
  omega

theorem formatI_eq_some_iff {w : Nat} {mk : Reg → BitVec 16 → Fin 4 → Instr} {j : Instr} : formatI w mk = some j ↔
    bits w 15 14 = 0 ∧ mk (slotA w) (BitVec.ofNat 16 (bits w 31 16)) (Fin.ofNat 4 (bits w 13 12)) = j := by
  rw [formatI, Option.ite_none_right_eq_some, Option.some.injEq]

theorem encodeI_of_zero {w : Nat} (hw : w < 2 ^ 32) (h : bits w 15 14 = 0) :
    encodeI (bits w 7 0) (slotA w) (BitVec.ofNat 16 (bits w 31 16)) (Fin.ofNat 4 (bits w 13 12)) = w := by
  simp only [encodeI, slotA_val, BitVec.toNat_ofNat, Fin.ofNat, bits] at h ⊢
  omega

theorem formatC_eq_some_iff {w : Nat} {j : Instr} : formatC w = some j ↔
    (bits w 31 24 = 0 ∧ bits w 15 12 = 0) ∧ ∃ c, csrNum c = bits w 23 16 ∧ .csrr (slotA w) c = j := by
  simp only [formatC, Option.ite_none_right_eq_some, Option.map_eq_some_iff, csrOf_eq_some_iff]

theorem encodeNat_of_decodeNat {w : Nat} {i : Instr} (hw : w < 2 ^ 32) (h : decodeNat w = some i) : encodeNat i = w := by
  have hcase := decodeNat_case w
  generalize decodeNat w = o at h hcase
  cases hcase with
  | formatI mk word =>
    obtain ⟨hzero, rfl⟩ := formatI_eq_some_iff.mp h
    rw [word, encodeI_of_zero hw hzero]
  | formatR a b c d j word =>
    obtain ⟨hzero, rfl⟩ := formatR_eq_some_iff.mp h
    rw [word, encodeR_of_unusedZero hw hzero]
  | csrr opcode =>
    obtain ⟨⟨htop, hzero⟩, c, hc, rfl⟩ := formatC_eq_some_iff.mp h
    rw [encodeNat_csrr, hc, slotA_val]
    simp only [bits] at opcode htop hzero ⊢
    omega
  | twrd opcode =>
    obtain ⟨t, ht, hformat⟩ := Option.bind_eq_some_iff.mp h
    obtain ⟨hzero, rfl⟩ := formatR_eq_some_iff.mp hformat
    have hslot : tblNum t = slotValue true (slotC w) := by
      rw [slotC, slotValue_slot (.inl rfl) rfl, tblOf_eq_some_iff.mp ht]
    have hword := encodeR_of_unusedZero hw hzero
    rw [opcode, ← hslot] at hword
    simpa [encodeNat, slotValue] using hword
  | unassigned => cases h

/-- Settles O2: the fields of a word are the operands of the command and 0 elsewhere, and together they are the word. -/
theorem decodedWordIsItsEncoding : Obligations.DecodedWordIsItsEncoding := by
  unfold Obligations.DecodedWordIsItsEncoding
  intro w i h
  rw [encode, encodeNat_of_decodeNat w.isLt h, BitVec.ofNat_toNat, BitVec.setWidth_eq]

/-! ## The opcode map -/

theorem toNat_fieldMask {hi lo : Nat} (hlo : lo ≤ hi) (hhi : hi < 32) :
    (fieldMask hi lo).toNat = (2 ^ (hi - lo + 1) - 1) * 2 ^ lo := by
  rw [fieldMask, BitVec.toNat_ofNat, Nat.mod_eq_of_lt]
  calc
    (2 ^ (hi - lo + 1) - 1) * 2 ^ lo < 2 ^ (hi - lo + 1) * 2 ^ lo :=
      Nat.mul_lt_mul_of_pos_right (Nat.sub_one_lt (by positivity)) (by positivity)
    _ = 2 ^ (hi + 1) := by rw [← Nat.pow_add]; congr 1; omega
    _ ≤ 2 ^ 32 := Nat.pow_le_pow_right (by decide) (by omega)

/-- A mask cuts out its field and leaves it at its place. -/
theorem toNat_and_fieldMask (w : CmdWord) {hi lo : Nat} (hlo : lo ≤ hi) (hhi : hi < 32) :
    (w &&& fieldMask hi lo).toNat = bits w.toNat hi lo * 2 ^ lo := by
  apply Nat.eq_of_testBit_eq
  intro j
  rw [BitVec.toNat_and, toNat_fieldMask hlo hhi, bits, Nat.testBit_and, Nat.testBit_mul_two_pow, Nat.testBit_mul_two_pow,
    Nat.testBit_two_pow_sub_one, Nat.testBit_mod_two_pow, Nat.testBit_div_two_pow]
  by_cases hj : lo ≤ j
  · simp [hj, Bool.and_comm]
  · simp [hj]

theorem toNat_and_opcodeMask (w : CmdWord) : (w &&& fieldMask 7 0).toNat = bits w.toNat 7 0 := by
  simpa using toNat_and_fieldMask w (hi := 7) (lo := 0) (by decide) (by decide)

/-- A field is 0 exactly when its mask leaves nothing of the word. -/
theorem and_fieldMask_eq_zero_iff (w : CmdWord) {hi lo : Nat} (hlo : lo ≤ hi) (hhi : hi < 32) :
    w &&& fieldMask hi lo = 0#32 ↔ bits w.toNat hi lo = 0 := by
  rw [← BitVec.toNat_inj, toNat_and_fieldMask w hlo hhi]
  simp

theorem and_or_eq_zero_iff (w m n : CmdWord) : w &&& (m ||| n) = 0#32 ↔ w &&& m = 0#32 ∧ w &&& n = 0#32 := by
  rw [BitVec.and_or_distrib_left, BitVec.or_eq_zero_iff]

theorem and_unusedMask_eq_zero_iff (w : CmdWord) {used : Bool} {hi lo : Nat} (hlo : lo ≤ hi) (hhi : hi < 32) :
    w &&& unusedMask used hi lo = 0#32 ↔ used ∨ bits w.toNat hi lo = 0 := by
  cases used <;> simp [unusedMask, and_fieldMask_eq_zero_iff w hlo hhi]

theorem and_zeroMaskR_eq_zero_iff (w : CmdWord) {a b c d : Bool} :
    w &&& zeroMaskR a b c d = 0#32 ↔ UnusedZero w.toNat a b c d := by
  simp [zeroMaskR, UnusedZero, and_or_eq_zero_iff, and_fieldMask_eq_zero_iff, and_unusedMask_eq_zero_iff, and_assoc]

theorem opcodeMask_eq : fieldMask 7 0 = 0xFF#32 := rfl

/-- Every mask of the map covers the opcode, and every match is an opcode. -/
theorem opcodeMap_covers_opcode :
    ∀ r ∈ opcodeMap, r.1 &&& fieldMask 7 0 = fieldMask 7 0 ∧ r.2 &&& fieldMask 7 0 = r.2 := by
  simp [opcodeMap, opcodeMask_eq]

/-- Only a row with the opcode of the word can match it. -/
theorem exists_row_iff_rowsOf (w : CmdWord) :
    (∃ r ∈ opcodeMap, w &&& r.1 = r.2) ↔ ∃ r ∈ rowsOf (bits w.toNat 7 0), w &&& r.1 = r.2 := by
  refine ⟨fun ⟨r, hr, hmatch⟩ => ⟨r, ?_, hmatch⟩, fun ⟨r, hr, hmatch⟩ => ⟨r, List.mem_of_mem_filter hr, hmatch⟩⟩
  obtain ⟨hmask, hvalue⟩ := opcodeMap_covers_opcode r hr
  have hop : w &&& fieldMask 7 0 = r.2 := by rw [← hmask, ← BitVec.and_assoc, hmatch, hvalue]
  rw [rowsOf, List.mem_filter, ← toNat_and_opcodeMask, hop]
  exact ⟨hr, beq_self_eq_true _⟩

theorem exists_row_iff {w zero : CmdWord} (hrow : HasRow (bits w.toNat 7 0) zero)
    (hdisjoint : fieldMask 7 0 &&& zero = 0#32) : (∃ r ∈ opcodeMap, w &&& r.1 = r.2) ↔ w &&& zero = 0#32 := by
  have hop : BitVec.ofNat 32 (bits w.toNat 7 0) = w &&& fieldMask 7 0 := by
    rw [← toNat_and_opcodeMask, BitVec.ofNat_toNat, BitVec.setWidth_eq]
  rw [exists_row_iff_rowsOf, hrow, hop]
  simp only [List.mem_singleton, exists_eq_left]
  constructor
  · intro hmatch
    calc
      w &&& zero = (w &&& (fieldMask 7 0 ||| zero)) &&& zero := by
        rw [BitVec.and_assoc, BitVec.and_or_distrib_right, hdisjoint, BitVec.and_self, BitVec.zero_or]
      _ = 0#32 := by rw [hmatch, BitVec.and_assoc, hdisjoint, BitVec.and_zero]
  · intro hzero
    rw [BitVec.and_or_distrib_left, hzero, BitVec.or_zero]

theorem formatR_isSome_iff {w : Nat} {a b c d : Bool} {i : Instr} :
    (formatR w a b c d i).isSome ↔ UnusedZero w a b c d := by
  simp [Option.isSome_iff_exists, formatR_eq_some_iff]

theorem formatC_isSome_iff {w : Nat} :
    (formatC w).isSome ↔ (bits w 31 24 = 0 ∧ bits w 15 12 = 0) ∧ bits w 23 16 ≤ 9 := by
  rw [← csrOf_isSome_iff, formatC]
  split <;> simp_all

theorem hasRow_csrr : HasRow 0x04 (fieldMask 31 24 ||| fieldMask 15 12) := by rfl

theorem hasRow_twrd : HasRow 0x31 (zeroMaskR true true true false) := by rfl

theorem opcodeMask_and_zeroMaskR (a b c d : Bool) : fieldMask 7 0 &&& zeroMaskR a b c d = 0#32 := by
  revert a b c d; decide

theorem decode_isSome_iff (w : CmdWord) : (decode w).isSome = true ↔
    (∃ r ∈ opcodeMap, w &&& r.1 = r.2) ∧
    (bits w.toNat 7 0 = 0x04 → bits w.toNat 23 16 ≤ 9) ∧ (bits w.toNat 7 0 = 0x31 → bits w.toNat 19 16 ≤ 3) := by
  rw [decode]
  have hcase := decodeNat_case w.toNat
  generalize decodeNat w.toNat = o at hcase
  cases hcase with
  | formatI mk word row noLimit =>
    rw [exists_row_iff row (by decide), and_fieldMask_eq_zero_iff w (by decide) (by decide)]
    simp [formatI, noLimit]
  | formatR a b c d i word row noLimit =>
    rw [exists_row_iff row (opcodeMask_and_zeroMaskR a b c d), and_zeroMaskR_eq_zero_iff, formatR_isSome_iff]
    simp [noLimit]
  | csrr opcode =>
    rw [exists_row_iff (opcode ▸ hasRow_csrr) (by decide), and_or_eq_zero_iff,
      and_fieldMask_eq_zero_iff w (by decide) (by decide), and_fieldMask_eq_zero_iff w (by decide) (by decide)]
    simp [opcode, formatC_isSome_iff]
  | twrd opcode =>
    rw [exists_row_iff (opcode ▸ hasRow_twrd) (opcodeMask_and_zeroMaskR ..), and_zeroMaskR_eq_zero_iff, ← tblOf_isSome_iff]
    cases tblOf (bits w.toNat 19 16) <;> simp [opcode, formatR_isSome_iff]
  | unassigned row => rw [exists_row_iff_rowsOf, row]; simp

/-- Settles O3: whether a word decodes is read off the five cases of the decoder, each tied to its row of the map. -/
theorem decodableWordsAreTheOpcodeMap : Obligations.DecodableWordsAreTheOpcodeMap := by
  unfold Obligations.DecodableWordsAreTheOpcodeMap
  intro w
  refine ⟨decode_isSome_iff w, fun npoly i => ?_⟩
  simp [decodeLegal, Instr.wf, Option.filter_eq_some_iff]

/-! ## Single words -/

/-- Settles O4: the decoder evaluated on each word. -/
theorem writtenOutWordsDecode : Obligations.WrittenOutWordsDecode := by
  unfold Obligations.WrittenOutWordsDecode
  decide

end Sys2Proof

/-! # Scalar modular arithmetic (O22 to O33)

The nine scalar commands have one shape: the checks of 40_modular_arithmetic.md R123 in their order, then one value to one
register (`exec_scalar`). The order of faults is read off the checks (O23), and what each command writes off its unit. -/

namespace Sys2Proof.Machine

/-! ## Register operands -/

theorem State.nat_eq (s : State) (r : Reg) : s.nat r = s.sreg[r].toNat := rfl

theorem State.nat_lt (s : State) (r : Reg) : s.nat r < 2 ^ 64 := BitVec.isLt _

/-! ## SETMOD (R121, R122) -/

/-- LOGQ is ⌈log2 q⌉ (10_state.md R27). -/
theorem bitlen_pred_eq_clog (q : Nat) : bitlen (q - 1) = Nat.clog 2 q := by
  refine eq_of_forall_ge_iff fun k => ?_
  rw [bitlen_le_iff, Nat.clog_le_iff_le_pow one_lt_two]
  have := Nat.two_pow_pos k
  omega

theorem exec_setmod (rs1 : Reg) (s : State) : exec (.setmod rs1) s =
    if 2 ≤ s.nat rs1 ∧ s.nat rs1 < two63 then .next ((s.setDesc (makeDescriptor (s.nat rs1))).flagsSetmod.complete 0)
    else .next (faulted s .invalidModulus) := by
  simp only [exec, execSetmod, needModulus_bind, commit_ite]
  rfl

/-- Settles O22: a modulus in range has a descriptor that fits its registers. -/
theorem setmodInstallsTheDescriptor : Obligations.SetmodInstallsTheDescriptor := by
  unfold Obligations.SetmodInstallsTheDescriptor
  intro rs1 s q
  refine ⟨fun two_le lt => ?_, fun hout => ?_⟩
  · obtain ⟨hd, hq⟩ := descriptorOk_of_stored
      (t := (s.setDesc (makeDescriptor q)).flagsSetmod.complete 0) two_le lt rfl rfl rfl
    have hlogq := hd.logq
    have hmu := hd.mu
    rw [hq, bitlen_pred_eq_clog] at hlogq
    rw [hlogq, hq] at hmu
    refine ⟨_, (exec_setmod rs1 s).trans (if_pos ⟨two_le, lt⟩), ?_, hlogq, hmu⟩
    exact congrArg (fun w => { (s.setDesc (makeDescriptor q)).flagsSetmod.complete 0 with q := w })
      ((BitVec.ofNat_toNat 64 s.sreg[rs1]).trans (BitVec.setWidth_eq _))
  · rw [exec_setmod, if_neg]
    rintro ⟨two_le, lt⟩
    exact hout.elim (Nat.not_lt.mpr two_le) (Nat.not_le.mpr lt)

/-! ## The shape of the nine scalar commands (R123, R124) -/

/-- The last check, which only MODINV has (R123 (4)). -/
def State.needNonzero (s : State) : Instr → Except Stop Unit
  | .modinv _ r => ensure (decide (s.nat r ≠ 0)) .zeroNotInvertible
  | _ => pure ()

/-- The checks of a scalar command with residue operands rs, in the order of R123. -/
def State.scalarChecks (s : State) (i : Instr) (rs : List Reg) : Except Stop Unit := do
  s.needDescriptor
  ensure (!i.usesBarrett || decide (2 ≤ s.logq.toNat)) .shiftUnderflow
  rs.forM s.needResidue
  s.needNonzero i

/-- The state once a scalar command has written its value (R136 to R144, R147, R148); s itself for every other command. -/
def State.scalarResult (s : State) : Instr → State
  | .modadd rd a b => s.setS rd (BitVec.ofNat 64 (modAdd s.q.toNat (s.nat a) (s.nat b)))
  | .modsub rd a b => s.setS rd (BitVec.ofNat 64 (modSub s.q.toNat (s.nat a) (s.nat b)))
  | .modneg rd a => s.setS rd (BitVec.ofNat 64 (modNeg s.q.toNat (s.nat a)))
  | .modmul rd a b => s.setS rd (BitVec.ofNat 64 (barrettMul s.desc (s.nat a) (s.nat b)))
  | .modsqr rd a => s.setS rd (BitVec.ofNat 64 (modSquare s.desc (s.nat a)))
  | .modexp rd a e => s.setVal rd (modExp s.desc (some (s.nat a)) (s.nat e))
  | .modinv rd a => s.setVal rd (modInv s.desc (some (s.nat a)))
  | .shouppre rd b => s.setS rd (BitVec.ofNat 64 (shoupPre s.q.toNat (s.nat b)))
  | .modmulsh rd a b bp => s.setVal rd (vMulShoup s.q.toNat (some (s.nat a)) (some (s.nat b)) (some (s.nat bp)))
  | _ => s

/-- A scalar command is its checks and its value. -/
theorem exec_scalar (s : State) {i : Instr} {rs : List Reg} (hrs : i.residues = some rs) :
    exec i s = commit s (do s.scalarChecks i rs; return s.scalarResult i) := by
  cases i with
  | modadd | modsub | modneg | shouppre | modmulsh | modmul | modsqr | modexp | modinv =>
    cases hrs
    simp only [State.scalarChecks, State.needNonzero, List.forM, bind_assoc, pure_bind]
    rfl
  | _ => cases hrs

theorem exec_scalar_faults {s : State} {i : Instr} {rs : List Reg} (hrs : i.residues = some rs) {c : Cause}
    (h : s.scalarChecks i rs = .error (.raised c)) : exec i s = .next (faulted s c) := by
  rw [exec_scalar s hrs, h]
  rfl

/-- The residue checks together: which operand failed first does not show. -/
theorem forM_needResidue_bind {α : Type} (s : State) (rs : List Reg) (k : Unit → Except Stop α) :
    (rs.forM s.needResidue >>= k) =
      if ∀ r ∈ rs, s.nat r < s.q.toNat then k () else .error (.raised .preconditionViolation) := by
  induction rs with
  | nil => rfl
  | cons r rs ih =>
    rw [List.forM, bind_assoc, needResidue_bind, ih]
    by_cases hr : s.nat r < s.q.toNat <;> simp [hr]

theorem scalarChecks_eq (s : State) (i : Instr) (rs : List Reg) : s.scalarChecks i rs =
    if s.modvalid = true then
      if i.usesBarrett = true → 2 ≤ s.logq.toNat then
        if ∀ r ∈ rs, s.nat r < s.q.toNat then s.needNonzero i else .error (.raised .preconditionViolation)
      else .error (.raised .shiftUnderflow)
    else .error (.raised .notInitialised) := by
  have hshift : (!i.usesBarrett || decide (2 ≤ s.logq.toNat)) = true ↔
      (i.usesBarrett = true → 2 ≤ s.logq.toNat) := by
    cases i.usesBarrett <;> simp
  simp only [State.scalarChecks, needDescriptor_bind, ensure_bind, forM_needResidue_bind, hshift]

/-- Settles O23: each clause is one branch of the checks; no operand of MODINV fails its residue check when it is 0. -/
theorem scalarChecksComeInOrder : Obligations.ScalarChecksComeInOrder := by
  unfold Obligations.ScalarChecksComeInOrder
  intro i s rs hrs
  refine ⟨fun hmod => ?_, fun hmod huse hshift => ?_, fun hmod hshift ⟨r, hr, hq⟩ => ?_, ?_⟩
  · exact exec_scalar_faults hrs (by rw [scalarChecks_eq, if_neg (by simp [hmod])])
  · refine exec_scalar_faults hrs ?_
    rw [scalarChecks_eq, if_pos hmod, if_neg (fun h => Nat.not_le.mpr hshift (h huse))]
  · refine exec_scalar_faults hrs ?_
    rw [scalarChecks_eq, if_pos hmod, if_pos hshift, if_neg (fun h => Nat.not_lt.mpr hq (h r hr))]
  · rintro rd r rfl hmod hshift hq hzero
    obtain rfl : [r] = rs := Option.some.inj hrs
    have h0 : s.nat r = 0 := by rw [State.nat_eq, hzero]; rfl
    refine exec_scalar_faults hrs ?_
    rw [scalarChecks_eq, if_pos hmod, if_pos (fun _ => hshift), if_pos (by simpa [h0] using hq), State.needNonzero,
      ensure_eq_error]
    exact ⟨by simp [h0], rfl⟩

/-! ## What a scalar command that passes its checks does -/

/-- A scalar command on residues completes with its value; MODINV has one more check (`exec_modinv`). -/
theorem exec_scalar_completes {s : State} {i : Instr} {rs : List Reg} (hrs : i.residues = some rs)
    (hmod : s.modvalid = true) (hshift : i.usesBarrett = true → 2 ≤ s.logq.toNat)
    (hres : ∀ r ∈ rs, s.nat r < s.q.toNat) (hnonzero : s.needNonzero i = .ok ()) :
    exec i s = .next ((s.scalarResult i).complete 0) := by
  rw [exec_scalar s hrs, scalarChecks_eq, if_pos hmod, if_pos hshift, if_pos hres, hnonzero]
  rfl

/-- A value written to a register: the value itself, or a free one with a step of the counter. -/
theorem setVal_complete (s : State) (rd : Reg) (v : Val) :
    ∃ w k, (s.setVal rd v).complete 0 = { wroteReg s rd w with free := k } ∧ Agrees v w := by
  obtain ⟨w, k, hv, hw⟩ := setVal_eq s rd v
  exact ⟨w, k, by rw [hv]; rfl, hw⟩

/-! ## MODADD, MODSUB, MODNEG (R125 to R127) -/

theorem modAdd_eq {q a b : Nat} (ha : a < q) (hb : b < q) : modAdd q a b = (a + b) % q := by
  unfold modAdd
  dsimp only
  split_ifs with h h'
  · omega
  · rw [Nat.mod_eq_sub_mod h, Nat.mod_eq_of_lt (by omega)]
  · rw [Nat.mod_eq_of_lt (by omega)]

theorem modSub_eq {q a b : Nat} (ha : a < q) (hb : b < q) : modSub q a b = (a + (q - b)) % q := by
  unfold modSub
  split_ifs with h
  · rw [Nat.mod_eq_sub_mod (by omega), Nat.mod_eq_of_lt (by omega)]
    omega
  · rw [Nat.mod_eq_of_lt (by omega)]
    omega

theorem modNeg_eq {q a : Nat} (ha : a < q) : modNeg q a = (q - a) % q := by
  unfold modNeg
  split_ifs with h
  · simp [h]
  · rw [Nat.mod_eq_of_lt (by omega)]

/-- Settles O24: on residues each of the three units is a remainder modulo q. -/
theorem addSubNegAreExact : Obligations.AddSubNegAreExact := by
  simp only [Obligations.AddSubNegAreExact, ← State.nat_eq]
  intro rd rs1 rs2 s hmod ha hb
  have hres : ∀ r ∈ [rs1, rs2], s.nat r < s.q.toNat := by simp [ha, hb]
  rw [← modAdd_eq ha hb, ← modSub_eq ha hb, ← modNeg_eq ha]
  exact ⟨exec_scalar_completes rfl hmod nofun hres rfl, exec_scalar_completes rfl hmod nofun hres rfl,
    exec_scalar_completes rfl hmod nofun (List.forall_mem_singleton.mpr ha) rfl⟩

/-! ## MODMUL, MODSQR (R129 to R135) -/

theorem exec_modmul {s : State} (hmod : s.modvalid = true) (hshift : 2 ≤ s.logq.toNat) (rd : Reg) {a b : Reg}
    (ha : s.nat a < s.q.toNat) (hb : s.nat b < s.q.toNat) :
    exec (.modmul rd a b) s = .next (wroteReg s rd (BitVec.ofNat 64 (barrettMul s.desc (s.nat a) (s.nat b)))) :=
  exec_scalar_completes rfl hmod (fun _ => hshift) (by simp [ha, hb]) rfl

/-- Squaring is multiplying by itself (R129). -/
theorem exec_modsqr {s : State} (hmod : s.modvalid = true) (hshift : 2 ≤ s.logq.toNat) (rd : Reg) {a : Reg}
    (ha : s.nat a < s.q.toNat) :
    exec (.modsqr rd a) s = .next (wroteReg s rd (BitVec.ofNat 64 (barrettMul s.desc (s.nat a) (s.nat a)))) :=
  exec_scalar_completes rfl hmod (fun _ => hshift) (List.forall_mem_singleton.mpr ha) rfl

/-- `BarrettMul` with its shifts as divisions. -/
theorem barrettMul_eq (d : Descriptor) (a b : Nat) :
    barrettMul d a b =
      (let x := a * b
       let qe := x / 2 ^ (d.k - 2) * d.mu / 2 ^ (d.k + 2)
       let r := (((x : Int) - qe * d.q) % 2 ^ 64).toNat
       if d.q ≤ r then r - d.q else r) := by
  simp only [barrettMul, barrettQuot, mul128, trunc64, Nat.shiftRight_eq_div_pow]

/-- Settles O25: both commands write the formula's value, with no condition on the modulus. -/
theorem modmulIsTheBarrettFormula : Obligations.ModmulIsTheBarrettFormula := by
  unfold Obligations.ModmulIsTheBarrettFormula
  intro rd rs1 rs2 s hmod hshift ha hb
  constructor
  · rw [exec_modmul hmod hshift rd ha hb, barrettMul_eq]
    rfl
  · rw [exec_modsqr hmod hshift rd ha, barrettMul_eq]
    rfl

/-- A descriptor in order with a BarrettSafe modulus. -/
theorem DescriptorOk.safeModulus {s : State} (hd : DescriptorOk s) (three_le : 3 ≤ s.q.toNat)
    (hsafe : barrettSafe s.q.toNat = true) : SafeModulus s.q.toNat := ⟨three_le, hd.lt, hsafe⟩

theorem DescriptorOk.two_le_logq {s : State} (hd : DescriptorOk s) (three_le : 3 ≤ s.q.toNat) : 2 ≤ s.logq.toNat := by
  rw [hd.logq]
  exact lt_bitlen_iff.mpr (by omega)

/-- Settles O28: the descriptor installed is that of a modulus of which every product is exact. -/
theorem modmulIsExactWhenSafe : Obligations.ModmulIsExactWhenSafe := by
  simp only [Obligations.ModmulIsExactWhenSafe, ← State.nat_eq]
  intro rd rs1 rs2 s hmod hd three_le hsafe ha hb
  have hq := hd.safeModulus three_le hsafe
  have hshift := hd.two_le_logq three_le
  rw [exec_modmul hmod hshift rd ha hb, exec_modsqr hmod hshift rd ha, hd.desc_eq, barrettMul_eq_mod hq ha hb,
    barrettMul_eq_mod hq ha ha]
  exact ⟨rfl, rfl⟩

/-! ## The quotient estimate for every modulus (R131) -/

/-- The product before the second shift. -/
theorem scaled_product_le {x q K L : Nat} (hK : 0 < K) : x / K * (K * L / q) ≤ x * L / q :=
  calc x / K * (K * L / q) ≤ x * (K * L) / (K * q) := Nat.div_mul_div_le x K (K * L) q
    _ = K * (x * L) / (K * q) := by rw [Nat.mul_left_comm]
    _ = x * L / q := Nat.mul_div_mul_left _ _ hK

/-- The estimate never overshoots. -/
theorem estimate_le_quotient {x q K L : Nat} (hK : 0 < K) (hL : 0 < L) : x / K * (K * L / q) / L ≤ x / q :=
  calc x / K * (K * L / q) / L ≤ x * L / q / L := Nat.div_le_div_right (scaled_product_le hK)
    _ = x * L / (q * L) := Nat.div_div_eq_div_mul ..
    _ = x / q := Nat.mul_div_mul_right _ _ hL

/-- The two cut-off parts and the fraction of mu together lose less than 3. -/
theorem quotient_le_estimate_add_two {x q K L : Nat} (hq : 0 < q) (hK : 0 < K) (hL : 0 < L) (hKq : K ≤ q)
    (hx : x ≤ q * q) (hqKL : q * q ≤ K * L) : x / q ≤ x / K * (K * L / q) / L + 2 := by
  have hA := Nat.div_add_mod x K
  have he := Nat.mod_lt x hK
  have hmu := Nat.div_add_mod (K * L) q
  have hρ := Nat.mod_lt (K * L) hq
  have hlow := Nat.lt_mul_div_succ (x / K * (K * L / q)) hL
  generalize x / K = A at *
  generalize x % K = e at *
  generalize K * L / q = mu at *
  generalize K * L % q = ρ at *
  generalize A * mu / L = c at *
  refine Nat.le_of_lt_succ (Nat.div_lt_of_lt_mul (Nat.lt_of_mul_lt_mul_right (a := K * L) ?_))
  have hest : A * mu * (K * q) < L * (c + 1) * (K * q) := Nat.mul_lt_mul_of_pos_right hlow (Nat.mul_pos hK hq)
  have hfraction : K * A * ρ ≤ q * (K * L) :=
    calc K * A * ρ ≤ q * q * q := Nat.mul_le_mul (by omega) hρ.le
      _ = q * (q * q) := Nat.mul_comm ..
      _ ≤ q * (K * L) := Nat.mul_le_mul_left _ hqKL
  have hrest : e * (K * L) ≤ q * (K * L) := Nat.mul_le_mul_right _ (by omega)
  calc x * (K * L) = A * mu * (K * q) + (K * A * ρ + e * (K * L)) := by rw [← hA, ← hmu]; ring
    _ < L * (c + 1) * (K * q) + (q * (K * L) + q * (K * L)) := by omega
    _ = q * (c + 2 + 1) * (K * L) := by ring

/-- Settles O26: with q ≤ 2^k the product A·mu is below q·2^(k+2), and 2^(k−2) is below q. -/
theorem barrettEstimateIsAtMostTwoLow : Obligations.BarrettEstimateIsAtMostTwoLow := by
  unfold Obligations.BarrettEstimateIsAtMostTwoLow
  intro q a b three_le lt ha hb
  obtain ⟨k, hk⟩ : ∃ k, bitlen (q - 1) = k + 2 :=
    Nat.exists_eq_add_of_le' (lt_bitlen_iff.mpr (by omega : 2 ^ 1 ≤ q - 1))
  have hk61 : k ≤ 61 := by
    have : bitlen (q - 1) ≤ 63 := bitlen_le_iff.mpr (by omega)
    omega
  have hqk : q ≤ 2 ^ (k + 2) := by have := bitlen_le_iff.mp hk.le; omega
  have hkq : 2 ^ k ≤ q := by
    have := lt_bitlen_iff.mp (hk ▸ Nat.lt_add_of_pos_right two_pos : k < bitlen (q - 1))
    omega
  have hKL : 2 ^ (2 * (k + 2)) = 2 ^ k * 2 ^ (k + 4) := by rw [← pow_add]; congr 1; omega
  have hqq : q * q ≤ 2 ^ k * 2 ^ (k + 4) := by
    rw [← hKL, two_mul, pow_add]
    exact Nat.mul_le_mul hqk hqk
  have hab : a * b < q * q := Nat.mul_lt_mul'' ha hb
  simp only [barrettQuot, makeDescriptor, mul128, hk, hKL, Nat.shiftRight_eq_div_pow, Nat.add_sub_cancel]
  refine ⟨?_, estimate_le_quotient (by positivity) (by positivity),
    quotient_le_estimate_add_two (by omega) (by positivity) (by positivity) hkq hab.le hqq⟩
  calc a * b / 2 ^ k * (2 ^ k * 2 ^ (k + 4) / q) ≤ a * b * 2 ^ (k + 4) / q := scaled_product_le (by positivity)
    _ < q * 2 ^ (k + 4) := by
      refine Nat.div_lt_of_lt_mul ?_
      rw [← Nat.mul_assoc]
      exact Nat.mul_lt_mul_of_pos_right hab (by positivity)
    _ ≤ 2 ^ (k + 2) * 2 ^ (k + 4) := Nat.mul_le_mul_right _ hqk
    _ = 2 ^ (k + 2 + (k + 4)) := (pow_add ..).symm
    _ ≤ 2 ^ 128 := Nat.pow_le_pow_right two_pos (by omega)

/-- Settles O27: the estimate is at most 1 low, so one correction gives the remainder. -/
theorem barrettIsExactWhenSafe : Obligations.BarrettIsExactWhenSafe := by
  unfold Obligations.BarrettIsExactWhenSafe
  intro q a b three_le lt hsafe ha hb
  have h : SafeModulus q := ⟨three_le, lt, hsafe⟩
  obtain ⟨-, hhigh⟩ := barrettQuot_bounds h ha hb
  rw [barrettMul_eq_mod h ha hb]
  exact ⟨rfl, by zify at hhigh; linarith, Nat.mod_lt _ (by omega)⟩

/-! ## MODEXP, MODINV (R141 to R144) -/

theorem exec_modexp {s : State} (hmod : s.modvalid = true) (hshift : 2 ≤ s.logq.toNat) (rd : Reg) {a : Reg} (e : Reg)
    (ha : s.nat a < s.q.toNat) :
    exec (.modexp rd a e) s = .next ((s.setVal rd (modExp s.desc (some (s.nat a)) (s.nat e))).complete 0) :=
  exec_scalar_completes rfl hmod (fun _ => hshift) (List.forall_mem_singleton.mpr ha) rfl

theorem exec_modinv {s : State} (hmod : s.modvalid = true) (hshift : 2 ≤ s.logq.toNat) (rd : Reg) {a : Reg}
    (ha : s.nat a < s.q.toNat) (h0 : s.nat a ≠ 0) :
    exec (.modinv rd a) s = .next ((s.setVal rd (modInv s.desc (some (s.nat a)))).complete 0) :=
  exec_scalar_completes rfl hmod (fun _ => hshift) (List.forall_mem_singleton.mpr ha)
    (ensure_eq_ok.mpr (decide_eq_true h0))

/-- `ModInv` of a nonzero operand is `ModExp` with exponent q − 2 (R143). -/
theorem modInv_of_ne_zero (d : Descriptor) {a : Nat} (h0 : a ≠ 0) : modInv d (some a) = modExp d (some a) (d.q - 2) :=
  if_neg (by simpa using h0)

/-- Settles O29: every product of the loop is exact, so no value of it is free. -/
theorem modexpIsThePowerWhenSafe : Obligations.ModexpIsThePowerWhenSafe := by
  simp only [Obligations.ModexpIsThePowerWhenSafe, ← State.nat_eq]
  intro rd rs1 rs2 s hmod hd three_le hsafe ha
  rw [exec_modexp hmod (hd.two_le_logq three_le) rd rs2 ha, hd.desc_eq,
    modExp_some (hd.safeModulus three_le hsafe) ha (s.nat_lt rs2)]
  rfl

/-- Settles O30: the value is the power q − 2, the inverse by Fermat. -/
theorem modinvIsTheInverseWhenSafe : Obligations.ModinvIsTheInverseWhenSafe := by
  simp only [Obligations.ModinvIsTheInverseWhenSafe, ← State.nat_eq]
  intro rd rs1 s hmod hd three_le hp hsafe ha h0
  have hlt : s.nat rs1 ^ (s.q.toNat - 2) % s.q.toNat < s.q.toNat := Nat.mod_lt _ (by omega)
  refine ⟨BitVec.ofNat 64 (s.nat rs1 ^ (s.q.toNat - 2) % s.q.toNat), ?_, ?_⟩
  · rw [exec_modinv hmod (hd.two_le_logq three_le) rd ha h0, hd.desc_eq,
      modInv_some (hd.safeModulus three_le hsafe) ha h0]
    rfl
  · rw [BitVec.toNat_ofNat, Nat.mod_eq_of_lt (hlt.trans s.q.isLt)]
    exact ⟨hlt, mul_pow_sub_two_mod hp ha h0⟩

/-- Settles O31: the value of the unit may be arbitrary, the write to the destination is not. -/
theorem modexpAndModinvAlwaysComplete : Obligations.ModexpAndModinvAlwaysComplete := by
  simp only [Obligations.ModexpAndModinvAlwaysComplete, ← State.nat_eq]
  intro rd rs1 rs2 s hmod hshift ha
  refine ⟨?_, fun h0 => ?_⟩
  · obtain ⟨w, k, hw, hagrees⟩ := setVal_complete s rd (modExp s.desc (some (s.nat rs1)) (s.nat rs2))
    exact ⟨w, k, by rw [exec_modexp hmod hshift rd rs2 ha, hw], hagrees⟩
  · obtain ⟨w, k, hw, hagrees⟩ := setVal_complete s rd (modExp s.desc (some (s.nat rs1)) (s.q.toNat - 2))
    exact ⟨w, k, by rw [exec_modinv hmod hshift rd ha h0, modInv_of_ne_zero _ h0]; exact congrArg _ hw, hagrees⟩

/-! ## SHOUPPRE, MODMULSH (R145 to R148) -/

/-- Settles O32: the quotient of a residue fits a word. -/
theorem shouppreIsTheScaledQuotient : Obligations.ShouppreIsTheScaledQuotient := by
  simp only [Obligations.ShouppreIsTheScaledQuotient, ← State.nat_eq]
  intro rd rs1 s hmod hb
  refine ⟨_, exec_scalar_completes (i := .shouppre rd rs1) rfl hmod nofun (List.forall_mem_singleton.mpr hb) rfl, ?_⟩
  rw [BitVec.toNat_ofNat, Nat.mod_eq_of_lt (shoupPre_lt hb)]
  rfl

/-- A product with any other word than ShoupPre of its partner is arbitrary (U2). -/
theorem vMulShoup_of_ne {q a b z : Nat} (hz : z ≠ shoupPre q b) : vMulShoup q (some a) (some b) (some z) = none := by
  unfold vMulShoup
  split
  · next x y z' _ hy hz' =>
    obtain ⟨hb, -⟩ := Option.filter_eq_some_iff.mp hy
    cases hb
    cases hz'
    exact if_neg hz
  · rfl

/-- Settles O33: with the right word the unit is exact, with any other it gives no value and one free value is used. -/
theorem modmulshIsExactForEveryModulus : Obligations.ModmulshIsExactForEveryModulus := by
  simp only [Obligations.ModmulshIsExactForEveryModulus, ← State.nat_eq]
  intro rd rs1 rs2 rs3 s hmod hq ha hb
  have hexec : exec (.modmulsh rd rs1 rs2 rs3) s = .next ((s.setVal rd
      (vMulShoup s.q.toNat (some (s.nat rs1)) (some (s.nat rs2)) (some (s.nat rs3)))).complete 0) :=
    exec_scalar_completes rfl hmod nofun (by simp [ha, hb]) rfl
  refine ⟨fun hpre => ?_, fun hpre => ⟨Config.freeWord s.free, ?_⟩⟩
  · rw [hexec, show s.nat rs3 = shoupPre s.q.toNat (s.nat rs2) from hpre, vMulShoup_some hq ha hb]
    rfl
  · rw [hexec, vMulShoup_of_ne hpre]
    rfl

end Sys2Proof.Machine

/-! # The root searches of every modulus (O41)

A defined result of `ModExp` is the exact power, BarrettSafe or not (`eq_pow_mod_of_modExp`), so the scan rejects a
candidate only for a power that is 1. Below every modulus from 3 up some candidate has no such power: a primitive root of
a prime, a proper divisor of a composite. So the scan is not exhausted. -/

namespace Sys2Proof.Machine

/-! ## A defined power is exact (41_number_theory.md R170, 40_modular_arithmetic.md R141) -/

/-- A pass adds the low bit of e to the result and the rest of e to the squared base. -/
theorem mul_pow_mod_of_pass {q x y e x' y' : Nat} (hx : x' ≡ x * y ^ (e % 2) [MOD q])
    (hy : e / 2 ≠ 0 → y' ≡ y * y [MOD q]) : x' * y' ^ (e / 2) ≡ x * y ^ e [MOD q] := by
  have hhalf : y' ^ (e / 2) ≡ (y * y) ^ (e / 2) [MOD q] := by
    by_cases h0 : e / 2 = 0
    · rw [h0, pow_zero, pow_zero]
    · exact (hy h0).pow _
  refine (hx.mul hhalf).trans (congrArg (· % q) ?_)
  rw [← sq, ← pow_mul, mul_assoc, ← pow_add, Nat.mod_add_div]

/-- A result of the loop below q comes from residues, and is their power: no later unit accepts a word at or above q, and
a product below q is exact. The base is not looked at when no bit of e is left. -/
theorem modExpLoop_exact {d : Descriptor} (f : Nat) : ∀ {r b : Val} {e v : Nat}, modExpLoop d f r b e = some v →
    v < d.q → e < 2 ^ f →
    ∃ x y, r = some x ∧ x < d.q ∧ (e ≠ 0 → b = some y ∧ y < d.q) ∧ v ≡ x * y ^ e [MOD d.q] := by
  induction f with
  | zero =>
    intro r b e v h hv he
    obtain rfl : e = 0 := by simpa using he
    exact ⟨v, 0, h, hv, absurd rfl, by simp [Nat.ModEq.refl]⟩
  | succ f ih =>
    intro r b e v h hv he
    rw [modExpLoop] at h
    split at h
    · next h0 => exact ⟨v, 0, h, hv, absurd h0, by simp [h0, Nat.ModEq.refl]⟩
    · next h0 =>
      obtain ⟨x', y', hr, hx', hb, hpow⟩ := ih h hv (by omega)
      split at hr
      · next hodd =>
        obtain ⟨x, y, rfl, rfl, hx, hy, -, hxy⟩ := vMul_eq_some hr
        refine ⟨x, y, rfl, hx, fun _ => ⟨rfl, hy⟩, hpow.trans (mul_pow_mod_of_pass ?_ fun hhalf => ?_)⟩
        · rw [hodd, pow_one, hxy hx']
          exact Nat.mod_modEq _ _
        · obtain ⟨hsq, hy'⟩ := hb hhalf
          obtain ⟨z, w, hz, hw, -, -, -, hsq⟩ := vMul_eq_some hsq
          cases hz
          cases hw
          rw [hsq hy']
          exact Nat.mod_modEq _ _
      · next heven =>
        obtain ⟨hsq, hy'⟩ := hb (by omega)
        obtain ⟨y, w, rfl, hw, hy, -, -, hsq⟩ := vMul_eq_some hsq
        cases hw
        refine ⟨x', y, hr, hx', fun _ => ⟨rfl, hy⟩, hpow.trans (mul_pow_mod_of_pass ?_ fun _ => ?_)⟩
        · rw [show e % 2 = 0 by omega, pow_zero, mul_one]
        · rw [hsq hy']
          exact Nat.mod_modEq _ _

/-- A defined result of `ModExp` is the power, whatever the modulus. -/
theorem eq_pow_mod_of_modExp {d : Descriptor} {a e v : Nat} (h : modExp d (some a) e = some v) (he : e < 2 ^ 64) :
    v = a ^ e % d.q := by
  have hv := modExp_lt h
  unfold modExp at h
  split at h
  · next a' ha =>
    obtain ⟨hloop, -⟩ := Option.filter_eq_some_iff.mp h
    obtain ⟨haa', -⟩ := Option.filter_eq_some_iff.mp ha
    cases haa'
    obtain ⟨x, y, hx, -, hy, hpow⟩ := modExpLoop_exact 64 hloop hv he
    cases hx
    rw [one_mul] at hpow
    rw [← Nat.mod_eq_of_lt hv]
    by_cases h0 : e = 0
    · rwa [h0, pow_zero] at hpow ⊢
    · cases (hy h0).1
      exact hpow
  · cases h

/-! ## The prime factors the scan tests (41_number_theory.md R161) -/

theorem removeFactor_dvd (d f : Nat) : ∀ n, removeFactor d f n ∣ n := by
  induction f with
  | zero => exact fun n => dvd_rfl
  | succ f ih =>
    intro n
    rw [removeFactor]
    split
    · next h => exact (ih _).trans (Nat.div_dvd_of_dvd (Nat.dvd_of_mod_eq_zero h))
    · exact dvd_rfl

theorem two_le_and_dvd_of_mem_primeFactorsFrom (f : Nat) : ∀ {d n p : Nat}, 2 ≤ d → p ∈ primeFactorsFrom f d n →
    2 ≤ p ∧ p ∣ n := by
  induction f with
  | zero => exact fun _ h => absurd h List.not_mem_nil
  | succ f ih =>
    intro d n p hd h
    rw [primeFactorsFrom] at h
    split at h
    · split at h
      · next hn =>
        obtain rfl := List.mem_singleton.mp h
        exact ⟨hn, dvd_rfl⟩
      · exact absurd h List.not_mem_nil
    · split at h
      · next hdvd =>
        rcases List.mem_cons.mp h with rfl | h
        · exact ⟨hd, Nat.dvd_of_mod_eq_zero hdvd⟩
        · obtain ⟨hp, hdvd⟩ := ih (by omega) h
          exact ⟨hp, hdvd.trans (removeFactor_dvd ..)⟩
      · exact ih (by omega) h

/-! ## The scan (41_number_theory.md R170) -/

/-- A candidate is rejected only for a power that is 1. -/
theorem exists_power_one_of_rejected {d : Descriptor} {F : List Nat} {r : Nat} (h : certify d F r = .rejected) :
    ∃ p ∈ F, modExp d (some r) ((d.q - 1) / p) = some 1 := by
  unfold certify at h
  dsimp only at h
  split_ifs at h with hnone hone
  simpa using hone

/-- An exhausted scan has rejected every candidate. -/
theorem rejected_of_exhausted {d : Descriptor} {F : List Nat} (left : Nat) : ∀ {r c : Nat},
    scanRoots d F left r = .exhausted → r ≤ c → c < r + left → certify d F c = .rejected := by
  induction left with
  | zero => exact fun _ hr hc => absurd hc (Nat.not_lt.mpr hr)
  | succ left ih =>
    intro r c h hr hc
    rw [scanRoots] at h
    split at h
    · cases h
    · cases h
    · next hrej =>
      rcases hr.eq_or_lt with rfl | hlt
      · exact hrej
      · exact ih h hlt (by omega)

/-- For a prime: a primitive root, of order q − 1. -/
theorem exists_order_of_prime {q : Nat} (hp : q.Prime) (three_le : 3 ≤ q) :
    ∃ c, 2 ≤ c ∧ c < q ∧ ∀ m, 0 < m → m < q - 1 → c ^ m % q ≠ 1 := by
  have := Fact.mk hp
  obtain ⟨g, hg⟩ := IsCyclic.exists_generator (α := (ZMod q)ˣ)
  have hord : orderOf g = q - 1 := by
    rw [orderOf_eq_card_of_forall_mem_zpowers hg, Nat.card_eq_fintype_card, ZMod.card_units]
  have hpow : ∀ m, 0 < m → m < q - 1 → (g : ZMod q).val ^ m % q ≠ 1 := by
    intro m hm hlt hone
    have hcast : (((g : ZMod q).val ^ m : Nat) : ZMod q) = (1 : Nat) :=
      (ZMod.natCast_eq_natCast_iff' _ _ q).mpr (hone.trans (Nat.mod_eq_of_lt hp.one_lt).symm)
    have hgm : g ^ m = 1 := Units.ext (by simpa using hcast)
    have := Nat.le_of_dvd hm (hord ▸ orderOf_dvd_of_pow_eq_one hgm)
    omega
  have hne_zero : (g : ZMod q).val ≠ 0 := fun h => g.ne_zero ((ZMod.val_eq_zero _).mp h)
  have hne_one : (g : ZMod q).val ≠ 1 := fun h =>
    hpow 1 one_pos (by omega) (by rw [h, one_pow, Nat.mod_eq_of_lt hp.one_lt])
  exact ⟨(g : ZMod q).val, by omega, ZMod.val_lt _, hpow⟩

/-- For a composite: a proper divisor, which divides all its powers. -/
theorem exists_order_of_composite {q : Nat} (hp : ¬ q.Prime) (three_le : 3 ≤ q) :
    ∃ c, 2 ≤ c ∧ c < q ∧ ∀ m, 0 < m → m < q - 1 → c ^ m % q ≠ 1 := by
  have hprime : q.minFac.Prime := Nat.minFac_prime (by omega)
  refine ⟨q.minFac, hprime.two_le, (Nat.not_prime_iff_minFac_lt (by omega)).mp hp, fun m hm _ hone => ?_⟩
  have hdvd : q.minFac ∣ q.minFac ^ m % q := (Nat.dvd_mod_iff q.minFac_dvd).mpr (dvd_pow_self _ hm.ne')
  exact hprime.one_lt.ne' (Nat.dvd_one.mp (hone ▸ hdvd))

/-- The scan of a modulus from 3 up ends in a root or is unspecified (U5). -/
theorem findPrimitiveRoot_ne_exhausted {q : Nat} (three_le : 3 ≤ q) (lt : q < two63) :
    findPrimitiveRoot q ≠ .exhausted := by
  intro h
  obtain ⟨c, h2, hc, hpow⟩ : ∃ c, 2 ≤ c ∧ c < q ∧ ∀ m, 0 < m → m < q - 1 → c ^ m % q ≠ 1 :=
    if hp : q.Prime then exists_order_of_prime hp three_le else exists_order_of_composite hp three_le
  obtain ⟨p, hp, hone⟩ := exists_power_one_of_rejected (rejected_of_exhausted (q - 2) h h2 (by omega))
  obtain ⟨hp2, hdvd⟩ := two_le_and_dvd_of_mem_primeFactorsFrom _ le_rfl hp
  have hsub : 0 < q - 1 := by omega
  have hlt : (q - 1) / p < q - 1 := Nat.div_lt_self hsub hp2
  refine hpow ((q - 1) / p) (Nat.div_pos (Nat.le_of_dvd hsub hdvd) (by omega)) hlt ?_
  exact (eq_pow_mod_of_modExp hone (hlt.trans ((Nat.sub_le q 1).trans_lt (lt.trans (by decide))))).symm

/-! ## FINDROOT and FINDGEN (R171, R173) -/

/-- The degree operands of the utilities (R163). -/
theorem degree_iff (n : Nat) : Degree n ↔ isPow2 n = true ∧ n ≤ maxDegree := by
  rw [isPow2_iff, Degree]
  constructor
  · rintro ⟨k, hk, rfl⟩
    exact ⟨⟨k, rfl⟩, Nat.pow_le_pow_right two_pos hk⟩
  · rintro ⟨⟨k, rfl⟩, hle⟩
    exact ⟨k, (Nat.pow_le_pow_iff_right one_lt_two).mp hle, rfl⟩

theorem exec_findroot (rd rs1 : Reg) (s : State) : exec (.findroot rd rs1) s =
    if 2 ≤ s.nat rs1 ∧ s.nat rs1 < two63 then
      commit s (do let g0 ← takeRoot (findPrimitiveRoot (s.nat rs1)); return s.setVal rd g0)
    else .next (faulted s .invalidModulus) := by
  simp only [exec, execFindroot, needModulus_bind, commit_ite]
  rfl

theorem exec_findgen (rd : Reg) {rs1 rs2 : Reg} {s : State} (hn : Degree (s.nat rs2)) : exec (.findgen rd rs1 rs2) s =
    if (2 ≤ s.nat rs1 ∧ s.nat rs1 < two63) ∧ s.nat rs1 % (2 * s.nat rs2) = 1 then
      commit s (do
        let g0 ← takeRoot (findPrimitiveRoot (s.nat rs1))
        return s.setVal rd (generatorOf (s.nat rs1) (s.nat rs2) g0))
    else .next (faulted s .invalidModulus) := by
  simp only [exec, execFindgen, needDegree_bind, if_pos ((degree_iff _).mp hn), needModulus_bind, needCongruent_bind,
    commit_ite, ite_and]
  rfl

/-- A command that writes a value made of the root of a scan completes, when the scan is not exhausted. -/
theorem completesIn_of_scan (s : State) (rd : Reg) {r : Scan} (hr : r ≠ .exhausted) (f : Val → Val) :
    CompletesIn s rd (commit s (do let g0 ← takeRoot r; return s.setVal rd (f g0))) := by
  have hcompletes : ∀ v, CompletesIn s rd (.next ((s.setVal rd v).complete 0)) := fun v => by
    obtain ⟨w, k, hw, -⟩ := setVal_complete s rd v
    exact ⟨w, k, congrArg _ hw⟩
  obtain ⟨g, -, hg⟩ | ⟨-, hnone⟩ | ⟨hex, -⟩ := takeRoot_cases r
  · rw [hg]
    exact hcompletes _
  · rw [hnone]
    exact hcompletes _
  · exact absurd hex hr

/-- Settles O41: the scan of 2 has no candidate, and that of a greater modulus is not exhausted. -/
theorem rootSearchesFaultInOrder : Obligations.RootSearchesFaultInOrder := by
  simp only [Obligations.RootSearchesFaultInOrder, ← State.nat_eq]
  intro rd rs1 rs2 s
  refine ⟨fun hout => ?_, fun h2 => ?_, fun hn hout => ?_, fun three_le lt => ?_, fun hn two_le lt hcong => ?_⟩
  · rw [exec_findroot, if_neg]
    rintro ⟨two_le, lt⟩
    exact hout.elim (Nat.not_lt.mpr two_le) (Nat.not_le.mpr lt)
  · rw [exec_findroot, h2]
    rfl
  · rw [exec_findgen rd hn, if_neg]
    rintro ⟨⟨two_le, lt⟩, hcong⟩
    exact hout.elim (Nat.not_lt.mpr two_le) fun h => h.elim (Nat.not_le.mpr lt) fun hne => hne hcong
  · rw [exec_findroot, if_pos ⟨by omega, lt⟩]
    exact completesIn_of_scan s rd (findPrimitiveRoot_ne_exhausted three_le lt) id
  · have hodd := odd_of_congruent hcong
    rw [exec_findgen rd hn, if_pos ⟨⟨two_le, lt⟩, hcong⟩]
    exact completesIn_of_scan s rd (findPrimitiveRoot_ne_exhausted (by omega) lt) (generatorOf (s.nat rs1) (s.nat rs2))

end Sys2Proof.Machine

/-! # Prime numbers and prime factors (O34, O35)

`PrimeFactors` divides n by each factor it finds until none is left. Its rest has no prime divisor below the next
candidate d, so a d that divides it is prime (`prime_of_dvd`), and a rest below d² is 1 or prime
(`eq_one_or_prime_of_lt_sq`). -/

namespace Sys2Proof.Machine

/-- Settles O34: trial division up to √n is the exact predicate. -/
theorem isPrimeIsExact : Obligations.IsPrimeIsExact := isPrime_iff

/-! ## Taking a factor out -/

/-- What is left of n is n without a power of d, and d does not divide it. -/
theorem removeFactor_spec {d : Nat} (hd : 2 ≤ d) (f : Nat) : ∀ {n : Nat}, 0 < n → n < 2 ^ f →
    (∃ k, n = d ^ k * removeFactor d f n) ∧ ¬ d ∣ removeFactor d f n := by
  induction f with
  | zero => exact fun hn hlt => absurd hlt (by omega)
  | succ f ih =>
    intro n hn hlt
    rw [removeFactor]
    split
    · next hmod =>
      obtain ⟨m, rfl⟩ := Nat.dvd_of_mod_eq_zero hmod
      have hm : 0 < m := Nat.pos_of_mul_pos_left hn
      have hlt' : m < 2 ^ f := by
        have := Nat.mul_le_mul_right m hd
        omega
      obtain ⟨⟨k, hk⟩, hndvd⟩ := ih hm hlt'
      rw [Nat.mul_div_cancel_left m (by omega)]
      exact ⟨⟨k + 1, by rw [pow_succ', mul_assoc, ← hk]⟩, hndvd⟩
    · next hmod => exact ⟨⟨0, by rw [pow_zero, one_mul]⟩, fun h => hmod (Nat.mod_eq_zero_of_dvd h)⟩

/-- The primes of n are d and those of what is left. -/
theorem prime_dvd_iff_of_removeFactor {d n p : Nat} (hd : d.Prime) (hn : 0 < n) (hdvd : d ∣ n) (hp : p.Prime) :
    p ∣ n ↔ p = d ∨ p ∣ removeFactor d (bitlen n) n := by
  constructor
  · intro h
    obtain ⟨⟨k, hk⟩, -⟩ := removeFactor_spec hd.two_le _ hn (lt_two_pow_bitlen n)
    rw [hk] at h
    exact (hp.dvd_mul.mp h).imp_left fun h => (Nat.prime_dvd_prime_iff_eq hp hd).mp (hp.dvd_of_dvd_pow h)
  · rintro (rfl | h)
    · exact hdvd
    · exact h.trans (removeFactor_dvd ..)

/-! ## The list -/

/-- n has no prime divisor below d. -/
def NoPrimeBelow (d n : Nat) : Prop := ∀ p, p.Prime → p ∣ n → d ≤ p

theorem NoPrimeBelow.prime_of_dvd {d n : Nat} (h : NoPrimeBelow d n) (hd : 2 ≤ d) (hdvd : d ∣ n) : d.Prime := by
  have hmin : d.minFac.Prime := Nat.minFac_prime (by omega)
  have hle : d ≤ d.minFac := h _ hmin (d.minFac_dvd.trans hdvd)
  rwa [(Nat.minFac_le (by omega)).antisymm hle] at hmin

theorem NoPrimeBelow.eq_one_or_prime_of_lt_sq {d n : Nat} (h : NoPrimeBelow d n) (hn : 0 < n) (hlt : n < d * d) :
    n = 1 ∨ n.Prime := by
  refine or_iff_not_imp_left.mpr fun hone => by_contra fun hnp => ?_
  have hle : d ≤ n.minFac := h _ (Nat.minFac_prime hone) n.minFac_dvd
  have hsq : n.minFac * n.minFac ≤ n := sq n.minFac ▸ Nat.minFac_sq_le_self hn hnp
  have := Nat.mul_le_mul hle hle
  omega

/-- A prime divisor that is not d is above d. -/
theorem NoPrimeBelow.succ {d n : Nat} (h : NoPrimeBelow d n) (hndvd : ¬ d ∣ n) : NoPrimeBelow (d + 1) n :=
  fun p hp hdvd => (h p hp hdvd).lt_of_ne (by rintro rfl; exact hndvd hdvd)

theorem NoPrimeBelow.of_dvd {d n m : Nat} (h : NoPrimeBelow d n) (hdvd : m ∣ n) : NoPrimeBelow d m :=
  fun p hp hpm => h p hp (hpm.trans hdvd)

/-- l is the strictly increasing list of the primes that divide n (41_number_theory.md R161). -/
structure ListsPrimeFactors (l : List Nat) (n : Nat) : Prop where
  sorted : l.Pairwise (· < ·)
  mem : ∀ p, p ∈ l ↔ p.Prime ∧ p ∣ n

theorem listsPrimeFactors_one : ListsPrimeFactors [] 1 where
  sorted := .nil
  mem _ := iff_of_false List.not_mem_nil fun ⟨hp, hdvd⟩ => hp.one_lt.ne' (Nat.dvd_one.mp hdvd)

theorem listsPrimeFactors_prime {n : Nat} (hn : n.Prime) : ListsPrimeFactors [n] n where
  sorted := List.pairwise_singleton _ _
  mem p := by
    rw [List.mem_singleton]
    refine ⟨?_, fun ⟨hp, hdvd⟩ => (Nat.prime_dvd_prime_iff_eq hp hn).mp hdvd⟩
    rintro rfl
    exact ⟨hn, dvd_rfl⟩

/-- The smallest prime divisor d before the list of what is left of n. -/
theorem ListsPrimeFactors.cons {l : List Nat} {d n : Nat} (hn : 0 < n) (hd : d.Prime) (hdvd : d ∣ n)
    (hbelow : NoPrimeBelow (d + 1) (removeFactor d (bitlen n) n))
    (h : ListsPrimeFactors l (removeFactor d (bitlen n) n)) : ListsPrimeFactors (d :: l) n where
  sorted := List.pairwise_cons.mpr ⟨fun p hp => have ⟨hp, hpn⟩ := (h.mem p).mp hp; hbelow p hp hpn, h.sorted⟩
  mem p := by
    rw [List.mem_cons, h.mem]
    constructor
    · rintro (rfl | ⟨hp, hpn⟩)
      · exact ⟨hd, hdvd⟩
      · exact ⟨hp, hpn.trans (removeFactor_dvd ..)⟩
    · exact fun ⟨hp, hpn⟩ => ((prime_dvd_iff_of_removeFactor hd hn hdvd hp).mp hpn).imp_right (⟨hp, ·⟩)

/-- The list ends where the candidates pass √n. -/
theorem primeFactorsFrom_lists_of_lt_sq (f : Nat) {d n : Nat} (hn : 0 < n) (hlt : n < d * d) (hbelow : NoPrimeBelow d n) :
    ListsPrimeFactors (primeFactorsFrom (f + 1) d n) n := by
  rw [primeFactorsFrom, if_pos hlt]
  obtain rfl | hp := hbelow.eq_one_or_prime_of_lt_sq hn hlt
  · exact listsPrimeFactors_one
  · rw [if_pos hp.one_lt]
    exact listsPrimeFactors_prime hp

/-- With n < (d + f)² the candidates reach √n before the fuel ends. -/
theorem primeFactorsFrom_lists (f : Nat) : ∀ {d n : Nat}, 2 ≤ d → 0 < n → n < (d + f) * (d + f) → NoPrimeBelow d n →
    ListsPrimeFactors (primeFactorsFrom (f + 1) d n) n := by
  induction f with
  | zero => exact fun _ hn hlt => primeFactorsFrom_lists_of_lt_sq 0 hn hlt
  | succ f ih =>
    intro d n hd hn hlt hbelow
    by_cases hsq : n < d * d
    · exact primeFactorsFrom_lists_of_lt_sq _ hn hsq hbelow
    rw [show d + (f + 1) = d + 1 + f by omega] at hlt
    rw [primeFactorsFrom, if_neg hsq]
    split
    · next hmod =>
      have hdvd := Nat.dvd_of_mod_eq_zero hmod
      have hrest := removeFactor_dvd d (bitlen n) n
      obtain ⟨-, hndvd⟩ := removeFactor_spec hd _ hn (lt_two_pow_bitlen n)
      have hbelow' := (hbelow.of_dvd hrest).succ hndvd
      exact .cons hn (hbelow.prime_of_dvd hd hdvd) hdvd hbelow'
        (ih (by omega) (Nat.pos_of_dvd_of_pos hrest hn) ((Nat.le_of_dvd hn hrest).trans_lt hlt) hbelow')
    · next hmod => exact ih (by omega) hn hlt (hbelow.succ fun h => hmod (Nat.mod_eq_zero_of_dvd h))

theorem primeFactors_lists {n : Nat} (hn : 0 < n) : ListsPrimeFactors (primeFactors n) n :=
  primeFactorsFrom_lists n le_rfl hn (by nlinarith) fun _ hp _ => hp.two_le

/-- Settles O35. -/
theorem primeFactorsAreExact : Obligations.PrimeFactorsAreExact := by
  unfold Obligations.PrimeFactorsAreExact
  exact fun n hn => ⟨(primeFactors_lists hn).sorted, (primeFactors_lists hn).mem⟩

end Sys2Proof.Machine

/-! # The prime searches (O36, O37, O38)

A search is described without its fuel and for both directions at once: it answers p exactly when p is one of its
candidates, a prime below 2^63, and every candidate before p lies in [2, 2^63) and is not prime (`primeSearch_eq_some_iff`).
The four commands are their checks and such a search. -/

namespace Sys2Proof.Machine

/-! ## The candidates (41_number_theory.md R162) -/

/-- The signed distance from one candidate to the next. -/
def Dir.stride (step : Nat) : Dir → Int
  | .up => step
  | .down => -step

theorem primeSearchFrom_succ (step : Nat) (dir : Dir) (f : Nat) (c : Int) : primeSearchFrom step dir (f + 1) c =
    if c < 2 ∨ (2 : Int) ^ 63 ≤ c then none
    else if isPrime c.toNat then some c.toNat
    else primeSearchFrom step dir f (c + dir.stride step) := by
  cases dir <;> rfl

/-- The search passes over candidate c: it is in range and not prime. -/
structure Skipped (c : Int) : Prop where
  two_le : 2 ≤ c
  lt : c < 2 ^ 63
  not_prime : ¬ c.toNat.Prime

/-- The search of the candidates c, c + δ, c + 2δ, … meets its first prime, p, at candidate i. -/
structure FoundAt (c δ : Int) (i p : Nat) : Prop where
  value : c + i * δ = p
  prime : p.Prime
  lt : p < 2 ^ 63
  before : ∀ k < i, Skipped (c + k * δ)

theorem foundAt_zero_iff {c δ : Int} {p : Nat} : FoundAt c δ 0 p ↔ c = p ∧ p.Prime ∧ p < 2 ^ 63 :=
  ⟨fun h => ⟨by simpa using h.value, h.prime, h.lt⟩, fun ⟨hc, hp, hlt⟩ => ⟨by simpa using hc, hp, hlt, nofun⟩⟩

theorem foundAt_succ_iff {c δ : Int} {i p : Nat} :
    FoundAt c δ (i + 1) p ↔ Skipped c ∧ FoundAt (c + δ) δ i p := by
  have hshift : ∀ k : Nat, c + δ + k * δ = c + (k + 1 : Nat) * δ := fun k => by push_cast; ring
  constructor
  · intro h
    refine ⟨by simpa using h.before 0 i.succ_pos, (hshift i).trans h.value, h.prime, h.lt, fun k hk => ?_⟩
    rw [hshift]
    exact h.before (k + 1) (Nat.succ_lt_succ hk)
  · rintro ⟨hc, h⟩
    refine ⟨(hshift i).symm.trans h.value, h.prime, h.lt, fun k hk => ?_⟩
    cases k with
    | zero => simpa using hc
    | succ k => exact hshift k ▸ h.before k (Nat.lt_of_succ_lt_succ hk)

/-- The search ends at its first candidate or skips it and goes on. -/
theorem exists_foundAt_iff {c δ : Int} {f p : Nat} : (∃ i < f + 1, FoundAt c δ i p) ↔
    (c = p ∧ p.Prime ∧ p < 2 ^ 63) ∨ Skipped c ∧ ∃ i < f, FoundAt (c + δ) δ i p := by
  simp only [Nat.exists_lt_succ_left, foundAt_zero_iff, foundAt_succ_iff, and_left_comm (b := Skipped c),
    exists_and_left]

theorem primeSearchFrom_eq_some_iff {step p : Nat} {dir : Dir} (f : Nat) : ∀ {c : Int},
    primeSearchFrom step dir f c = some p ↔ ∃ i < f, FoundAt c (dir.stride step) i p := by
  induction f with
  | zero => exact iff_of_false nofun nofun
  | succ f ih =>
    intro c
    rw [primeSearchFrom_succ, exists_foundAt_iff, ← ih]
    split
    · next hout =>
      refine iff_of_false nofun ?_
      rintro (⟨rfl, hp, hlt⟩ | ⟨⟨two_le, hlt, -⟩, -⟩)
      · have := hp.two_le
        omega
      · omega
    · next hin =>
      split
      · next hprime =>
        rw [isPrime_iff] at hprime
        constructor
        · rintro ⟨⟩
          exact .inl ⟨by omega, hprime, by omega⟩
        · rintro (⟨rfl, -⟩ | ⟨hskip, -⟩)
          · rw [Int.toNat_natCast]
          · exact absurd hprime hskip.not_prime
      · next hprime =>
        rw [isPrime_iff] at hprime
        refine ⟨fun h => .inr ⟨⟨by omega, by omega, hprime⟩, h⟩, ?_⟩
        rintro (⟨rfl, hp, -⟩ | ⟨-, h⟩)
        · exact absurd hp hprime
        · exact h

theorem FoundAt.start_lt {c δ : Int} {i p : Nat} (h : FoundAt c δ i p) : c < 2 ^ 63 := by
  cases i with
  | zero =>
    have hvalue := h.value
    have hlt := h.lt
    simp at hvalue
    omega
  | succ i => exact (foundAt_succ_iff.mp h).1.lt

/-- Candidates in [2, 2^63) that lie a step apart are fewer than 2^63. -/
theorem FoundAt.index_lt {c : Int} {step i p : Nat} {dir : Dir} (h : FoundAt c (dir.stride step) i p)
    (hstep : 0 < step) : i < 2 ^ 63 := by
  have hstart := h.start_lt
  have hvalue := h.value
  have hlt := h.lt
  have hle : (i : Int) ≤ i * step := by exact_mod_cast Nat.le_mul_of_pos_right i hstep
  cases i with
  | zero => exact Nat.two_pow_pos 63
  | succ i =>
    have htwo := (foundAt_succ_iff.mp h).1.two_le
    cases dir with
    | up =>
      simp only [Dir.stride] at hvalue
      omega
    | down =>
      simp only [Dir.stride, mul_neg] at hvalue
      omega

theorem primeSearch_eq_some_iff {c : Int} {step p : Nat} {dir : Dir} (hstep : 0 < step) :
    primeSearch c step dir = some p ↔ ∃ i, FoundAt c (dir.stride step) i p := by
  rw [primeSearch, primeSearchFrom_eq_some_iff]
  exact exists_congr fun i => and_iff_right_of_imp fun h => h.index_lt hstep

/-- Upward from start ≥ 2: the first prime, with all candidates before it below 2^63 too. -/
theorem foundAt_up {start step j : Nat} (two_le : 2 ≤ start) (hp : (start + j * step).Prime)
    (hlt : start + j * step < 2 ^ 63) (hbefore : ∀ i < j, ¬ (start + i * step).Prime) :
    FoundAt start (Dir.up.stride step) j (start + j * step) where
  value := by simp [Dir.stride]
  prime := hp
  lt := hlt
  before k hk := by
    have hle : k * step ≤ j * step := Nat.mul_le_mul_right _ hk.le
    have hcast : (start : Int) + k * Dir.up.stride step = (start + k * step : Nat) := by simp [Dir.stride]
    rw [hcast]
    exact ⟨by omega, by omega, hbefore k hk⟩

/-- Downward to p: candidate k is j − k steps above p. -/
theorem foundAt_down {p step j : Nat} (hp : p.Prime) (hlt : p + j * step < 2 ^ 63)
    (hbefore : ∀ i, 1 ≤ i → i ≤ j → ¬ (p + i * step).Prime) :
    FoundAt (p + j * step : Nat) (Dir.down.stride step) j p where
  value := by simp [Dir.stride]
  prime := hp
  lt := by omega
  before k hk := by
    have htwo := hp.two_le
    have hle : (j - k) * step ≤ j * step := Nat.mul_le_mul_right _ (Nat.sub_le j k)
    have hcast : ((p + j * step : Nat) : Int) + k * Dir.down.stride step = (p + (j - k) * step : Nat) := by
      push_cast [Dir.stride, Nat.cast_sub hk.le]
      ring
    rw [hcast]
    exact ⟨by omega, by omega, hbefore (j - k) (by omega) (Nat.sub_le j k)⟩

/-! ## The commands (R163 to R167) -/

/-- A command answers what its search gives. -/
def State.answerPrime (s : State) (rd : Reg) (r : Option Nat) : Host.Outcome State Fault Refusal :=
  commit s (do let p ← takePrime r; return s.setS rd (BitVec.ofNat 64 p))

theorem answerPrime_some (s : State) (rd : Reg) (p : Nat) :
    s.answerPrime rd (some p) = .next (wroteReg s rd (BitVec.ofNat 64 p)) := rfl

theorem answerPrime_none (s : State) (rd : Reg) : s.answerPrime rd none = .next (faulted s .searchExhausted) := rfl

/-- A search that meets its first prime is answered with it. -/
theorem answerPrime_of_foundAt {s : State} {rd : Reg} {c : Int} {step i p : Nat} {dir : Dir} (hstep : 0 < step)
    (h : FoundAt c (dir.stride step) i p) :
    s.answerPrime rd (primeSearch c step dir) = .next (wroteReg s rd (BitVec.ofNat 64 p)) := by
  rw [(primeSearch_eq_some_iff hstep).mpr ⟨i, h⟩, answerPrime_some]

/-- A search that meets no prime ends in SearchExhausted. -/
theorem answerPrime_of_not_foundAt {s : State} {rd : Reg} {c : Int} {step : Nat} {dir : Dir} (hstep : 0 < step)
    (h : ∀ i p, ¬ FoundAt c (dir.stride step) i p) :
    s.answerPrime rd (primeSearch c step dir) = .next (faulted s .searchExhausted) := by
  have hnone : primeSearch c step dir = none := Option.eq_none_iff_forall_ne_some.mpr fun p hp =>
    have ⟨i, hi⟩ := (primeSearch_eq_some_iff hstep).mp hp
    h i p hi
  rw [hnone, answerPrime_none]

theorem Degree.pos {n : Nat} (h : Degree n) : 0 < n := by
  obtain ⟨k, -, rfl⟩ := h
  exact Nat.two_pow_pos k

/-- The degree is the first check of the five commands that have one. -/
theorem exec_of_not_degree {rd rs1 rs2 : Reg} {s : State} (hn : ¬ Degree (s.nat rs2)) {i : Instr}
    (hi : i ∈ [Instr.fprimeup rd rs1 rs2, .fprimedn rd rs1 rs2, .nprimeup rd rs1 rs2, .nprimedn rd rs1 rs2,
      .findgen rd rs1 rs2]) : exec i s = .next (faulted s .invalidDegree) := by
  rw [degree_iff] at hn
  simp only [List.mem_cons, List.not_mem_nil, or_false] at hi
  rcases hi with rfl | rfl | rfl | rfl | rfl <;>
    simp only [exec, execFprimeup, execFprimedn, execNprimeup, execNprimedn, execFindgen, needDegree_bind, if_neg hn,
      commit_raised, raise_eq_faulted]

section Searches

variable {s : State} {rs2 : Reg} (hn : Degree (s.nat rs2))
include hn

theorem exec_fprimeup (rd rs1 : Reg) : exec (.fprimeup rd rs1 rs2) s =
    if s.nat rs1 < 63 then s.answerPrime rd (primeSearch (2 ^ s.nat rs1 + 1 : Nat) (2 * s.nat rs2) .up)
    else .next (faulted s .searchExhausted) := by
  have hstart : ((2 ^ s.nat rs1 + 1 : Nat) : Int) = 2 ^ s.nat rs1 + 1 := by push_cast; rfl
  simp only [exec, execFprimeup, needDegree_bind, if_pos ((degree_iff _).mp hn), ensure_bind, decide_eq_true_eq,
    commit_ite, hstart]
  rfl

theorem exec_fprimedn (rd rs1 : Reg) : exec (.fprimedn rd rs1 rs2) s =
    if s.nat rs1 < 64 then
      s.answerPrime rd (primeSearch ((2 ^ s.nat rs1 + 1 : Nat) - (2 * s.nat rs2 : Nat)) (2 * s.nat rs2) .down)
    else .next (faulted s .searchExhausted) := by
  have hstart : ((2 ^ s.nat rs1 + 1 : Nat) : Int) - (2 * s.nat rs2 : Nat) = 2 ^ s.nat rs1 + 1 - 2 * s.nat rs2 := by
    push_cast; rfl
  simp only [exec, execFprimedn, needDegree_bind, if_pos ((degree_iff _).mp hn), ensure_bind, decide_eq_true_eq,
    commit_ite, hstart]
  rfl

theorem exec_nprimeup (rd rs1 : Reg) : exec (.nprimeup rd rs1 rs2) s =
    s.answerPrime rd (primeSearch (s.nat rs1 + 2 * s.nat rs2 : Nat) (2 * s.nat rs2) .up) := by
  have hstart : ((s.nat rs1 + 2 * s.nat rs2 : Nat) : Int) = s.nat rs1 + 2 * s.nat rs2 := by push_cast; rfl
  simp only [exec, execNprimeup, needDegree_bind, if_pos ((degree_iff _).mp hn), hstart]
  rfl

theorem exec_nprimedn (rd rs1 : Reg) : exec (.nprimedn rd rs1 rs2) s =
    s.answerPrime rd (primeSearch (s.nat rs1 - (2 * s.nat rs2 : Nat)) (2 * s.nat rs2) .down) := by
  have hstart : (s.nat rs1 : Int) - (2 * s.nat rs2 : Nat) = s.nat rs1 - 2 * s.nat rs2 := by push_cast; rfl
  simp only [exec, execNprimedn, needDegree_bind, if_pos ((degree_iff _).mp hn), hstart]
  rfl

end Searches

/-- The first candidate of a downward search that starts one step below b. -/
theorem sub_step_eq {p j step b : Nat} (h : p + (j + 1) * step = b) : (b : Int) - step = (p + j * step : Nat) := by
  rw [← h]
  push_cast
  ring

/-- Settles O36: the first candidates are 2 or more. -/
theorem upwardSearchFindsTheFirstPrime : Obligations.UpwardSearchFindsTheFirstPrime := by
  simp only [Obligations.UpwardSearchFindsTheFirstPrime, ← State.nat_eq]
  intro rd rs1 rs2 s j hn
  have hpos := hn.pos
  have hstep : 0 < 2 * s.nat rs2 := by omega
  refine ⟨fun ha hp hlt hbefore => ?_, fun hp hlt hbefore => ?_⟩
  · have := Nat.two_pow_pos (s.nat rs1)
    rw [exec_fprimeup hn, if_pos ha]
    exact answerPrime_of_foundAt hstep (foundAt_up (by omega) hp hlt hbefore)
  · rw [exec_nprimeup hn]
    exact answerPrime_of_foundAt hstep (foundAt_up (by omega) hp hlt hbefore)

/-- Settles O37. -/
theorem downwardSearchFindsTheFirstPrime : Obligations.DownwardSearchFindsTheFirstPrime := by
  simp only [Obligations.DownwardSearchFindsTheFirstPrime, ← State.nat_eq]
  intro rd rs1 rs2 s p j hn hp hlt hbefore
  have hpos := hn.pos
  have hstep : 0 < 2 * s.nat rs2 := by omega
  have hanswer := answerPrime_of_foundAt (s := s) (rd := rd) hstep (foundAt_down hp hlt hbefore)
  refine ⟨fun ha hstart => ?_, fun hstart => ?_⟩
  · rw [exec_fprimedn hn, if_pos ha, sub_step_eq hstart, hanswer]
  · rw [exec_nprimedn hn, sub_step_eq hstart, hanswer]

/-- Upward from start no prime is found where every candidate below 2^63 is none. -/
theorem not_foundAt_up {start step : Nat} (h : ∀ j, start + j * step < 2 ^ 63 → ¬ (start + j * step).Prime) (i p : Nat) :
    ¬ FoundAt start (Dir.up.stride step) i p := by
  intro hfound
  have hvalue : (start : Int) + i * step = p := hfound.value
  obtain rfl : start + i * step = p := by exact_mod_cast hvalue
  exact h i hfound.lt hfound.prime

/-- Downward from one step below b no prime is found where every candidate is none. -/
theorem not_foundAt_down {b step : Nat} (h : ∀ p j, p + (j + 1) * step = b → ¬ p.Prime) (i p : Nat) :
    ¬ FoundAt (b - step) (Dir.down.stride step) i p := by
  intro hfound
  have hvalue : (b : Int) - step + i * -step = p := hfound.value
  refine h p i ?_ hfound.prime
  zify
  linarith

/-- Settles O38. -/
theorem primeSearchesFaultInOrder : Obligations.PrimeSearchesFaultInOrder := by
  simp only [Obligations.PrimeSearchesFaultInOrder, ← State.nat_eq]
  intro rd rs1 rs2 s
  have hstep : Degree (s.nat rs2) → 0 < 2 * s.nat rs2 := fun hn => Nat.mul_pos two_pos hn.pos
  refine ⟨fun hn i hi => exec_of_not_degree hn hi, fun hn ha => ?_, fun hn ha => ?_, fun hn ha h => ?_, fun hn h => ?_,
    fun hn ha h => ?_, fun hn h => ?_, fun hn ha => ?_⟩
  · rw [exec_fprimeup hn, if_neg (Nat.not_lt.mpr ha)]
  · rw [exec_fprimedn hn, if_neg (Nat.not_lt.mpr ha)]
  · rw [exec_fprimeup hn, if_pos ha]
    exact answerPrime_of_not_foundAt (hstep hn) (not_foundAt_up h)
  · rw [exec_nprimeup hn]
    exact answerPrime_of_not_foundAt (hstep hn) (not_foundAt_up h)
  · rw [exec_fprimedn hn, if_pos ha]
    exact answerPrime_of_not_foundAt (hstep hn) (not_foundAt_down h)
  · rw [exec_nprimedn hn]
    exact answerPrime_of_not_foundAt (hstep hn) (not_foundAt_down h)
  · rw [exec_nprimedn hn]
    refine answerPrime_of_not_foundAt (hstep hn) fun i p hfound => ?_
    have := hfound.start_lt
    omega

end Sys2Proof.Machine

/-! # The roots of a BarrettSafe modulus (O39, O40)

With exact powers the test of a candidate is `Certified` (`certify_eq_passes_iff`), so the scan ends in the smallest
certified candidate. For a prime, certified candidates are those of order q − 1 (`certified_iff_orderOf`). -/

namespace Sys2Proof.Machine

/-! ## The scan finds the smallest certified candidate (41_number_theory.md R170) -/

/-- A scan that ends in a root has rejected every candidate before it. -/
theorem scanRoots_eq_root {d : Descriptor} {F : List Nat} (left : Nat) : ∀ {r g : Nat}, scanRoots d F left r = .root g →
    certify d F g = .passes ∧ ∀ c, r ≤ c → c < g → certify d F c = .rejected := by
  induction left with
  | zero => exact nofun
  | succ left ih =>
    intro r g h
    rw [scanRoots] at h
    split at h
    · next hpass =>
      cases h
      exact ⟨hpass, fun c hr hc => absurd hc (Nat.not_lt.mpr hr)⟩
    · cases h
    · next hrej =>
      obtain ⟨hpass, hbefore⟩ := ih h
      refine ⟨hpass, fun c hr hc => ?_⟩
      rcases hr.eq_or_lt with rfl | hlt
      · exact hrej
      · exact hbefore c hlt hc

section Safe

variable {q : Nat} (h : SafeModulus q)
include h

/-- The test's list of factors is that of q − 1. -/
theorem SafeModulus.factors : ListsPrimeFactors (primeFactors (q - 1)) (q - 1) :=
  primeFactors_lists (by have := h.three_le; omega)

theorem SafeModulus.quotient_lt (m : Nat) : (q - 1) / m < 2 ^ 64 :=
  (Nat.div_le_self _ m).trans_lt ((Nat.sub_le q 1).trans_lt (h.lt.trans (by decide)))

theorem not_certified_of_rejected {r : Nat} (hrej : certify (makeDescriptor q) (primeFactors (q - 1)) r = .rejected) :
    ¬ Certified q r := by
  obtain ⟨p, hp, hone⟩ := exists_power_one_of_rejected hrej
  obtain ⟨hprime, hdvd⟩ := (h.factors.mem p).mp hp
  exact fun hcert => hcert p hprime hdvd (eq_pow_mod_of_modExp hone (h.quotient_lt p)).symm

theorem exists_smallestRoot : ∃ r, findPrimitiveRoot q = .root r ∧ SmallestRoot q r := by
  have three_le := h.three_le
  obtain hnone | ⟨r, two_le, hlt, hroot, hpowers⟩ :=
    scanRoots_of_safe h (primeFactors (q - 1)) (q - 2) le_rfl (by omega)
  · exact absurd hnone (findPrimitiveRoot_ne_exhausted three_le h.lt)
  · obtain ⟨-, hbefore⟩ := scanRoots_eq_root _ hroot
    exact ⟨r, hroot, two_le, hlt, fun p hp hdvd => hpowers p ((h.factors.mem p).mpr ⟨hp, hdvd⟩),
      fun c hc hcr => not_certified_of_rejected h (hbefore c hc hcr)⟩

end Safe

/-! ## Certified candidates of a prime -/

section Prime

variable {q : Nat} (hp : q.Prime)
include hp

theorem pow_mod_eq_one_iff (c m : Nat) : c ^ m % q = 1 ↔ (c : ZMod q) ^ m = 1 := by
  rw [← Nat.cast_pow, ← Nat.cast_one (R := ZMod q), ZMod.natCast_eq_natCast_iff', Nat.mod_eq_of_lt hp.one_lt]

theorem certified_iff_orderOf {c : Nat} (h0 : c ≠ 0) (hc : c < q) : Certified q c ↔ orderOf (c : ZMod q) = q - 1 := by
  have := Fact.mk hp
  have hpos : 0 < q - 1 := Nat.sub_pos_of_lt hp.one_lt
  simp only [Certified, ne_eq, pow_mod_eq_one_iff hp]
  refine ⟨orderOf_eq_of_pow_and_pow_div_prime hpos (ZMod.pow_card_sub_one_eq_one (natCast_ne_zero_of_lt h0 hc)), ?_⟩
  intro hord p hprime hdvd
  exact pow_ne_one_of_lt_orderOf (Nat.div_pos (Nat.le_of_dvd hpos hdvd) hprime.pos).ne'
    ((Nat.div_lt_self hpos hprime.one_lt).trans_eq hord.symm)

/-- The smallest certified candidate is the smallest primitive root. -/
theorem SmallestRoot.orderOf_eq {r : Nat} (h : SmallestRoot q r) :
    orderOf (r : ZMod q) = q - 1 ∧ ∀ c, 2 ≤ c → c < r → orderOf (c : ZMod q) ≠ q - 1 := by
  have two_le := h.two_le
  refine ⟨(certified_iff_orderOf hp (by omega) h.lt).mp h.certified, fun c hc hcr hord => ?_⟩
  exact h.least c hc hcr ((certified_iff_orderOf hp (by omega) (hcr.trans h.lt)).mpr hord)

/-- The square of −1. -/
theorem pow_two_mul_mod_of_pow_mod {g n : Nat} (h : g ^ n % q = q - 1) : g ^ (2 * n) % q = 1 := by
  have hneg : ((g ^ n : Nat) : ZMod q) = ((q - 1 : Nat) : ZMod q) := by rw [← h, ZMod.natCast_mod]
  rw [Nat.cast_pow, Nat.cast_pred hp.pos, ZMod.natCast_self, zero_sub] at hneg
  rw [pow_mod_eq_one_iff hp, mul_comm, pow_mul, hneg, neg_one_sq]

end Prime

/-! ## FINDROOT and FINDGEN (R171 to R174) -/

/-- Settles O39: the scan ends in the smallest certified candidate. -/
theorem findrootAnswersTheSmallestRoot : Obligations.FindrootAnswersTheSmallestRoot := by
  simp only [Obligations.FindrootAnswersTheSmallestRoot, ← State.nat_eq]
  intro rd rs1 s three_le lt hsafe
  obtain ⟨r, hscan, hroot⟩ := exists_smallestRoot ⟨three_le, lt, hsafe⟩
  refine ⟨r, ?_, hroot, fun hp => hroot.orderOf_eq hp⟩
  rw [exec_findroot, if_pos ⟨by omega, lt⟩, hscan]
  rfl

/-- Settles O40: the generator's power N is −1, as the root's power (q − 1)/2 is not 1. -/
theorem findgenAnswersARootOfOrderTwoN : Obligations.FindgenAnswersARootOfOrderTwoN := by
  simp only [Obligations.FindgenAnswersARootOfOrderTwoN, ← State.nat_eq]
  intro rd rs1 rs2 s two_le lt hn hcong hsafe
  have hodd := odd_of_congruent hcong
  have hq : SafeModulus (s.nat rs1) := ⟨by omega, lt, hsafe⟩
  obtain ⟨r, hscan, hroot⟩ := exists_smallestRoot hq
  refine ⟨r, hroot, ?_, fun hp => ?_⟩
  · rw [exec_findgen rd hn, if_pos ⟨⟨two_le, lt⟩, hcong⟩, hscan]
    change commit s (.ok (s.setVal rd (generatorOf (s.nat rs1) (s.nat rs2) (some r)))) = _
    rw [generatorOf_some hq _ hroot.lt]
    rfl
  · obtain ⟨hord, hleast⟩ := hroot.orderOf_eq hp
    have h0 : r ≠ 0 := by have := hroot.two_le; omega
    have hneg := generatorFrom_pow hp hcong h0 hroot.lt (hroot.certified 2 Nat.prime_two (by omega))
    exact ⟨hord, hleast, hneg, pow_two_mul_mod_of_pow_mod hp hneg⟩

end Sys2Proof.Machine

/-! # The transform context (O42 to O46)

CTXINIT that passes its checks either ends in SearchExhausted or leaves `State.buildContext` of a root of its scan
(`exec_ctxinit_of_operands`). Under BarrettSafe the root is the smallest certified candidate and every value stored is
defined, so the context depends on (q, N) alone; without it the frame and the constant words are all that is known. -/

namespace Sys2Proof.Machine

/-! ## Bit reversal (42_transform_context.md R194) -/

/-- The low bit goes to the top, and the rest is reversed below it. -/
theorem testBit_bitRev {w b : Nat} : ∀ {i : Nat}, b < w → (bitRev i w).testBit (w - 1 - b) = i.testBit b := by
  induction w generalizing b with
  | zero => exact fun h => absurd h (Nat.not_lt_zero b)
  | succ w ih =>
    intro i hb
    rw [bitRev, mul_comm, Nat.testBit_two_pow_mul_add _ (bitRev_lt (i / 2) w)]
    cases b with
    | zero => simp
    | succ b =>
      rw [if_pos (by omega), Nat.testBit_succ, ← ih (show b < w by omega)]
      congr 1
      omega

/-- Settles O42: reversing twice gives the w low bits back, and i has no others. -/
theorem bitReversalIsAnInvolution : Obligations.BitReversalIsAnInvolution := by
  unfold Obligations.BitReversalIsAnInvolution
  intro w i hi
  exact ⟨bitRev_lt i w, by rw [bitRev_bitRev, Nat.mod_eq_of_lt hi], fun b => testBit_bitRev⟩

/-! ## TWRD (R199) -/

theorem exec_twrd (rd rs1 : Reg) (tbl : Tbl) (s : State) (hn : s.n.toNat ≤ s.cfg.nmax) : exec (.twrd rd tbl rs1) s =
    if s.ctxvalid = true then
      if s.nat rs1 < s.n.toNat then .next (wroteReg s rd (s.memRead (tableSpace tbl) (s.nat rs1)))
      else .next (faulted s .indexOutOfRange)
    else .next (faulted s .notInitialised) := by
  simp only [exec, execTwrd, needContext_bind, needIndex_bind, commit_ite]
  split_ifs with hctx hindex hword
  · rfl
  · omega
  · rfl
  · rfl

/-- Settles O46: the checks are read in order, and the table is that of the selector. -/
theorem twrdReadsATableWord : Obligations.TwrdReadsATableWord := by
  simp only [Obligations.TwrdReadsATableWord, ← State.nat_eq]
  intro rd rs1 tbl s hn
  refine ⟨fun hctx hindex => ?_, fun hctx => ?_, fun hctx hindex => ?_⟩
  · rw [exec_twrd rd rs1 tbl s hn, if_pos hctx, if_pos hindex]
    cases tbl <;> rfl
  · rw [exec_twrd rd rs1 tbl s hn, if_neg (by simp [hctx])]
  · rw [exec_twrd rd rs1 tbl s hn, if_pos hctx, if_neg (Nat.not_lt.mpr hindex)]

/-! ## The checks of CTXINIT (R192) -/

theorem exec_ctxinit (rs1 rs2 : Reg) (s : State) : exec (.ctxinit rs1 rs2) s =
    if isPow2 (s.nat rs2) = true ∧ s.nat rs2 ≤ s.cfg.nmax then
      if ((2 ≤ s.nat rs1 ∧ s.nat rs1 < two63) ∧ s.nat rs1 % (2 * s.nat rs2) = 1) ∧ isPrime (s.nat rs1) = true then
        commit s (do
          let g0 ← takeRootContext s (findPrimitiveRoot (s.nat rs1))
          return s.buildContext (s.nat rs1) (s.nat rs2) g0)
      else .next (faulted s .invalidModulus)
    else .next (faulted s .invalidDegree) := by
  simp only [exec, execCtxinit, needDegree_bind, needModulus_bind, needCongruent_bind, ensure_bind, commit_ite, ite_and]
  rfl

/-- Settles O44: NMAX is at most 2^61, so the degree check is that of the statement; the other three share a cause. -/
theorem ctxinitChecksComeInOrder : Obligations.CtxinitChecksComeInOrder := by
  simp only [Obligations.CtxinitChecksComeInOrder, ← State.nat_eq]
  intro rs1 rs2 s hnmax
  refine ⟨fun hdegree => ?_, fun hdegree hbound hout => ?_⟩
  · rw [exec_ctxinit, if_neg]
    exact fun ⟨hpow2, hbound⟩ => hdegree ⟨(degree_iff _).mpr ⟨hpow2, hbound.trans hnmax⟩, hbound⟩
  · rw [exec_ctxinit, if_pos ⟨((degree_iff _).mp hdegree).1, hbound⟩, if_neg]
    rintro ⟨⟨⟨two_le, lt⟩, hcong⟩, hprime⟩
    rcases hout with hlow | hhigh | hne | hcomposite
    · exact Nat.not_lt.mpr two_le hlow
    · exact Nat.not_le.mpr lt hhigh
    · exact hne hcong
    · exact hcomposite ((isPrime_iff _).mp hprime)

/-- CTXINIT on operands it accepts ends in SearchExhausted or leaves the context of a root of its scan. -/
theorem exec_ctxinit_of_operands {rs1 rs2 : Reg} {s : State} (h : ContextOperands s.cfg (s.nat rs1) (s.nat rs2)) :
    exec (.ctxinit rs1 rs2) s = commit s (do
      let g0 ← takeRootContext s (findPrimitiveRoot (s.nat rs1))
      return s.buildContext (s.nat rs1) (s.nat rs2) g0) := by
  rw [exec_ctxinit, if_pos ⟨h.pow2, h.bound⟩, if_pos ⟨⟨⟨h.two_le, h.lt⟩, h.congruent⟩, h.prime⟩]

/-! ## The context at the greatest NMAX

The congruence bounds the degree by 2^61, the greatest NMAX (00_scope.md R7), and NMAX does nothing but bound the degree.
So what holds of the context in a block of that NMAX holds in every block, whatever its parameters. -/

/-- The greatest parameters of a block. -/
def greatestConfig : Config := { nmax := maxDegree, npoly := 16 }

theorem greatestConfig_ok : greatestConfig.ok := ⟨⟨61, by decide, rfl⟩, by decide, by decide⟩

theorem ContextOperands.degree_le {cfg : Config} {q n : Nat} (h : ContextOperands cfg q n) : n ≤ maxDegree := by
  have hlt := h.lt
  have hdouble : 2 * n < q := by
    by_contra hle
    have hcong := h.congruent
    rcases (Nat.not_lt.mp hle).eq_or_lt with heq | hlt
    · rw [heq, Nat.mod_self] at hcong
      omega
    · rw [Nat.mod_eq_of_lt hlt] at hcong
      have := h.two_le
      omega
  obtain ⟨k, rfl⟩ := (isPow2_iff n).mp h.pow2
  have : 2 ^ (k + 1) < 2 ^ 63 := by rw [pow_succ']; exact hdouble.trans hlt
  have := (Nat.pow_lt_pow_iff_right one_lt_two).mp this
  exact Nat.pow_le_pow_right two_pos (by omega)

theorem ContextOperands.atGreatest {cfg : Config} {q n : Nat} (h : ContextOperands cfg q n) :
    ContextOperands greatestConfig q n := { h with bound := h.degree_le }

theorem SafeContext.atGreatest {cfg : Config} {q n r : Nat} (h : SafeContext cfg q n r) :
    SafeContext greatestConfig q n r := { h with operands := h.operands.atGreatest }

theorem buildContext_withCfg (s : State) (cfg : Config) (q n : Nat) (g0 : Val) :
    { s with cfg := cfg }.buildContext q n g0 = { s.buildContext q n g0 with cfg := cfg } := by
  unfold State.buildContext
  cases findPrimitiveRoot q <;> rfl

theorem toNat_n_of_operands {s : State} {q n : Nat} (h : ContextOperands s.cfg q n) (g0 : Val) :
    (s.buildContext q n g0).n.toNat = n := by
  have := toNat_n_buildContext (s := { s with cfg := greatestConfig }) greatestConfig_ok h.atGreatest g0
  rwa [buildContext_withCfg] at this

theorem toNat_logn_of_operands {s : State} {q n : Nat} (h : ContextOperands s.cfg q n) (g0 : Val) :
    (s.buildContext q n g0).logn.toNat = Nat.log 2 n := by
  have := toNat_logn_buildContext (s := { s with cfg := greatestConfig }) greatestConfig_ok h.atGreatest g0
  rwa [buildContext_withCfg, Nat.log2_eq_log_two] at this

section Safe

variable {s : State} {q n r : Nat} (h : SafeContext s.cfg q n r)
include h

theorem tablesCanonical_of_safe : TablesCanonical (s.buildContext q n (some r)) := by
  have := tablesCanonical_buildContext (s := { s with cfg := greatestConfig }) h.atGreatest greatestConfig_ok
  rw [buildContext_withCfg] at this
  exact ⟨this.tf, this.itf, this.tfShoup, this.itfShoup, this.invN, this.invNShoup⟩

theorem tablesArePowers_of_safe : TablesArePowers (s.buildContext q n (some r)) (generatorFrom q n r) := by
  have := tablesArePowers_buildContext (s := { s with cfg := greatestConfig }) h.atGreatest greatestConfig_ok
  rw [buildContext_withCfg] at this
  exact ⟨this.root, this.tf, this.itf, this.invN⟩

/-! ## Under BarrettSafe every value of the context is defined -/

theorem exists_entry_of_safe {m : Space} (hm : ∀ p, m ≠ .poly p) {i : Nat} (hi : i < n) :
    ∃ x, entry ((buildTables q n (some r)).values m) i = some x := by
  have hlt : ∀ x, x % q < q := fun x => Nat.mod_lt _ h.operands.natPrime.pos
  cases m with
  | poly p => exact absurd rfl (hm p)
  | tf => exact ⟨_, entry_tf h hi⟩
  | itf => exact ⟨_, entry_itf h hi⟩
  | tfShoup => exact ⟨_, (entry_map_of_some (entry_tf h hi)).trans (vShoupPre_some (hlt _))⟩
  | itfShoup => exact ⟨_, (entry_map_of_some (entry_itf h hi)).trans (vShoupPre_some (hlt _))⟩

theorem exists_invN_of_safe : ∃ x y, (buildTables q n (some r)).invN = some x ∧
    (buildTables q n (some r)).invNShoup = some y := by
  have hinv : (buildTables q n (some r)).invN = some (n ^ (q - 2) % q) :=
    modInv_some h.modulus h.operands.degree_lt h.operands.degree_pos.ne'
  refine ⟨_, shoupPre q (n ^ (q - 2) % q), hinv, ?_⟩
  rw [← vShoupPre_some (Nat.mod_lt _ h.operands.natPrime.pos), ← hinv]
  rfl

end Safe

/-- Defined values use no free value. -/
theorem resolve_snd_of_defined {vs : List Val} (k : Nat) (h : ∀ i < vs.length, ∃ x, entry vs i = some x) :
    (resolve k vs).2 = k := by
  have hmap : vs = (vs.map (·.getD 0)).map some := by
    refine List.ext_getElem (by simp) fun i hi _ => ?_
    obtain ⟨x, hx⟩ := h i hi
    rw [entry, List.getD_eq_getElem _ _ hi] at hx
    simp [hx]
  rw [hmap, resolve_map_some]

/-- The counter of free values stays where it is. -/
theorem free_buildContext_of_safe {s : State} {q n r : Nat} (h : SafeContext s.cfg q n r)
    (hscan : findPrimitiveRoot q = .root r) : (s.buildContext q n (some r)).free = s.free := by
  have hvals : ∀ m k, (∀ p, m ≠ .poly p) → (resolve k ((buildTables q n (some r)).values m)).2 = k := fun m k hm =>
    resolve_snd_of_defined k fun i hi => exists_entry_of_safe h hm (by rwa [length_tables h.operands.pow2 hm] at hi)
  obtain ⟨x, y, hinv, hshoup⟩ := exists_invN_of_safe h
  have htf := fun k => hvals .tf k nofun
  have hitf := fun k => hvals .itf k nofun
  have htfShoup := fun k => hvals .tfShoup k nofun
  have hitfShoup := fun k => hvals .itfShoup k nofun
  simp only [Tables.values] at htf hitf htfShoup hitfShoup
  simp only [State.buildContext, State.setTables, State.flagsCtxinit_free, State.setInvN_free, State.storeVals_free,
    State.setDegree_free, State.setDesc_free, hscan, hinv, hshoup, takeVal, htf, hitf, htfShoup, hitfShoup]
  rfl

/-! ## What CTXINIT changes (R192, R197) -/

/-- t is s after CTXINIT completed with modulus q and degree n: it has the descriptor of q, the degree with its logarithm
and both flags set, and no scalar register, no buffer and no table word from n up differs. -/
def ContextResult (s t : State) (q n : Word) : Prop :=
  t = { s with q := q, logq := t.logq, mu := t.mu, modvalid := true, n := n, logn := t.logn,
               invN := t.invN, invNShoup := t.invNShoup, ctxvalid := true, tf := t.tf, tfShoup := t.tfShoup,
               itf := t.itf, itfShoup := t.itfShoup, pc := s.pc + 1, free := t.free,
               outbox := { fault := false, cause := 0, data := 0 } :: s.outbox } ∧
  DescriptorOk t ∧ t.logn.toNat = Nat.log 2 n.toNat ∧ ∀ m i, n.toNat ≤ i → t.memRead m i = s.memRead m i

/-- A buffer keeps every word, a table those from N up. -/
theorem memRead_buildContext_from {s : State} {q n : Nat} (pow2 : isPow2 n = true) (g0 : Val) (m : Space) {i : Nat}
    (hi : n ≤ i) : (s.buildContext q n g0).memRead m i = s.memRead m i := by
  obtain ⟨k, hm⟩ := s.mem_buildContext q n g0 m
  have hlen : ((buildTables q n g0).values m).length ≤ n := by
    cases m with
    | poly p => exact Nat.zero_le n
    | tf | tfShoup | itf | itfShoup => exact (length_tables pow2 (by simp)).le
  rw [State.memRead, hm, Mem.find_store, length_resolve, if_neg (by omega)]
  rfl

theorem sameContext_complete (s : State) (d : Word) : SameContext s (s.complete d) := by constructor <;> rfl

theorem contextResult_buildContext {s : State} {rs1 rs2 : Reg} (h : ContextOperands s.cfg (s.nat rs1) (s.nat rs2))
    (g0 : Val) :
    ContextResult s ((s.buildContext (s.nat rs1) (s.nat rs2) g0).complete 0) s.sreg[rs1] s.sreg[rs2] := by
  have hc := sameContext_complete (s.buildContext (s.nat rs1) (s.nat rs2) g0) 0
  refine ⟨?_, (descriptorOk_buildContext h g0).1.congr hc.q hc.logq hc.mu, ?_, fun m i hi => ?_⟩
  · rw [State.complete, State.respond, State.mk.injEq]
    simp [State.buildContext, State.nat, State.getS]
  · rw [hc.logn, toNat_logn_of_operands h g0, State.nat_eq]
  · rw [State.memRead_complete, memRead_buildContext_from h.pow2 g0 m hi]

/-! ## The constant words (R200) -/

/-- Word 0 of each table, whatever the root. -/
structure ConstantWords (t : State) (q : Nat) : Prop where
  tf : t.memRead .tf 0 = 1
  itf : t.memRead .itf 0 = 1
  tfShoup : (t.memRead .tfShoup 0).toNat = 2 ^ 64 / q
  itfShoup : (t.memRead .itfShoup 0).toNat = 2 ^ 64 / q

theorem constantWords_buildContext {s : State} {q n : Nat} (h : ContextOperands s.cfg q n) (g0 : Val) :
    ConstantWords ((s.buildContext q n g0).complete 0) q := by
  have hpos := h.degree_pos
  have hshoup : vShoupPre q (some 1) = some (2 ^ 64 / q) := by
    rw [vShoupPre_some h.natPrime.one_lt, shoupPre, one_mul]
  have hlt : 2 ^ 64 / q < 2 ^ 64 := Nat.div_lt_self (by decide) h.natPrime.one_lt
  have hword : ∀ {m : Space}, (∀ p, m ≠ .poly p) → entry ((buildTables q n g0).values m) 0 = some (2 ^ 64 / q) →
      ((s.buildContext q n g0).memRead m 0).toNat = 2 ^ 64 / q := fun hm hx => by
    rw [memRead_buildContext_eq h g0 hm hpos hx, BitVec.toNat_ofNat, Nat.mod_eq_of_lt hlt]
  constructor <;> rw [State.memRead_complete]
  case tf | itf => exact memRead_buildContext_eq h g0 nofun hpos (entry_powers_zero _ _ hpos _)
  case tfShoup | itfShoup =>
    exact hword nofun ((entry_map_of_some (entry_powers_zero _ _ hpos _)).trans hshoup)

/-! ## CTXINIT -/

/-- A certified root's power (q − 1)/2 is not 1, which is what the tables rest on. -/
theorem ContextOperands.safeContext {cfg : Config} {q n r : Nat} (h : ContextOperands cfg q n)
    (hsafe : barrettSafe q = true) (hroot : SmallestRoot q r) : SafeContext cfg q n r := by
  have hq := h.safeModulus hsafe
  have hodd := odd_of_congruent h.congruent
  exact ⟨h, hq, hroot.two_le, hroot.lt, hroot.certified 2 Nat.prime_two (by have := hq.three_le; omega)⟩

/-- Under BarrettSafe the scan finds the smallest certified root and CTXINIT completes with the context of it. -/
theorem exec_ctxinit_of_safe {rs1 rs2 : Reg} {s : State} (h : ContextOperands s.cfg (s.nat rs1) (s.nat rs2))
    (hsafe : barrettSafe (s.nat rs1) = true) : ∃ r, findPrimitiveRoot (s.nat rs1) = .root r ∧
      SmallestRoot (s.nat rs1) r ∧
      exec (.ctxinit rs1 rs2) s = .next ((s.buildContext (s.nat rs1) (s.nat rs2) (some r)).complete 0) := by
  obtain ⟨r, hscan, hroot⟩ := exists_smallestRoot (h.safeModulus hsafe)
  refine ⟨r, hscan, hroot, ?_⟩
  rw [exec_ctxinit_of_operands h, hscan]
  rfl

/-- For every modulus CTXINIT ends in SearchExhausted or completes with the context of some root. -/
theorem exec_ctxinit_cases {rs1 rs2 : Reg} {s : State} (h : ContextOperands s.cfg (s.nat rs1) (s.nat rs2)) :
    exec (.ctxinit rs1 rs2) s = .next (faulted s .searchExhausted) ∨
      ∃ g0, exec (.ctxinit rs1 rs2) s = .next ((s.buildContext (s.nat rs1) (s.nat rs2) g0).complete 0) := by
  rw [exec_ctxinit_of_operands h]
  obtain ⟨g, -, hg⟩ | ⟨-, hnone⟩ | ⟨-, herr⟩ := takeRootContext_cases s (findPrimitiveRoot (s.nat rs1))
  · exact .inr ⟨some g, by rw [hg]; rfl⟩
  · exact .inr ⟨none, by rw [hnone]; rfl⟩
  · exact .inl (by rw [herr]; rfl)

/-- Settles O43: under BarrettSafe the root is the scan's, otherwise the frame and the constant words hold for any. -/
theorem ctxinitBuildsTheContext : Obligations.CtxinitBuildsTheContext := by
  simp only [Obligations.CtxinitBuildsTheContext, ← State.nat_eq]
  intro rs1 rs2 s hprime lt hdegree hbound hcong
  have h : ContextOperands s.cfg (s.nat rs1) (s.nat rs2) :=
    ⟨((degree_iff _).mp hdegree).1, hbound, hprime.two_le, lt, hcong, (isPrime_iff _).mpr hprime⟩
  refine ⟨fun hsafe => ?_, ?_⟩
  · obtain ⟨r, hscan, hroot, hexec⟩ := exec_ctxinit_of_safe h hsafe
    have hs := h.safeContext hsafe hroot
    have hsame := sameContext_complete (s.buildContext (s.nat rs1) (s.nat rs2) (some r)) 0
    have hfree := (State.complete_free _ 0).trans (free_buildContext_of_safe hs hscan)
    exact ⟨_, r, hexec, contextResult_buildContext h (some r), hfree, (tablesCanonical_of_safe hs).congr hsame, hroot,
      (tablesArePowers_of_safe hs).congr hsame⟩
  · obtain hexec | ⟨g0, hexec⟩ := exec_ctxinit_cases h
    · exact ⟨_, hexec, .inl rfl⟩
    · obtain ⟨tf, itf, tfShoup, itfShoup⟩ := constantWords_buildContext h g0
      exact ⟨_, hexec, .inr ⟨contextResult_buildContext h g0, tf, itf, tfShoup, itfShoup⟩⟩

/-! ## Equal operands, equal contexts (R198) -/

/-- A CTXINIT that left FAULT clear passed its checks. -/
theorem contextOperands_of_completed {rs1 rs2 : Reg} {s t : State} (h : exec (.ctxinit rs1 rs2) s = .next t)
    (ht : t.fault = false) : ContextOperands s.cfg (s.nat rs1) (s.nat rs2) := by
  cases exec_ends h with
  | raised c => cases ht
  | completed effect =>
    cases effect with
    | register hrd => cases hrd
    | values hvs => cases hvs
    | context _ _ g0 pow2 bound two_le lt congruent prime => exact ⟨pow2, bound, two_le, lt, congruent, prime⟩

/-- The context of t is that of t'. -/
structure SameBuiltContext (t t' : State) : Prop where
  q : t.q = t'.q
  logq : t.logq = t'.logq
  mu : t.mu = t'.mu
  n : t.n = t'.n
  logn : t.logn = t'.logn
  invN : t.invN = t'.invN
  invNShoup : t.invNShoup = t'.invNShoup
  words : ∀ {m : Space}, (∀ p, m ≠ .poly p) → ∀ i < t.n.toNat, t.memRead m i = t'.memRead m i

theorem SameBuiltContext.complete {u u' : State} (h : SameBuiltContext u u') :
    SameBuiltContext (u.complete 0) (u'.complete 0) where
  q := h.q
  logq := h.logq
  mu := h.mu
  n := h.n
  logn := h.logn
  invN := h.invN
  invNShoup := h.invNShoup
  words hm i hi := by
    rw [State.memRead_complete, State.memRead_complete]
    exact h.words hm i hi

/-- The descriptor and the degree are made of (q, N), and so is every value of the tables, which is defined. -/
theorem sameBuiltContext_of_safe {s s' : State} {q n r : Nat} (h : SafeContext s.cfg q n r)
    (h' : SafeContext s'.cfg q n r) :
    SameBuiltContext (s.buildContext q n (some r)) (s'.buildContext q n (some r)) where
  q := by simp [State.buildContext]
  logq := by simp [State.buildContext]
  mu := by simp [State.buildContext]
  n := by simp [State.buildContext]
  logn := by simp [State.buildContext]
  invN := BitVec.eq_of_toNat_eq ((toNat_invN h).1.trans (toNat_invN h').1.symm)
  invNShoup := BitVec.eq_of_toNat_eq ((toNat_invN h).2.trans (toNat_invN h').2.symm)
  words hm i hi := by
    rw [toNat_n_of_operands h.operands] at hi
    obtain ⟨x, hx⟩ := exists_entry_of_safe h hm hi
    rw [memRead_buildContext_eq h.operands _ hm hi hx, memRead_buildContext_eq h'.operands _ hm hi hx]

/-- Settles O45: both commands take the root the scan of q finds. -/
theorem contextDependsOnlyOnItsOperands : Obligations.ContextDependsOnlyOnItsOperands := by
  unfold Obligations.ContextDependsOnlyOnItsOperands
  intro a b a' b' s s' t t' hexec hexec' ht ht' hq hn hsafe
  have hop := contextOperands_of_completed hexec ht
  have hop' := contextOperands_of_completed hexec' ht'
  have hq : s'.nat a' = s.nat a := congrArg BitVec.toNat hq.symm
  have hn : s'.nat b' = s.nat b := congrArg BitVec.toNat hn.symm
  obtain ⟨r, hscan, hroot, hres⟩ := exec_ctxinit_of_safe hop hsafe
  obtain ⟨r', hscan', -, hres'⟩ := exec_ctxinit_of_safe hop' (hq ▸ hsafe)
  rw [hq] at hscan'
  cases hscan.symm.trans hscan'
  cases hexec.symm.trans hres
  rw [hres'] at hexec'
  cases hexec'
  rw [hq, hn] at hop' ⊢
  obtain ⟨q, logq, mu, n, logn, invN, invNShoup, words⟩ :=
    (sameBuiltContext_of_safe (hop.safeContext hsafe hroot) (hop'.safeContext hsafe hroot)).complete
  exact ⟨q, logq, mu, n, logn, invN, invNShoup, fun m hm => words (by rintro p rfl; simp at hm)⟩

end Sys2Proof.Machine

/-! # Polynomials (O47 to O55)

Every command with a PolyCheck is that check and then its work (`exec_poly`), so the order of faults is read off one
action (O47), and on sources that pass it the outcome is that of the work alone (`exec_poly_of_ready`). What a result
leaves in the memories is said by `PolyResult`, once for words that are stored and once for values of the units. -/

namespace Sys2Proof.Machine

/-! ## PolyCheck (43_polynomial_ring.md R221) -/

/-- PolyCheck of any number of sources: the context, then every VALID, then every tag. -/
def State.polyChecks (s : State) (srcs : List Buf) : Except Stop Unit := do
  s.needContext
  srcs.forM s.needValid
  srcs.forM s.needTag

theorem needContext_eq_polyChecks (s : State) : s.needContext = s.polyChecks [] := by
  simp [State.polyChecks, List.forM]

theorem polyCheck1_eq_polyChecks (s : State) (p : Buf) : s.polyCheck1 p = s.polyChecks [p] := by
  simp [State.polyCheck1, State.polyChecks, List.forM]

theorem polyCheck2_eq_polyChecks (s : State) (p r : Buf) : s.polyCheck2 p r = s.polyChecks [p, r] := by
  simp [State.polyCheck2, State.polyChecks, List.forM]

/-- One check made of every source: which source failed it first does not show. -/
theorem forM_ensure_bind {α : Type} (ok : Buf → Bool) (c : Cause) (ps : List Buf) (k : Unit → Except Stop α) :
    (ps.forM (fun p => ensure (ok p) c) >>= k) = if ∀ p ∈ ps, ok p = true then k () else .error (.raised c) := by
  induction ps with
  | nil => rfl
  | cons p ps ih =>
    rw [List.forM, bind_assoc, ensure_bind, ih]
    by_cases hp : ok p = true <;> simp [hp]

theorem polyChecks_bind {α : Type} (s : State) (srcs : List Buf) (k : Unit → Except Stop α) :
    (s.polyChecks srcs >>= k) =
      if s.ctxvalid = true then
        if ∀ p ∈ srcs, s.poly[p].valid = true then
          if ∀ p ∈ srcs, s.poly[p].tq = s.q ∧ s.poly[p].tn = s.n then k () else .error (.raised .modulusMismatch)
        else .error (.raised .notInitialised)
      else .error (.raised .notInitialised) := by
  have hvalid : s.needValid = fun p => ensure s.poly[p].valid .notInitialised := rfl
  have htag : s.needTag = fun p => ensure (decide (s.poly[p].tq = s.q ∧ s.poly[p].tn = s.n)) .modulusMismatch := rfl
  rw [State.polyChecks, hvalid, htag, bind_assoc, needContext_bind, bind_assoc, forM_ensure_bind, forM_ensure_bind]
  simp only [decide_eq_true_eq]

/-! ## The shape of the polynomial commands -/

/-- What a polynomial command does once PolyCheck is passed, its operand checks included; a command without a PolyCheck
has no such part. -/
def State.polyWork (s : State) : Instr → Action
  | .pzero pd => do
    s.wordsExist s.n.toNat
    return s.putPoly pd (List.replicate s.n.toNat 0)
  | .prand pd => do
    s.wordsExist s.n.toNat
    return (s.draws 1 s.q.toNat s.n.toNat).2.putPoly pd (s.draws 1 s.q.toNat s.n.toNat).1
  | .pwr pd rs1 rs2 => do
    ensure (decide (s.nat rs1 < s.n.toNat)) .indexOutOfRange
    s.needResidue rs2
    s.wordsExist (s.nat rs1 + 1)
    return s.memWrite (.poly pd) (s.nat rs1) (s.getS rs2)
  | .prd rd pa rs2 => do
    s.needIndex rs2
    return s.setS rd (s.memRead (.poly pa) (s.nat rs2))
  | i =>
    match s.polyValues i with
    | some (pd, vs) => do
      s.wordsExist s.n.toNat
      return s.putPolyVals pd vs
    | none => pure s

/-- A polynomial command is its PolyCheck and its work. -/
theorem exec_poly (s : State) {i : Instr} {srcs : List Buf} (hsrcs : i.polySources = some srcs) :
    exec i s = commit s (do s.polyChecks srcs; s.polyWork i) := by
  cases i with
  | pzero | prand =>
    cases hsrcs
    rw [← needContext_eq_polyChecks]
    rfl
  | pwr p | prd _ p | pneg _ p | ntt p | intt p | nttsh p | inttsh p =>
    cases hsrcs
    rw [← polyCheck1_eq_polyChecks]
    rfl
  | padd _ pa pb | psub _ pa pb | pmulpw _ pa pb | convnaive _ pa pb | conv _ pa pb | convsh _ pa pb =>
    cases hsrcs
    rw [← polyCheck2_eq_polyChecks]
    rfl
  | _ => cases hsrcs

/-- Settles O47: each clause is one branch of PolyCheck, whatever work comes after it. -/
theorem polyCheckComesInOrder : Obligations.PolyCheckComesInOrder := by
  unfold Obligations.PolyCheckComesInOrder
  intro i s srcs hsrcs
  rw [exec_poly s hsrcs, polyChecks_bind]
  refine ⟨fun hctx => ?_, fun hctx ⟨p, hp, hinvalid⟩ => ?_, fun hctx hvalid ⟨p, hp, hother⟩ => ?_⟩
  · rw [if_neg (by simp [hctx])]
    rfl
  · have hsome : ¬ ∀ p ∈ srcs, s.poly[p].valid = true := fun h =>
      Bool.false_ne_true (hinvalid.symm.trans (h p hp))
    rw [if_pos hctx, if_neg hsome]
    rfl
  · have hsome : ¬ ∀ p ∈ srcs, s.poly[p].tq = s.q ∧ s.poly[p].tn = s.n := fun h =>
      hother.elim (· (h p hp).1) (· (h p hp).2)
    rw [if_pos hctx, if_pos hvalid, if_neg hsome]
    rfl

/-- On sources that pass PolyCheck a polynomial command is its work. -/
theorem exec_poly_of_ready {s : State} {i : Instr} {srcs : List Buf} (hsrcs : i.polySources = some srcs)
    (hctx : s.ctxvalid = true) (hready : ∀ p ∈ srcs, PolyReady s p) : exec i s = commit s (s.polyWork i) := by
  rw [exec_poly s hsrcs, polyChecks_bind, if_pos hctx, if_pos fun p hp => (hready p hp).valid,
    if_pos fun p hp => ⟨(hready p hp).tq, (hready p hp).tn⟩]

theorem exec_poly_of_ready1 {s : State} {i : Instr} {p : Buf} (hsrcs : i.polySources = some [p]) (hp : PolyReady s p) :
    exec i s = commit s (s.polyWork i) :=
  exec_poly_of_ready hsrcs hp.context (List.forall_mem_singleton.mpr hp)

/-- A command whose work is to put N words, on sources that pass PolyCheck. -/
theorem exec_poly_puts {s u : State} {i : Instr} {srcs : List Buf} (hsrcs : i.polySources = some srcs)
    (hctx : s.ctxvalid = true) (hbound : s.n.toNat ≤ s.cfg.nmax) (hready : ∀ p ∈ srcs, PolyReady s p)
    (hwork : s.polyWork i = do s.wordsExist s.n.toNat; return u) : exec i s = .next (u.complete 0) := by
  rw [exec_poly_of_ready hsrcs hctx hready, hwork, wordsExist_bind, if_pos hbound]
  rfl

/-! ## PWR and PRD (R225, R226) -/

theorem exec_pwr {s : State} {pd : Buf} (hp : PolyReady s pd) (rs1 rs2 : Reg) : exec (.pwr pd rs1 rs2) s =
    if s.nat rs1 < s.n.toNat then
      if s.nat rs2 < s.q.toNat then .next ((s.memWrite (.poly pd) (s.nat rs1) (s.getS rs2)).complete 0)
      else .next (faulted s .preconditionViolation)
    else .next (faulted s .indexOutOfRange) := by
  have hn := hp.bound
  rw [exec_poly_of_ready1 rfl hp]
  simp only [State.polyWork, ensure_bind, decide_eq_true_eq, needResidue_bind, wordsExist_bind, commit_ite]
  split_ifs
  · rfl
  · omega
  · rfl
  · rfl

theorem exec_prd {s : State} {pa : Buf} (hp : PolyReady s pa) (rd rs2 : Reg) : exec (.prd rd pa rs2) s =
    if s.nat rs2 < s.n.toNat then .next (wroteReg s rd (s.memRead (.poly pa) (s.nat rs2)))
    else .next (faulted s .indexOutOfRange) := by
  have hn := hp.bound
  rw [exec_poly_of_ready1 rfl hp]
  simp only [State.polyWork, needIndex_bind, commit_ite]
  split_ifs
  · rfl
  · omega
  · rfl

/-- Settles O51: PWR reads the index before the value. -/
theorem coefficientChecksComeInOrder : Obligations.CoefficientChecksComeInOrder := by
  simp only [Obligations.CoefficientChecksComeInOrder, ← State.nat_eq]
  intro r rs1 rs2 p s hp
  refine ⟨fun hindex => ⟨?_, ?_⟩, fun hindex hvalue => ?_⟩
  · rw [exec_pwr hp, if_neg (Nat.not_lt.mpr hindex)]
  · rw [exec_prd hp, if_neg (Nat.not_lt.mpr hindex)]
  · rw [exec_pwr hp, if_pos hindex, if_neg (Nat.not_lt.mpr hvalue)]

/-- Settles O50: PWR is one `MemWrite`, PRD one `MemRead`. -/
theorem pwrAndPrdAccessOneWord : Obligations.PwrAndPrdAccessOneWord := by
  simp only [Obligations.PwrAndPrdAccessOneWord, ← State.nat_eq]
  intro r rs1 rs2 p s hp hindex
  refine ⟨by rw [exec_prd hp, if_pos hindex], fun hvalue => ?_⟩
  refine ⟨_, by rw [exec_pwr hp, if_pos hindex, if_pos hvalue], ?_, fun m i => ?_⟩
  · simp [State.memWrite, State.setMem, State.mem, State.complete, State.respond]
  · rw [State.memRead_complete, State.memRead_memWrite]
    rfl

/-! ## PZERO (R222) -/

/-- Settles O48: N zeros are put. -/
theorem pzeroMakesTheZeroPolynomial : Obligations.PzeroMakesTheZeroPolynomial := by
  unfold Obligations.PzeroMakesTheZeroPolynomial
  intro pd s hctx hbound
  obtain ⟨hresult, hwords⟩ := polyResult_putPoly s pd (List.replicate s.n.toNat 0) (by simp)
  refine ⟨_, exec_poly_puts (srcs := []) rfl hctx hbound nofun rfl, hresult, by simp, fun i hi => ?_⟩
  rw [hwords i (by simpa using hi), List.getElem_replicate]

/-! ## PRAND (R223, R224) -/

/-- An answer in range is taken as it is. -/
theorem draw_of_ready {s : State} {lo hi : Nat} {v : Word} {rest : List Word} (h : s.oracle = v :: rest)
    (hv : lo ≤ v.toNat ∧ v.toNat < hi) : s.draw lo hi = (v, { s with oracle := rest }) := by
  simp only [State.draw, h, if_pos hv]

/-- Where the random source has n answers in range ready, n draws take them in order and use no free value. -/
theorem draws_of_ready (n : Nat) : ∀ {s : State} {lo hi : Nat},
    (∀ i < n, ∃ v, s.oracle[i]? = some v ∧ lo ≤ v.toNat ∧ v.toNat < hi) →
    s.draws lo hi n = (s.oracle.take n, { s with oracle := s.oracle.drop n }) := by
  induction n with
  | zero => intros; rfl
  | succ n ih =>
    intro s lo hi h
    cases horacle : s.oracle with
    | nil => simpa [horacle] using h 0 n.succ_pos
    | cons v rest =>
      simp only [horacle] at h
      have hv : lo ≤ v.toNat ∧ v.toNat < hi := by simpa using h 0 n.succ_pos
      have hrest : ∀ i < n, ∃ v, rest[i]? = some v ∧ lo ≤ v.toNat ∧ v.toNat < hi := fun i hi => by
        simpa using h (i + 1) (Nat.succ_lt_succ hi)
      simp only [State.draws, draw_of_ready horacle hv]
      rw [ih hrest]
      rfl

theorem exec_prand {s : State} (hctx : s.ctxvalid = true) (hbound : s.n.toNat ≤ s.cfg.nmax) (pd : Buf) :
    exec (.prand pd) s = .next
      (((s.draws 1 s.q.toNat s.n.toNat).2.putPoly pd (s.draws 1 s.q.toNat s.n.toNat).1).complete 0) :=
  exec_poly_puts (srcs := []) rfl hctx hbound nofun rfl

/-- Settles O49: the words put are the draws, and a draw changes nothing but the source's list and the counter. -/
theorem prandDrawsNonzeroResidues : Obligations.PrandDrawsNonzeroResidues := by
  unfold Obligations.PrandDrawsNonzeroResidues
  intro pd s hctx hbound hq
  obtain ⟨hlen, hrange⟩ := draws_mem s.n.toNat s hq s.q.isLt.le
  have hframe := draws_frame s.n.toNat s 1 s.q.toNat
  have hready := fun h => draws_of_ready (s := s) (lo := 1) (hi := s.q.toNat) s.n.toNat h
  rw [exec_prand hctx hbound]
  generalize s.draws 1 s.q.toNat s.n.toNat = drawn at hlen hrange hframe hready ⊢
  obtain ⟨ws, u⟩ := drawn
  obtain ⟨k, o, rfl⟩ : ∃ k o, u = { s with oracle := o, free := k } := ⟨_, _, hframe⟩
  obtain ⟨⟨hstate, hvalid, htq, htn, habove⟩, hwords⟩ := polyResult_putPoly { s with oracle := o, free := k } pd ws hlen
  refine ⟨_, rfl, ?_, hvalid, htq, htn, habove, fun i hi => ?_, fun h => ?_⟩
  · rw [hstate]
    simp
  · rw [State.coeff, hwords i (hi.trans_eq hlen.symm)]
    exact hrange _ (List.getElem_mem _)
  · obtain ⟨rfl, hu⟩ := Prod.mk.inj (hready h)
    refine ⟨by simpa using congrArg State.oracle hu, by simpa using congrArg State.free hu, fun i hi => ?_⟩
    obtain ⟨v, hv, -⟩ := h i hi
    rw [hwords i (hi.trans_eq hlen.symm), List.getElem_take, ← List.getElem?_eq_getElem]


/-! ## PCOPY (R227) -/

/-- A command that completes with tn words stored and the tag (tq, tn) has the shape of a polynomial result. -/
theorem polyResult_tag_store (s : State) (pd : Buf) (tq tn : Word) (ws : List Word) (h : ws.length = tn.toNat) :
    PolyResult s (((s.store (.poly pd) ws).tag pd tq tn).complete 0) pd tq tn ∧
      ∀ i (hi : i < ws.length),
        (((s.store (.poly pd) ws).tag pd tq tn).complete 0).memRead (.poly pd) i = ws[i] := by
  have hread := fun i => State.memRead_store s (.poly pd) (.poly pd) ws i
  have hpd : (((s.store (.poly pd) ws).tag pd tq tn).complete 0).poly[pd] = s.poly[pd].withResult tq tn ws := by
    rw [State.complete_poly, State.tag_store_poly, getElem_vector_set, if_pos rfl]
  refine ⟨⟨?_, by rw [hpd]; rfl, by rw [hpd]; rfl, by rw [hpd]; rfl, fun i hi => ?_⟩, fun i hi => ?_⟩
  · rw [hpd, ← State.tag_store_poly]
    rfl
  · rw [State.memRead_complete, State.memRead_tag, hread, dif_neg]
    exact fun hin => Nat.not_lt.mpr (h ▸ hi) hin.2
  · rw [State.memRead_complete, State.memRead_tag, hread, dif_pos ⟨rfl, hi⟩]

theorem exec_pcopy (pd pa : Buf) (s : State) : exec (.pcopy pd pa) s =
    if s.poly[pa].valid = true then
      if s.poly[pa].tn.toNat ≤ s.cfg.nmax then
        .next (((s.store (.poly pd) (s.load (.poly pa) s.poly[pa].tn.toNat)).tag pd s.poly[pa].tq
          s.poly[pa].tn).complete 0)
      else .fault .noSuchWord
    else .next (faulted s .notInitialised) := by
  simp only [exec, execPcopy, needValid_bind, wordsExist_bind, commit_ite]
  rfl

/-- Settles O52: VALID is the only check, and the words stored are those loaded before. -/
theorem pcopyCopiesWordsAndTag : Obligations.PcopyCopiesWordsAndTag := by
  unfold Obligations.PcopyCopiesWordsAndTag
  intro pd pa s
  rw [exec_pcopy]
  refine ⟨fun hvalid hbound => ?_, fun hinvalid => ?_⟩
  · obtain ⟨hresult, hwords⟩ := polyResult_tag_store s pd s.poly[pa].tq s.poly[pa].tn
      (s.load (.poly pa) s.poly[pa].tn.toNat) (s.length_load _ _)
    rw [if_pos hvalid, if_pos hbound]
    refine ⟨_, rfl, hresult, rfl, fun i hi => ?_⟩
    rw [hwords i ((s.length_load _ _).symm ▸ hi), State.getElem_load]
  · rw [if_neg (by rw [hinvalid]; exact Bool.false_ne_true)]

/-! ## Results of the units (R228 to R232; 44_ntt_and_convolution.md) -/

/-- On sources that pass PolyCheck a command whose result the units compute completes with that result. -/
theorem exec_polyValues {s : State} {i : Instr} {pd : Buf} {vs : List Val} {srcs : List Buf}
    (hvs : s.polyValues i = some (pd, vs)) (hsrcs : i.polySources = some srcs) (hctx : s.ctxvalid = true)
    (hbound : s.n.toNat ≤ s.cfg.nmax) (hready : ∀ p ∈ srcs, PolyReady s p) :
    exec i s = .next ((s.putPolyVals pd vs).complete 0) :=
  exec_poly_puts hsrcs hctx hbound hready (by cases i <;> cases hvs <;> rfl)

/-- Where value k is the number f k for every k, the words of the result are these numbers and no free value is used. -/
theorem polyResult_of_defined {s : State} {vs : List Val} {f : Nat → Nat} (pd : Buf) (hlen : vs.length = s.n.toNat)
    (hval : ∀ k < s.n.toNat, entry vs k = some (f k)) (hlt : ∀ k < s.n.toNat, f k < 2 ^ 64) :
    PolyResult s ((s.putPolyVals pd vs).complete 0) pd s.q s.n ∧ ((s.putPolyVals pd vs).complete 0).free = s.free ∧
      ∀ k < s.n.toNat, ((s.putPolyVals pd vs).complete 0).coeff pd k = f k := by
  obtain ⟨hresult, hwords⟩ := polyResult_putPolyVals s pd vs hlen
  refine ⟨hresult, ?_, fun k hk => ?_⟩
  · rw [State.putPolyVals_eq]
    exact resolve_snd_of_defined s.free fun k hk => ⟨f k, hval k (hlen ▸ hk)⟩
  · rw [State.coeff, hwords k hk (f k) (hval k hk), BitVec.toNat_ofNat, Nat.mod_eq_of_lt (hlt k hk)]

@[simp] theorem length_coeffs (s : State) (p : Buf) : (s.coeffs p).length = s.n.toNat := by simp [State.coeffs]

section Words

variable {s : State} {k : Nat} (hk : k < s.n.toNat)
include hk

theorem entry_map_coeffs (f : Val → Val) (p : Buf) : entry ((s.coeffs p).map f) k = f (some (s.coeff p k)) :=
  entry_map_of_some (entry_load s (.poly p) hk)

theorem entry_zipWith_coeffs (f : Val → Val → Val) (p r : Buf) :
    entry (List.zipWith f (s.coeffs p) (s.coeffs r)) k = f (some (s.coeff p k)) (some (s.coeff r k)) := by
  simp [entry, State.coeffs, List.getD, hk, ofWord, State.coeff]

end Words

/-- A command that applies one unit to every pair of words, where that unit is defined on all of them. -/
theorem exec_zipWith_of_defined {s : State} {i : Instr} {pd pa pb : Buf} {f : Val → Val → Val} {g : Nat → Nat → Nat}
    (hvs : s.polyValues i = some (pd, List.zipWith f (s.coeffs pa) (s.coeffs pb)))
    (hsrcs : i.polySources = some [pa, pb]) (ha : PolyReady s pa) (hb : PolyReady s pb)
    (hval : ∀ k < s.n.toNat, f (some (s.coeff pa k)) (some (s.coeff pb k)) = some (g (s.coeff pa k) (s.coeff pb k)))
    (hlt : ∀ k < s.n.toNat, g (s.coeff pa k) (s.coeff pb k) < 2 ^ 64) :
    ∃ t, exec i s = .next t ∧ PolyResult s t pd s.q s.n ∧ t.free = s.free ∧
      ∀ k < s.n.toNat, t.coeff pd k = g (s.coeff pa k) (s.coeff pb k) :=
  ⟨_, exec_polyValues hvs hsrcs ha.context ha.bound (by simp [ha, hb]),
    polyResult_of_defined pd (by simp) (fun k hk => (entry_zipWith_coeffs hk f pa pb).trans (hval k hk)) hlt⟩

/-- The same for a unit of one operand. -/
theorem exec_map_of_defined {s : State} {i : Instr} {pd pa : Buf} {f : Val → Val} {g : Nat → Nat}
    (hvs : s.polyValues i = some (pd, (s.coeffs pa).map f)) (hsrcs : i.polySources = some [pa]) (ha : PolyReady s pa)
    (hval : ∀ k < s.n.toNat, f (some (s.coeff pa k)) = some (g (s.coeff pa k)))
    (hlt : ∀ k < s.n.toNat, g (s.coeff pa k) < 2 ^ 64) :
    ∃ t, exec i s = .next t ∧ PolyResult s t pd s.q s.n ∧ t.free = s.free ∧
      ∀ k < s.n.toNat, t.coeff pd k = g (s.coeff pa k) :=
  ⟨_, exec_polyValues hvs hsrcs ha.context ha.bound (by simp [ha]),
    polyResult_of_defined pd (by simp) (fun k hk => (entry_map_coeffs hk f pa).trans (hval k hk)) hlt⟩

/-- Settles O53: each unit on residues is a remainder modulo q, which fits a word. -/
theorem elementwiseSumsAreExact : Obligations.ElementwiseSumsAreExact := by
  unfold Obligations.ElementwiseSumsAreExact
  intro pd pa pb s ha hb hresa hresb
  have hlt : ∀ {k}, k < s.n.toNat → ∀ x, x % s.q.toNat < 2 ^ 64 := fun hk x =>
    (Nat.mod_lt x (Nat.zero_lt_of_lt (hresa _ hk))).trans s.q.isLt
  refine ⟨?_, ?_, ?_⟩
  · exact exec_zipWith_of_defined (g := fun a b => (a + b) % s.q.toNat) rfl rfl ha hb
      (fun k hk => by rw [vAdd_some (hresa k hk) (hresb k hk), modAdd_eq (hresa k hk) (hresb k hk)])
      fun k hk => hlt hk _
  · exact exec_zipWith_of_defined (g := fun a b => (a + (s.q.toNat - b)) % s.q.toNat) rfl rfl ha hb
      (fun k hk => by rw [vSub_some (hresa k hk) (hresb k hk), modSub_eq (hresa k hk) (hresb k hk)])
      fun k hk => hlt hk _
  · exact exec_map_of_defined (g := fun a => (s.q.toNat - a) % s.q.toNat) rfl rfl ha
      (fun k hk => by rw [vNeg_some (hresa k hk), modNeg_eq (hresa k hk)]) fun k hk => hlt hk _

/-! ## PMULPW (R231) -/

/-- One `BarrettMul` of residues is defined for every modulus with LOGQ ≥ 2. -/
theorem vBarrett_of_residues {d : Descriptor} (hk : 2 ≤ d.k) {a b : Nat} (ha : a < d.q) (hb : b < d.q) :
    vBarrett d (some a) (some b) = some (barrettMul d a b) := by
  simp only [vBarrett, if_neg hk.not_gt, residue_some ha, residue_some hb]

theorem trunc64_lt (v : Int) : trunc64 v < 2 ^ 64 := by
  unfold trunc64
  omega

/-- The value is narrowed to a word before the correction (R130). -/
theorem barrettMul_lt (d : Descriptor) (a b : Nat) : barrettMul d a b < 2 ^ 64 := by
  unfold barrettMul
  dsimp only
  split_ifs
  · exact (Nat.sub_le _ _).trans_lt (trunc64_lt _)
  · exact trunc64_lt _

theorem ContextOk.three_le {s : State} (h : ContextOk s) (hd : DescriptorOk s) : 3 ≤ s.q.toNat := by
  have two_le := hd.two_le
  have hodd := odd_of_congruent h.congruent
  omega

/-- Settles O54: a context's modulus has LOGQ ≥ 2, so the unit is defined on all residues. -/
theorem pmulpwIsOneBarrettPerWord : Obligations.PmulpwIsOneBarrettPerWord := by
  unfold Obligations.PmulpwIsOneBarrettPerWord
  intro pd pa pb s hinv ha hb hresa hresb
  have hc := hinv.context ha.context
  have hd := hinv.descriptor hc.modvalid
  have hlogq := hd.two_le_logq (hc.three_le hd)
  obtain ⟨t, hexec, hresult, hfree, hwords⟩ := exec_zipWith_of_defined (i := .pmulpw pd pa pb) (g := barrettMul s.desc)
    rfl rfl ha hb (fun k hk => vBarrett_of_residues hlogq (hresa k hk) (hresb k hk)) fun k _ => barrettMul_lt _ _ _
  refine ⟨t, hexec, hresult, hfree, fun k hk => ⟨hwords k hk, fun hsafe => ?_⟩⟩
  rw [hwords k hk, hd.desc_eq, barrettMul_eq_mod (hc.safeModulus hd hsafe) (hresa k hk) (hresb k hk)]

/-! ## Any words at all (U1) -/

/-- A command whose result the units compute completes with N values, whatever words its sources hold. -/
theorem exec_polyValues_completes {s : State} (hinv : Inv s) {i : Instr} {pd : Buf} {vs : List Val} {srcs : List Buf}
    (hvs : s.polyValues i = some (pd, vs)) (hsrcs : i.polySources = some srcs) (hctx : s.ctxvalid = true)
    (hready : ∀ p ∈ srcs, PolyReady s p) :
    ∃ t, exec i s = .next t ∧ PolyResult s t pd s.q s.n ∧ vs.length = s.n.toNat ∧
      ∀ k < s.n.toNat, Agrees (vs.getD k none) (t.memRead (.poly pd) k) := by
  have hc := hinv.context hctx
  have hlen := polyValues_length hc.degree hvs hsrcs
  obtain ⟨hresult, hwords⟩ := polyResult_putPolyVals s pd vs hlen
  exact ⟨_, exec_polyValues hvs hsrcs hctx hc.bound hready, hresult, hlen, hwords⟩

/-- Settles O55: each of the eleven commands is one whose result the units compute. -/
theorem polynomialCommandsCompleteOnAnyWords : Obligations.PolynomialCommandsCompleteOnAnyWords := by
  unfold Obligations.PolynomialCommandsCompleteOnAnyWords
  intro pd pa pb s hinv ha hb result
  have one : ∀ {i p vs}, s.polyValues i = some (p, vs) → i.polySources = some [pa] → result i p vs :=
    fun hvs hsrcs => exec_polyValues_completes hinv hvs hsrcs ha.context (by simp [ha])
  have two : ∀ {i p vs}, s.polyValues i = some (p, vs) → i.polySources = some [pa, pb] → result i p vs :=
    fun hvs hsrcs => exec_polyValues_completes hinv hvs hsrcs ha.context (by simp [ha, hb])
  exact ⟨two rfl rfl, two rfl rfl, one rfl rfl, two rfl rfl, one rfl rfl, one rfl rfl, one rfl rfl, one rfl rfl,
    two rfl rfl, two rfl rfl, two rfl rfl⟩

end Sys2Proof.Machine

/-! # The butterfly network over a ring (O56 to O60)

The levels of the two transforms as functions of an array c : Nat → R (44_ntt_and_convolution.md R252, R257), without values,
tables or fuel. An inverse level undoes the forward level with the same table words up to a factor 2, which gives both round
trips (R258); a forward level splits every group's polynomial modulo x^(2t) − r² into those modulo x^t − r and x^t + r, which
gives the values at the roots of x^N + 1 (R253). -/

namespace Sys2Proof.Machine

section Ring

variable {R : Type}

/-! ## One level -/

/-- The two words of a pair in group i become P i of them: words j and j + t of each group of 2t words (R254). -/
def butterflies (t : Nat) (P : Nat → R × R → R × R) (c : Nat → R) (x : Nat) : R :=
  if x % (2 * t) < t then (P (x / (2 * t)) (c x, c (x + t))).1 else (P (x / (2 * t)) (c (x - t), c x)).2

/-- Word y of group i. -/
theorem group_index {t y : Nat} (hy : y < 2 * t) (i : Nat) :
    (i * (2 * t) + y) / (2 * t) = i ∧ (i * (2 * t) + y) % (2 * t) = y := by
  rw [Nat.add_comm, Nat.add_mul_div_right _ _ (by omega), Nat.div_eq_of_lt hy, zero_add, Nat.add_mul_mod_self_right]
  exact ⟨rfl, Nat.mod_eq_of_lt hy⟩

theorem butterflies_low {t j : Nat} (hj : j < t) (P : Nat → R × R → R × R) (c : Nat → R) (i : Nat) :
    butterflies t P c (i * (2 * t) + j) = (P i (c (i * (2 * t) + j), c (i * (2 * t) + j + t))).1 := by
  obtain ⟨hdiv, hmod⟩ := group_index (show j < 2 * t by omega) i
  rw [butterflies, hdiv, hmod, if_pos hj]

theorem butterflies_high {t j : Nat} (hj : j < t) (P : Nat → R × R → R × R) (c : Nat → R) (i : Nat) :
    butterflies t P c (i * (2 * t) + j + t) = (P i (c (i * (2 * t) + j), c (i * (2 * t) + j + t))).2 := by
  obtain ⟨hdiv, hmod⟩ := group_index (show j + t < 2 * t by omega) i
  rw [← add_assoc] at hdiv hmod
  rw [butterflies, hdiv, hmod, if_neg (by omega), Nat.add_sub_cancel]

/-- Every index is the first or the second word of one pair. -/
theorem exists_pair_index {t : Nat} (ht : 0 < t) (x : Nat) :
    ∃ i j, j < t ∧ (x = i * (2 * t) + j ∨ x = i * (2 * t) + j + t) := by
  have hx := Nat.div_add_mod' x (2 * t)
  have hlt := Nat.mod_lt x (show 2 * t > 0 by omega)
  by_cases hlow : x % (2 * t) < t
  · exact ⟨_, _, hlow, .inl hx.symm⟩
  · exact ⟨x / (2 * t), x % (2 * t) - t, by omega, .inr (by omega)⟩

/-- Two levels with the same t work on the same pairs, so one level does both. -/
theorem butterflies_butterflies {t : Nat} (ht : 0 < t) (P Q : Nat → R × R → R × R) (c : Nat → R) :
    butterflies t P (butterflies t Q c) = butterflies t (fun i p => P i (Q i p)) c := by
  funext x
  obtain ⟨i, j, hj, rfl | rfl⟩ := exists_pair_index ht x
  · rw [butterflies_low hj, butterflies_low hj, butterflies_low hj, butterflies_high hj]
  · rw [butterflies_high hj, butterflies_low hj, butterflies_high hj, butterflies_high hj]

/-- The first group; `butterflies_rest` gives the groups after it. -/
theorem butterflies_first {t j : Nat} (hj : j < t) (P : Nat → R × R → R × R) (c : Nat → R) :
    butterflies t P c j = (P 0 (c j, c (t + j))).1 ∧ butterflies t P c (t + j) = (P 0 (c j, c (t + j))).2 := by
  have hlow := butterflies_low hj P c 0
  have hhigh := butterflies_high hj P c 0
  simp only [zero_mul, zero_add, Nat.add_comm j t] at hlow hhigh
  exact ⟨hlow, hhigh⟩

theorem butterflies_rest {t : Nat} (ht : 0 < t) (P : Nat → R × R → R × R) (c : Nat → R) (x : Nat) :
    butterflies t P c (2 * t + x) = butterflies t (fun i => P (i + 1)) (fun y => c (2 * t + y)) x := by
  have hnext : ∀ i y, 2 * t + (i * (2 * t) + y) = (i + 1) * (2 * t) + y := fun i y => by ring
  obtain ⟨i, j, hj, rfl | rfl⟩ := exists_pair_index ht x
  · rw [hnext, butterflies_low hj, butterflies_low hj, ← hnext, add_assoc (2 * t) _ t]
  · rw [← add_assoc, hnext, butterflies_high hj, butterflies_high hj, ← hnext, add_assoc (2 * t) _ t]

variable [CommRing R]

/-- Multiply the second word, then combine (R252). -/
def forwardPair (w : R) (p : R × R) : R × R := (p.1 + p.2 * w, p.1 - p.2 * w)

/-- Combine, then multiply the difference (R257). -/
def inversePair (w : R) (p : R × R) : R × R := (p.1 + p.2, (p.1 - p.2) * w)

theorem butterflies_smul (t : Nat) {P : Nat → R × R → R × R} (hP : ∀ i (a : R) p, P i (a • p) = a • P i p) (a : R)
    (c : Nat → R) : butterflies t P (a • c) = a • butterflies t P c := by
  funext x
  simp only [butterflies, Pi.smul_apply, ← Prod.smul_mk, hP, Prod.smul_fst, Prod.smul_snd, smul_ite]

/-- The level that multiplies every word by a. -/
theorem butterflies_scale {t : Nat} (ht : 0 < t) (a : R) (c : Nat → R) : butterflies t (fun _ p => a • p) c = a • c := by
  funext x
  obtain ⟨i, j, hj, rfl | rfl⟩ := exists_pair_index ht x
  · exact butterflies_low hj ..
  · exact butterflies_high hj ..

theorem forwardPair_smul (w a : R) (p : R × R) : forwardPair w (a • p) = a • forwardPair w p := by
  ext <;> simp only [forwardPair, Prod.smul_fst, Prod.smul_snd, smul_eq_mul] <;> ring

theorem inversePair_smul (w a : R) (p : R × R) : inversePair w (a • p) = a • inversePair w p := by
  ext <;> simp only [inversePair, Prod.smul_fst, Prod.smul_snd, smul_eq_mul] <;> ring

theorem inversePair_forwardPair {v w : R} (h : v * w = 1) (p : R × R) : inversePair v (forwardPair w p) = (2 : R) • p := by
  ext
  · simp only [inversePair, forwardPair, Prod.smul_fst, smul_eq_mul]
    ring
  · simp only [inversePair, forwardPair, Prod.smul_snd, smul_eq_mul]
    linear_combination 2 * p.2 * h

theorem forwardPair_inversePair {v w : R} (h : v * w = 1) (p : R × R) : forwardPair w (inversePair v p) = (2 : R) • p := by
  ext
  · simp only [inversePair, forwardPair, Prod.smul_fst, smul_eq_mul]
    linear_combination (p.1 - p.2) * h
  · simp only [inversePair, forwardPair, Prod.smul_snd, smul_eq_mul]
    linear_combination (p.2 - p.1) * h

/-! ## The levels

Level l of a transform of 2^w words has 2^l groups of 2·2^(w−l−1) words, group i with table word 2^l + i. -/

/-- Level l of the forward transform, on the table W. -/
def forwardStep (w : Nat) (W : Nat → R) (l : Nat) (c : Nat → R) : Nat → R :=
  butterflies (2 ^ (w - l - 1)) (fun i => forwardPair (W (2 ^ l + i))) c

/-- Level l of the inverse transform, on the table V. -/
def inverseStep (w : Nat) (V : Nat → R) (l : Nat) (c : Nat → R) : Nat → R :=
  butterflies (2 ^ (w - l - 1)) (fun i => inversePair (V (2 ^ l + i))) c

/-- Levels 0 to l − 1 of the forward transform, in this order. -/
def forwardSteps (w : Nat) (W : Nat → R) : (l : Nat) → (Nat → R) → Nat → R
  | 0, c => c
  | l + 1, c => forwardStep w W l (forwardSteps w W l c)

/-- Levels l − 1 down to 0 of the inverse transform. -/
def inverseSteps (w : Nat) (V : Nat → R) : (l : Nat) → (Nat → R) → Nat → R
  | 0, c => c
  | l + 1, c => inverseSteps w V l (inverseStep w V l c)

theorem forwardStep_smul (w : Nat) (W : Nat → R) (l : Nat) (a : R) (c : Nat → R) :
    forwardStep w W l (a • c) = a • forwardStep w W l c := butterflies_smul _ (fun _ => forwardPair_smul _) a c

theorem forwardSteps_smul (w : Nat) (W : Nat → R) (l : Nat) (a : R) (c : Nat → R) :
    forwardSteps w W l (a • c) = a • forwardSteps w W l c := by
  induction l with
  | zero => rfl
  | succ l ih => rw [forwardSteps, ih, forwardStep_smul, forwardSteps]

theorem inverseStep_smul (w : Nat) (V : Nat → R) (l : Nat) (a : R) (c : Nat → R) :
    inverseStep w V l (a • c) = a • inverseStep w V l c := butterflies_smul _ (fun _ => inversePair_smul _) a c

theorem inverseSteps_smul (w : Nat) (V : Nat → R) (l : Nat) (a : R) : ∀ c : Nat → R,
    inverseSteps w V l (a • c) = a • inverseSteps w V l c := by
  induction l with
  | zero => exact fun _ => rfl
  | succ l ih =>
    intro c
    rw [inverseSteps, inverseStep_smul, ih, inverseSteps]

section RoundTrip

variable {W V : Nat → R} (hinv : ∀ k, V k * W k = 1)
include hinv

theorem inverseStep_forwardStep (w l : Nat) (c : Nat → R) : inverseStep w V l (forwardStep w W l c) = (2 : R) • c := by
  rw [inverseStep, forwardStep, butterflies_butterflies (by positivity)]
  simp only [inversePair_forwardPair (hinv _)]
  exact butterflies_scale (by positivity) 2 c

theorem forwardStep_inverseStep (w l : Nat) (c : Nat → R) : forwardStep w W l (inverseStep w V l c) = (2 : R) • c := by
  rw [inverseStep, forwardStep, butterflies_butterflies (by positivity)]
  simp only [forwardPair_inversePair (hinv _)]
  exact butterflies_scale (by positivity) 2 c

/-- The inverse level with the table words of a forward level undoes it up to the factor 2 (R257). -/
theorem inverseSteps_forwardSteps (w l : Nat) (c : Nat → R) :
    inverseSteps w V l (forwardSteps w W l c) = (2 ^ l : R) • c := by
  induction l with
  | zero => simp [inverseSteps, forwardSteps]
  | succ l ih =>
    rw [inverseSteps, forwardSteps, inverseStep_forwardStep hinv, inverseSteps_smul, ih, smul_smul, pow_succ']

theorem forwardSteps_inverseSteps (w l : Nat) : ∀ c : Nat → R,
    forwardSteps w W l (inverseSteps w V l c) = (2 ^ l : R) • c := by
  induction l with
  | zero => simp [inverseSteps, forwardSteps]
  | succ l ih =>
    intro c
    rw [inverseSteps, forwardSteps, ih, forwardStep_smul, forwardStep_inverseStep hinv, smul_smul, pow_succ]

end RoundTrip

/-! ## The value of the forward transform (R253) -/

/-- The exponent of the twiddle factor of group i at level l, which pairs words 2^d apart (R252). -/
theorem bitRev_two_pow_add (d l : Nat) : ∀ {i : Nat}, i < 2 ^ l →
    bitRev (2 ^ l + i) (l + d + 1) = 2 ^ d * (2 * bitRev i l + 1) := by
  induction l with
  | zero =>
    intro i hi
    obtain rfl : i = 0 := by simpa using hi
    simp [bitRev, bitRev_zero]
  | succ l ih =>
    intro i hi
    have hbit : (2 ^ (l + 1) + i) % 2 = i % 2 := by omega
    have hrest : (2 ^ (l + 1) + i) / 2 = 2 ^ l + i / 2 := by omega
    rw [bitRev, hbit, hrest, show l + 1 + d = l + d + 1 by omega, ih (by omega), bitRev]
    ring

/-- The table of the powers of g in bit-reversed order (42_transform_context.md R196). -/
def bitRevPowers (w : Nat) (g : R) (k : Nat) : R := g ^ bitRev k w

/-- The polynomial of a group of 2t words, pair by pair. -/
theorem sum_group (c : Nat → R) (t i : Nat) (y : R) : ∑ j ∈ Finset.range (2 * t), c (i * (2 * t) + j) * y ^ j =
    ∑ j ∈ Finset.range t, (c (i * (2 * t) + j) + c (i * (2 * t) + j + t) * y ^ t) * y ^ j := by
  have hsplit := Finset.sum_range_add (fun j => c (i * (2 * t) + j) * y ^ j) t t
  rw [← two_mul, ← Finset.sum_add_distrib] at hsplit
  refine hsplit.trans (Finset.sum_congr rfl fun j _ => ?_)
  rw [Nat.add_comm t j, ← add_assoc]
  ring

/-- After l levels group i is the polynomial c modulo x^(2^d) − r^(2^d) with r = g^(2·BitRev(i) + 1): they agree at every y
with y^(2^d) = r^(2^d). -/
theorem sum_forwardSteps {w : Nat} {g : R} (hg : g ^ 2 ^ w = -1) (c : Nat → R) (l : Nat) : ∀ {d i : Nat} {y : R},
    w = l + d → i < 2 ^ l → y ^ 2 ^ d = (g ^ (2 * bitRev i l + 1)) ^ 2 ^ d →
    ∑ j ∈ Finset.range (2 ^ d), forwardSteps w (bitRevPowers w g) l c (i * 2 ^ d + j) * y ^ j =
      ∑ j ∈ Finset.range (2 ^ w), c j * y ^ j := by
  induction l with
  | zero =>
    intro d i y hw hi _
    obtain rfl : i = 0 := by simpa using hi
    obtain rfl : w = d := by simpa using hw
    simp [forwardSteps]
  | succ l ih =>
    intro d i y hw hi hy
    have hhalf : i / 2 < 2 ^ l := by omega
    have htwiddle : bitRevPowers w g (2 ^ l + i / 2) = (g ^ (2 * bitRev (i / 2) l + 1)) ^ 2 ^ d := by
      rw [bitRevPowers, show w = l + d + 1 by omega, bitRev_two_pow_add d l hhalf, ← pow_mul, mul_comm]
    have hsign : y ^ 2 ^ d = (-1) ^ (i % 2) * bitRevPowers w g (2 ^ l + i / 2) := by
      rw [hy, htwiddle, ← hg, bitRev, hw]
      simp only [← pow_mul, ← pow_add]
      congr 1
      ring
    have hsquare : y ^ 2 ^ (d + 1) = (g ^ (2 * bitRev (i / 2) l + 1)) ^ 2 ^ (d + 1) := by
      rw [pow_succ 2 d, pow_mul, pow_mul, hsign, htwiddle, mul_pow, ← pow_mul, mul_comm (i % 2), pow_mul, neg_one_sq,
        one_pow, one_mul]
    rw [← ih (by omega) hhalf hsquare, pow_succ' 2 d, sum_group]
    refine Finset.sum_congr rfl fun j hj => ?_
    have hj := Finset.mem_range.mp hj
    have hstep : w - l - 1 = d := by omega
    rw [forwardSteps, forwardStep, hstep, hsign]
    obtain heven | hodd := Nat.mod_two_eq_zero_or_one i
    · have hfirst : i * 2 ^ d + j = i / 2 * (2 * 2 ^ d) + j := by
        rw [← mul_assoc, Nat.div_mul_cancel (Nat.dvd_of_mod_eq_zero heven)]
      rw [hfirst, butterflies_low hj, heven, forwardPair]
      ring
    · have hsecond : i * 2 ^ d + j = i / 2 * (2 * 2 ^ d) + j + 2 ^ d := by
        conv_lhs => rw [← Nat.div_add_mod' i 2, hodd]
        ring
      rw [hsecond, butterflies_high hj, hodd, forwardPair]
      ring

/-! ## The transforms (R252, R257) -/

/-- A root of x^N + 1 for N = 2^w, its inverse, and the inverse of N (42_transform_context.md R197, R200). -/
structure NegacyclicRoot (w : Nat) (g h ninv : R) : Prop where
  root : g ^ 2 ^ w = -1
  inverse : h * g = 1
  degree : ninv * 2 ^ w = 1

/-- All levels forward. -/
def forwardTransform (w : Nat) (g : R) (c : Nat → R) : Nat → R := forwardSteps w (bitRevPowers w g) w c

/-- All levels back, then the scaling by N⁻¹. -/
def inverseTransform (w : Nat) (h ninv : R) (c : Nat → R) : Nat → R := ninv • inverseSteps w (bitRevPowers w h) w c

section Transform

variable {w : Nat} {g h ninv : R} (hg : NegacyclicRoot w g h ninv)
include hg

theorem NegacyclicRoot.bitRevPowers_mul (k : Nat) : bitRevPowers w h k * bitRevPowers w g k = 1 := by
  rw [bitRevPowers, bitRevPowers, ← mul_pow, hg.inverse, one_pow]

/-- The round trip of R258. -/
theorem inverseTransform_forwardTransform (c : Nat → R) : inverseTransform w h ninv (forwardTransform w g c) = c := by
  rw [inverseTransform, forwardTransform, inverseSteps_forwardSteps hg.bitRevPowers_mul, smul_smul, hg.degree, one_smul]

theorem forwardTransform_inverseTransform (c : Nat → R) : forwardTransform w g (inverseTransform w h ninv c) = c := by
  rw [inverseTransform, forwardTransform, forwardSteps_smul, forwardSteps_inverseSteps hg.bitRevPowers_mul, smul_smul, hg.degree,
    one_smul]

/-- Word k of the forward transform is the value at g^(2·BitRev(k) + 1) (R253). -/
theorem forwardTransform_eq_sum (c : Nat → R) {k : Nat} (hk : k < 2 ^ w) :
    forwardTransform w g c k = ∑ j ∈ Finset.range (2 ^ w), c j * (g ^ (2 * bitRev k w + 1)) ^ j := by
  simpa [forwardTransform] using sum_forwardSteps hg.root c w (d := 0) rfl hk rfl

end Transform

/-! ## The negacyclic product (R264) -/

/-- Term j of the sum for word i. -/
def negacyclicTerm (n : Nat) (a b : Nat → R) (i j : Nat) : R :=
  if j ≤ i then a j * b (i - j) else -(a j * b (n + i - j))

/-- The coefficients of a·b modulo x^n + 1. -/
def negacyclic (n : Nat) (a b : Nat → R) (i : Nat) : R := ∑ j ∈ Finset.range n, negacyclicTerm n a b i j

/-- Multiplying by x^j shifts the coefficients, those that leave at the top coming in below with the sign changed. -/
theorem sum_negacyclicTerm {n : Nat} {y : R} (hy : y ^ n = -1) (a b : Nat → R) {j : Nat} (hj : j < n) :
    ∑ i ∈ Finset.range n, negacyclicTerm n a b i j * y ^ i = a j * y ^ j * ∑ k ∈ Finset.range n, b k * y ^ k := by
  obtain ⟨d, rfl⟩ := Nat.exists_eq_add_of_le hj.le
  have hkept : ∀ k, negacyclicTerm (j + d) a b (j + k) j * y ^ (j + k) = a j * y ^ j * (b k * y ^ k) := fun k => by
    rw [negacyclicTerm, if_pos (by omega), Nat.add_sub_cancel_left]
    ring
  have hwrapped : ∀ i < j, negacyclicTerm (j + d) a b i j * y ^ i = a j * y ^ j * (b (d + i) * y ^ (d + i)) := fun i hi => by
    rw [negacyclicTerm, if_neg (by omega), show j + d + i - j = d + i by omega]
    linear_combination -(a j * b (d + i) * y ^ i) * hy
  rw [Finset.sum_range_add, Nat.add_comm j d, Finset.sum_range_add, Nat.add_comm d j, mul_add, Finset.mul_sum, Finset.mul_sum,
    add_comm]
  exact congr_arg₂ (· + ·) (Finset.sum_congr rfl fun k _ => hkept k)
    (Finset.sum_congr rfl fun i hi => hwrapped i (Finset.mem_range.mp hi))

/-- At a root of x^n + 1 the product's value is the product of the values. -/
theorem sum_negacyclic {n : Nat} {y : R} (hy : y ^ n = -1) (a b : Nat → R) :
    ∑ i ∈ Finset.range n, negacyclic n a b i * y ^ i =
      (∑ j ∈ Finset.range n, a j * y ^ j) * ∑ k ∈ Finset.range n, b k * y ^ k := by
  simp only [negacyclic, Finset.sum_mul]
  rw [Finset.sum_comm]
  exact Finset.sum_congr rfl fun j hj => sum_negacyclicTerm hy a b (Finset.mem_range.mp hj)

/-- Every odd power of g is a root of x^N + 1. -/
theorem odd_pow_pow {n : Nat} {g : R} (hg : g ^ n = -1) (k : Nat) : (g ^ (2 * k + 1)) ^ n = -1 := by
  rw [← pow_mul, mul_comm, pow_mul, hg, pow_succ, pow_mul, neg_one_sq, one_pow, one_mul]

/-- The transform takes the negacyclic product to the pointwise one (R271). -/
theorem forwardTransform_negacyclic {w k : Nat} {g h ninv : R} (hg : NegacyclicRoot w g h ninv) (a b : Nat → R)
    (hk : k < 2 ^ w) : forwardTransform w g (negacyclic (2 ^ w) a b) k =
      forwardTransform w g a k * forwardTransform w g b k := by
  simp only [forwardTransform_eq_sum hg _ hk]
  exact sum_negacyclic (odd_pow_pow hg.root _) a b

end Ring

end Sys2Proof.Machine

/-! # The networks of the model compute in Z_q (O56 to O60)

On lists of residues each unit is an operation of Z_q, each level of `forwardLoop` and `inverseLoop` a level of the network
over Z_q, and both convolutions the negacyclic product. -/

namespace Sys2Proof.Machine

/-! ## Lists of residues -/

/-- The values of the n residues f 0, …, f (n − 1). -/
def residueVals {q : Nat} (n : Nat) (f : Nat → ZMod q) : List Val := (List.range n).map fun k => some (f k).val

section Residues

variable {q : Nat} {n m : Nat} {f g : Nat → ZMod q}

@[simp] theorem length_residueVals : (residueVals n f).length = n := by simp [residueVals]

theorem entry_residueVals {k : Nat} (hk : k < n) : entry (residueVals n f) k = some (f k).val := by
  simp [residueVals, entry, List.getD, hk]

theorem residueVals_congr (h : ∀ k < n, f k = g k) : residueVals n f = residueVals n g :=
  List.map_congr_left fun k hk => by rw [h k (List.mem_range.mp hk)]

theorem residueVals_add : residueVals (m + n) f = residueVals m f ++ residueVals n fun k => f (m + k) := by
  simp [residueVals, List.range_add]

@[simp] theorem take_residueVals : (residueVals (m + n) f).take m = residueVals m f := by
  rw [residueVals_add, List.take_left' length_residueVals]

@[simp] theorem drop_residueVals : (residueVals (m + n) f).drop m = residueVals n fun k => f (m + k) := by
  rw [residueVals_add, List.drop_left' length_residueVals]

/-- A unit that computes op on residues computes it word by word. -/
theorem zipWith_residueVals {unit : Val → Val → Val} {op : ZMod q → ZMod q → ZMod q}
    (h : ∀ x y : ZMod q, unit (some x.val) (some y.val) = some (op x y).val) :
    List.zipWith unit (residueVals n f) (residueVals n g) = residueVals n fun k => op (f k) (g k) := by
  simp [residueVals, List.zipWith_map, List.zipWith_self, h]

theorem map_residueVals {unit : Val → Val} {op : ZMod q → ZMod q} (h : ∀ x : ZMod q, unit (some x.val) = some (op x).val) :
    (residueVals n f).map unit = residueVals n fun k => op (f k) := by
  simp [residueVals, h]

end Residues

/-! ## The units are the operations of Z_q (40_modular_arithmetic.md R125, R126, R133, R146) -/

section Units

variable {q : Nat} [NeZero q]

theorem vAdd_val (x y : ZMod q) : vAdd q (some x.val) (some y.val) = some (x + y).val := by
  rw [vAdd_some x.val_lt y.val_lt, modAdd_eq x.val_lt y.val_lt, ZMod.val_add]

theorem vSub_val (x y : ZMod q) : vSub q (some x.val) (some y.val) = some (x - y).val := by
  have hcast : x - y = ((x.val + (q - y.val) : Nat) : ZMod q) := by
    rw [Nat.cast_add, Nat.cast_sub y.val_lt.le, ZMod.natCast_self]
    simp [sub_eq_add_neg]
  rw [vSub_some x.val_lt y.val_lt, modSub_eq x.val_lt y.val_lt, hcast, ZMod.val_natCast]

theorem vMul_val (hq : SafeModulus q) (x y : ZMod q) :
    vMul (makeDescriptor q) (some x.val) (some y.val) = some (x * y).val := by
  rw [vMul_some hq x.val_lt y.val_lt, ZMod.val_mul]

/-- A butterfly's product in this mode is exact: always with Shoup words, with `BarrettMul` under BarrettSafe (R251). -/
def ExactMode (mode : Mode) (q : Nat) : Prop := mode = .shoup ∨ SafeModulus q

theorem twMul_val {mode : Mode} (hmode : ExactMode mode q) (hq : q < two63) (x : ZMod q) {b : Nat} (hb : b < q) :
    twMul mode (makeDescriptor q) (some x.val) (some b) (some (shoupPre q b)) = some (x * (b : ZMod q)).val := by
  rw [ZMod.val_mul, ZMod.val_natCast, Nat.mod_eq_of_lt hb]
  obtain rfl | hsafe := hmode
  · exact vMulShoup_some hq x.val_lt hb
  · exact twMul_some mode hsafe x.val_lt hb

end Units

/-! ## The networks -/

/-- A context of 2^w words on which the transforms of this mode compute in Z_q: the tables hold the powers of g and h in
bit-reversed order, and every product with a word of the context is exact. -/
structure ExactContext (mode : Mode) (c : Ctx) {q : Nat} (w : Nat) (g h ninv : ZMod q) : Prop where
  modulus : c.d.q = q
  degree : c.n = 2 ^ w
  levels : w ≤ 64
  forward : ∀ k < c.n, ∀ x : ZMod q,
    twMul mode c.d (some x.val) (entry c.tf k) (entry c.tfShoup k) = some (x * bitRevPowers w g k).val
  inverse : ∀ k < c.n, ∀ x : ZMod q,
    twMul mode c.d (some x.val) (entry c.itf k) (entry c.itfShoup k) = some (x * bitRevPowers w h k).val
  scale : ∀ x : ZMod q, twMul mode c.d (some x.val) c.invN c.invNShoup = some (x * ninv).val

/-- One level: where the group with table word k makes the pairs P k, the groups together are the level. -/
theorem level_residueVals {q t n : Nat} (ht : 0 < t) {group : Nat → List Val → List Val}
    {level : Nat → Nat → List Val → List Val} {P : Nat → ZMod q × ZMod q → ZMod q × ZMod q}
    (hnil : ∀ k a, level 0 k a = a)
    (hcons : ∀ m k a, level (m + 1) k a = group k (a.take (2 * t)) ++ level m (k + 1) (a.drop (2 * t)))
    (hgroup : ∀ k < n, ∀ f, group k (residueVals (2 * t) f) =
      residueVals t (fun j => (P k (f j, f (t + j))).1) ++ residueVals t fun j => (P k (f j, f (t + j))).2) (m : Nat) :
    ∀ (k : Nat) (f : Nat → ZMod q), k + m ≤ n →
      level m k (residueVals (2 * t * m) f) = residueVals (2 * t * m) (butterflies t (fun i => P (k + i)) f) := by
  induction m with
  | zero => exact fun k f _ => hnil k _
  | succ m ih =>
    intro k f hk
    have hfirst : group k (residueVals (2 * t) f) = residueVals (2 * t) (butterflies t (fun i => P (k + i)) f) := by
      rw [hgroup k (by omega), two_mul, residueVals_add]
      exact congr_arg₂ (· ++ ·) (residueVals_congr fun j hj => (butterflies_first hj (fun i => P (k + i)) f).1.symm)
        (residueVals_congr fun j hj => (butterflies_first hj (fun i => P (k + i)) f).2.symm)
    have hrest := residueVals_congr (n := 2 * t * m) fun x _ => butterflies_rest ht (fun i => P (k + i)) f x
    simp only [← Nat.add_assoc, Nat.add_right_comm k _ 1] at hrest
    rw [show 2 * t * (m + 1) = 2 * t + 2 * t * m by ring, hcons, take_residueVals, drop_residueVals, hfirst,
      ih (k + 1) _ (by omega), residueVals_add, hrest]

section Networks

variable {mode : Mode} {c : Ctx} {q w : Nat} [NeZero q] {g h ninv : ZMod q} (hc : ExactContext mode c w g h ninv)
include hc

theorem forwardGroup_residueVals (t : Nat) {k : Nat} (hk : k < c.n) (f : Nat → ZMod q) :
    forwardGroup mode c.d (entry c.tf k) (entry c.tfShoup k) t (residueVals (2 * t) f) =
      residueVals t (fun j => (forwardPair (bitRevPowers w g k) (f j, f (t + j))).1) ++
        residueVals t fun j => (forwardPair (bitRevPowers w g k) (f j, f (t + j))).2 := by
  have hmap := fun f => map_residueVals (n := t) (f := f) (unit := fun x => twMul mode c.d x _ _)
    (op := fun x => x * bitRevPowers w g k) (hc.forward k hk)
  simp only [two_mul, forwardGroup, take_residueVals, drop_residueVals, hc.modulus, hmap, zipWith_residueVals vAdd_val,
    zipWith_residueVals vSub_val, forwardPair]

theorem inverseGroup_residueVals (t : Nat) {k : Nat} (hk : k < c.n) (f : Nat → ZMod q) :
    inverseGroup mode c.d (entry c.itf k) (entry c.itfShoup k) t (residueVals (2 * t) f) =
      residueVals t (fun j => (inversePair (bitRevPowers w h k) (f j, f (t + j))).1) ++
        residueVals t fun j => (inversePair (bitRevPowers w h k) (f j, f (t + j))).2 := by
  have hmap := fun f => map_residueVals (n := t) (f := f) (unit := fun x => twMul mode c.d x _ _)
    (op := fun x => x * bitRevPowers w h k) (hc.inverse k hk)
  simp only [two_mul, inverseGroup, take_residueVals, drop_residueVals, hc.modulus, hmap, zipWith_residueVals vAdd_val,
    zipWith_residueVals vSub_val, inversePair]

/-- Level l of the model (R252) is level l of the network. -/
theorem forwardLevel_residueVals {d l : Nat} (hw : w = d + l + 1) (f : Nat → ZMod q) :
    forwardLevel mode c (2 ^ d) (2 ^ l) (2 ^ l) (residueVals c.n f) =
      residueVals c.n (forwardStep w (bitRevPowers w g) l f) := by
  obtain ⟨hwords, hbound⟩ := level_words (hw ▸ hc.degree)
  have hlevel := level_residueVals (level := forwardLevel mode c (2 ^ d)) (by positivity) (fun _ _ => rfl)
    (fun _ _ _ => rfl) (fun k hk => forwardGroup_residueVals hc _ hk) (2 ^ l) (2 ^ l) f hbound
  rwa [forwardStep, show w - l - 1 = d by omega, hwords]

theorem inverseLevel_residueVals {d l : Nat} (hw : w = d + l + 1) (f : Nat → ZMod q) :
    inverseLevel mode c (2 ^ d) (2 ^ l) (2 ^ l) (residueVals c.n f) =
      residueVals c.n (inverseStep w (bitRevPowers w h) l f) := by
  obtain ⟨hwords, hbound⟩ := level_words (hw ▸ hc.degree)
  have hlevel := level_residueVals (level := inverseLevel mode c (2 ^ d)) (by positivity) (fun _ _ => rfl)
    (fun _ _ _ => rfl) (fun k hk => inverseGroup_residueVals hc _ hk) (2 ^ l) (2 ^ l) f hbound
  rwa [inverseStep, show w - l - 1 = d by omega, hwords]

/-- The loop from level l on, with d levels to go and fuel for them. -/
theorem forwardLoop_residueVals (f : Nat → ZMod q) (d : Nat) : ∀ {fuel l : Nat}, w = d + l → d ≤ fuel →
    forwardLoop mode c fuel (2 ^ d) (2 ^ l) (residueVals c.n (forwardSteps w (bitRevPowers w g) l f)) =
      residueVals c.n (forwardTransform w g f) := by
  induction d with
  | zero =>
    intro fuel l hw _
    obtain rfl : w = l := by omega
    cases fuel <;> simp [forwardLoop, hc.degree, forwardTransform]
  | succ d ih =>
    intro fuel l hw hfuel
    obtain ⟨fuel, rfl⟩ := Nat.exists_eq_add_of_lt hfuel
    have hlt : 2 ^ l < c.n := hc.degree ▸ Nat.pow_lt_pow_right one_lt_two (by omega)
    rw [forwardLoop, if_pos hlt, show 2 ^ (d + 1) / 2 = 2 ^ d by simp [pow_succ], ← pow_succ' 2 l,
      forwardLevel_residueVals hc (by omega)]
    exact ih (l := l + 1) (by omega) (by omega)

/-- The loop with levels l − 1 to 0 to go and fuel for them. -/
theorem inverseLoop_residueVals (l : Nat) : ∀ {fuel d : Nat} (f : Nat → ZMod q), w = d + l → l ≤ fuel →
    inverseLoop mode c fuel (2 ^ d) (2 ^ l) (residueVals c.n f) =
      residueVals c.n (inverseSteps w (bitRevPowers w h) l f) := by
  induction l with
  | zero =>
    intro fuel d f _ _
    cases fuel <;> simp [inverseLoop, inverseSteps]
  | succ l ih =>
    intro fuel d f hw hfuel
    obtain ⟨fuel, rfl⟩ := Nat.exists_eq_add_of_lt hfuel
    rw [inverseLoop, if_pos (Nat.one_lt_two_pow (by omega)), show 2 ^ (l + 1) / 2 = 2 ^ l by simp [pow_succ],
      ← pow_succ' 2 d, inverseLevel_residueVals hc (by omega)]
    exact ih (d := d + 1) _ (by omega) (by omega)

theorem nttForward_residueVals (f : Nat → ZMod q) :
    nttForward mode c (residueVals c.n f) = residueVals c.n (forwardTransform w g f) := by
  have := forwardLoop_residueVals hc f w (l := 0) rfl hc.levels
  rwa [← hc.degree] at this

theorem nttInverse_residueVals (f : Nat → ZMod q) :
    nttInverse mode c (residueVals c.n f) = residueVals c.n (inverseTransform w h ninv f) := by
  have hloop := inverseLoop_residueVals hc w (fuel := 64) (d := 0) f (by omega) hc.levels
  have hscale : ∀ x : ZMod q, residue c.d.q (twMul mode c.d (some x.val) c.invN c.invNShoup) = some (ninv * x).val :=
    fun x => by rw [hc.scale, hc.modulus, residue_some (ZMod.val_lt _), mul_comm]
  rw [pow_zero, ← hc.degree] at hloop
  rw [nttInverse, hloop, map_residueVals hscale]
  rfl

/-- The fast convolution is the negacyclic product (R267, R271). -/
theorem fastConv_residueVals (hg : NegacyclicRoot w g h ninv) (hd : c.d = makeDescriptor q) (hsafe : SafeModulus q)
    (a b : Nat → ZMod q) :
    fastConv mode c (residueVals c.n a) (residueVals c.n b) = residueVals c.n (negacyclic c.n a b) := by
  have hpoint : ∀ k < c.n, forwardTransform w g a k * forwardTransform w g b k =
      forwardTransform w g (negacyclic c.n a b) k := fun k hk => by
    rw [hc.degree] at hk ⊢
    exact (forwardTransform_negacyclic hg a b hk).symm
  rw [fastConv, nttForward_residueVals hc, nttForward_residueVals hc, hd, zipWith_residueVals (vMul_val hsafe),
    residueVals_congr hpoint, nttInverse_residueVals hc, inverseTransform_forwardTransform hg]

end Networks

section Naive

variable {q : Nat} [NeZero q] (hsafe : SafeModulus q) {n : Nat} (a b : Nat → ZMod q)
include hsafe

/-- The accumulator after `count` terms is their sum. -/
theorem naiveAcc_residueVals {i : Nat} (hi : i < n) (count : Nat) : count ≤ n →
    naiveAcc (makeDescriptor q) n (residueVals n a) (residueVals n b) i count =
      some (∑ j ∈ Finset.range count, negacyclicTerm n a b i j).val := by
  induction count with
  | zero => simp [naiveAcc]
  | succ j ih =>
    intro hj
    rw [naiveAcc, ih (by omega), Finset.sum_range_succ, negacyclicTerm, makeDescriptor_q,
      entry_residueVals (show j < n by omega)]
    split
    · rw [entry_residueVals (by omega), vMul_val hsafe, vAdd_val]
    · rw [entry_residueVals (by omega), vMul_val hsafe, vSub_val, sub_eq_add_neg]

theorem naiveConv_residueVals {c : Ctx} (hd : c.d = makeDescriptor q) :
    naiveConv c (residueVals c.n a) (residueVals c.n b) = residueVals c.n (negacyclic c.n a b) := by
  rw [naiveConv, hd]
  exact List.map_congr_left fun i hi => naiveAcc_residueVals hsafe a b (List.mem_range.mp hi) c.n le_rfl

end Naive

end Sys2Proof.Machine

/-! # Transforms and convolutions (O56 to O60)

A state with canonical tables that are the powers of a root is a context on which the networks compute in Z_q
(`exactContext`); each statement is then a fact about the network over a ring. -/

namespace Sys2Proof.Machine

/-! ## The context of a state -/

theorem natCast_eq_one_of_mod {q x : Nat} (h : x % q = 1) : (x : ZMod q) = 1 := by
  rw [← ZMod.natCast_mod, h, Nat.cast_one]

section Context

variable {s : State} (hc : ContextOk s) {g : Nat} (hp : TablesArePowers s g)
include hc hp

/-- The root the tables are made of is invertible, and INV_N inverts N. -/
theorem exists_negacyclicRoot :
    ∃ h : ZMod s.q.toNat, NegacyclicRoot s.logn.toNat (g : ZMod s.q.toNat) h (s.invN.toNat : ZMod s.q.toNat) := by
  have hroot : (g : ZMod s.q.toNat) ^ 2 ^ s.logn.toNat = -1 := by
    rw [← Nat.cast_pow, ← hc.degree, ← ZMod.natCast_mod, hp.root, Nat.cast_pred hc.prime.pos, ZMod.natCast_self, zero_sub]
  have hdegree := natCast_eq_one_of_mod hp.invN
  rw [hc.degree, Nat.cast_mul, Nat.cast_pow, Nat.cast_ofNat] at hdegree
  refine ⟨-(g : ZMod s.q.toNat) ^ (2 ^ s.logn.toNat - 1), hroot, ?_, hdegree⟩
  rw [neg_mul, ← pow_succ, Nat.sub_add_cancel Nat.one_le_two_pow, hroot, neg_neg]

omit hp in
theorem bitRev_bitRev_logn {k : Nat} (hk : k < s.n.toNat) :
    bitRev k s.logn.toNat < s.n.toNat ∧ bitRev (bitRev k s.logn.toNat) s.logn.toNat = k := by
  rw [hc.degree] at hk ⊢
  exact ⟨bitRev_lt _ _, by rw [bitRev_bitRev, Nat.mod_eq_of_lt hk]⟩

/-- Word k of TF in Z_q. -/
theorem natCast_tf {k : Nat} (hk : k < s.n.toNat) :
    ((s.memRead .tf k).toNat : ZMod s.q.toNat) = bitRevPowers s.logn.toNat (g : ZMod s.q.toNat) k := by
  obtain ⟨hlt, hback⟩ := bitRev_bitRev_logn hc hk
  have hword := hp.tf _ hlt
  rw [hback] at hword
  rw [hword, ZMod.natCast_mod, Nat.cast_pow, bitRevPowers]

/-- Word k of ITF in Z_q: an inverse is unique. -/
theorem natCast_itf {h : ZMod s.q.toNat} (hinv : h * g = 1) {k : Nat} (hk : k < s.n.toNat) :
    ((s.memRead .itf k).toNat : ZMod s.q.toNat) = bitRevPowers s.logn.toNat h k := by
  obtain ⟨hlt, hback⟩ := bitRev_bitRev_logn hc hk
  have hword := natCast_eq_one_of_mod (hp.itf _ hlt)
  rw [hback, Nat.cast_mul, Nat.cast_pow] at hword
  exact left_inv_eq_right_inv hword (by rw [bitRevPowers, ← mul_pow, mul_comm, hinv, one_pow])

/-- The context of a state with canonical tables, in a mode whose products are exact for its modulus. -/
theorem exactContext (hd : DescriptorOk s) (ht : TablesCanonical s) {mode : Mode} (hmode : ExactMode mode s.q.toNat)
    {h ninv : ZMod s.q.toNat} (hinv : h * g = 1) (hninv : ninv = s.invN.toNat) :
    ExactContext mode s.ctx s.logn.toNat (g : ZMod s.q.toNat) h ninv := by
  have hdesc : s.ctx.d = makeDescriptor s.q.toNat := hd.desc_eq
  have : NeZero s.q.toNat := ⟨hc.prime.ne_zero⟩
  exact {
    modulus := rfl
    degree := hc.degree
    levels := s.logn.isLt.le
    forward := fun k hk x => by
      rw [hdesc, entry_ctx_tf hk, entry_ctx_tfShoup hk, ht.tfShoup k hk, twMul_val hmode hd.lt x (ht.tf k hk),
        natCast_tf hc hp hk]
    inverse := fun k hk x => by
      rw [hdesc, entry_ctx_itf hk, entry_ctx_itfShoup hk, ht.itfShoup k hk, twMul_val hmode hd.lt x (ht.itf k hk),
        natCast_itf hc hp hinv hk]
    scale := fun x => by
      rw [hdesc, hninv, State.ctx, ofWord, ofWord, ht.invNShoup, twMul_val hmode hd.lt x ht.invN] }

end Context

/-- Under BarrettSafe the transforms of both modes compute in Z_q, with one root. -/
theorem exists_exactContext {s : State} (hinv : Inv s) (h : Canonical s) (hsafe : barrettSafe s.q.toNat = true)
    (hctx : s.ctxvalid = true) : ∃ g ginv ninv : ZMod s.q.toNat, NegacyclicRoot s.logn.toNat g ginv ninv ∧
      ∀ mode, ExactContext mode s.ctx s.logn.toNat g ginv ninv := by
  have hc := hinv.context hctx
  have hd := hinv.descriptor hc.modvalid
  obtain ⟨ht, g, hp⟩ := h.tables hctx hsafe
  obtain ⟨ginv, hg⟩ := exists_negacyclicRoot hc hp
  exact ⟨g, ginv, _, hg, fun mode => exactContext hc hp hd ht (.inr (hc.safeModulus hd hsafe)) hg.inverse rfl⟩

/-! ## The words of a buffer -/

/-- Coefficient k of a buffer in Z_q. -/
def State.ringCoeff (s : State) (p : Buf) (k : Nat) : ZMod s.q.toNat := (s.coeff p k : ZMod s.q.toNat)

theorem coeffs_eq_residueVals {s : State} {p : Buf} {q : Nat} {f : Nat → ZMod q}
    (h : ∀ k < s.n.toNat, s.coeff p k = (f k).val) : s.coeffs p = residueVals s.n.toNat f := by
  rw [State.coeffs, State.load, List.map_map]
  exact List.map_congr_left fun k hk => congrArg some (h k (List.mem_range.mp hk))

theorem coeffs_of_residues {s : State} {p : Buf} (h : ∀ k < s.n.toNat, s.coeff p k < s.q.toNat) :
    s.coeffs p = residueVals s.n.toNat (s.ringCoeff p) :=
  coeffs_eq_residueVals fun k hk => by rw [State.ringCoeff, ZMod.val_natCast, Nat.mod_eq_of_lt (h k hk)]

/-- Under BarrettSafe a source that passed PolyCheck holds residues. -/
theorem coeffs_of_canonical {s : State} (h : Canonical s) (hsafe : barrettSafe s.q.toNat = true) {p : Buf}
    (hp : PolyReady s p) : s.coeffs p = residueVals s.n.toNat (s.ringCoeff p) := by
  have hcoeffs := h.coeffs p hp.valid (by rwa [hp.tq])
  rw [hp.tq, hp.tn] at hcoeffs
  exact coeffs_of_residues hcoeffs

/-- A command that computes the residues f 0, …, f (N − 1) completes with these words. -/
theorem exec_residueVals {s : State} {q : Nat} [NeZero q] (hq : q ≤ 2 ^ 64) {i : Instr} {pd : Buf} {f : Nat → ZMod q}
    {srcs : List Buf} (hvs : s.polyValues i = some (pd, residueVals s.n.toNat f)) (hsrcs : i.polySources = some srcs)
    (hctx : s.ctxvalid = true) (hbound : s.n.toNat ≤ s.cfg.nmax) (hready : ∀ p ∈ srcs, PolyReady s p) :
    ∃ t, exec i s = .next t ∧ PolyResult s t pd s.q s.n ∧ ∀ k < s.n.toNat, t.coeff pd k = (f k).val := by
  obtain ⟨hresult, -, hwords⟩ := polyResult_of_defined pd length_residueVals (fun k hk => entry_residueVals hk)
    fun k _ => (ZMod.val_lt (f k)).trans_le hq
  exact ⟨_, exec_polyValues hvs hsrcs hctx hbound hready, hresult, hwords⟩

/-- Two commands with the same sources and the same result have the same outcome. -/
theorem exec_eq_of_polyValues_eq {s : State} {i j : Instr} {pd : Buf} {vs vs' : List Val} {srcs : List Buf}
    (hi : s.polyValues i = some (pd, vs)) (hj : s.polyValues j = some (pd, vs')) (heq : vs = vs')
    (hsi : i.polySources = some srcs) (hsj : j.polySources = some srcs) (hctx : s.ctxvalid = true)
    (hbound : s.n.toNat ≤ s.cfg.nmax) (hready : ∀ p ∈ srcs, PolyReady s p) : exec i s = exec j s :=
  (exec_polyValues hi hsi hctx hbound hready).trans (exec_polyValues (heq ▸ hj) hsj hctx hbound hready).symm

/-! ## Both modes, and the three convolutions (R260, R264, R271) -/

section Safe

variable {s : State} (hinv : Inv s) (h : Canonical s) (hsafe : barrettSafe s.q.toNat = true) {pa pb : Buf}
  (ha : PolyReady s pa)
include hinv h hsafe ha

theorem nttForward_shoup_eq_plain : nttForward .shoup s.ctx (s.coeffs pa) = nttForward .plain s.ctx (s.coeffs pa) := by
  obtain ⟨g, ginv, ninv, -, hexact⟩ := exists_exactContext hinv h hsafe ha.context
  have : NeZero s.q.toNat := ⟨(hinv.context ha.context).prime.ne_zero⟩
  rw [coeffs_of_canonical h hsafe ha]
  exact (nttForward_residueVals (hexact .shoup) _).trans (nttForward_residueVals (hexact .plain) _).symm

theorem nttInverse_shoup_eq_plain : nttInverse .shoup s.ctx (s.coeffs pa) = nttInverse .plain s.ctx (s.coeffs pa) := by
  obtain ⟨g, ginv, ninv, -, hexact⟩ := exists_exactContext hinv h hsafe ha.context
  have : NeZero s.q.toNat := ⟨(hinv.context ha.context).prime.ne_zero⟩
  rw [coeffs_of_canonical h hsafe ha]
  exact (nttInverse_residueVals (hexact .shoup) _).trans (nttInverse_residueVals (hexact .plain) _).symm

variable (hb : PolyReady s pb)
include hb

theorem naiveConv_eq_negacyclic : naiveConv s.ctx (s.coeffs pa) (s.coeffs pb) =
    residueVals s.n.toNat (negacyclic s.n.toNat (s.ringCoeff pa) (s.ringCoeff pb)) := by
  have hc := hinv.context ha.context
  have hd := hinv.descriptor hc.modvalid
  have : NeZero s.q.toNat := ⟨hc.prime.ne_zero⟩
  rw [coeffs_of_canonical h hsafe ha, coeffs_of_canonical h hsafe hb]
  exact naiveConv_residueVals (c := s.ctx) (hc.safeModulus hd hsafe) _ _ hd.desc_eq

theorem fastConv_eq_naiveConv (mode : Mode) :
    fastConv mode s.ctx (s.coeffs pa) (s.coeffs pb) = naiveConv s.ctx (s.coeffs pa) (s.coeffs pb) := by
  have hc := hinv.context ha.context
  have hd := hinv.descriptor hc.modvalid
  have : NeZero s.q.toNat := ⟨hc.prime.ne_zero⟩
  obtain ⟨g, ginv, ninv, hg, hexact⟩ := exists_exactContext hinv h hsafe ha.context
  rw [naiveConv_eq_negacyclic hinv h hsafe ha hb, coeffs_of_canonical h hsafe ha, coeffs_of_canonical h hsafe hb]
  exact fastConv_residueVals (hexact mode) hg hd.desc_eq (hc.safeModulus hd hsafe) _ _

end Safe

/-- Settles O56: both multipliers give the exact product, so both networks compute the same array. -/
theorem shoupVariantsEqualPlainOnes : Obligations.ShoupVariantsEqualPlainOnes := by
  unfold Obligations.ShoupVariantsEqualPlainOnes
  intro pd pa pb s hinv h hsafe ha hb
  have one : ∀ p ∈ [pa], PolyReady s p := by simp [ha]
  have two : ∀ p ∈ [pa, pb], PolyReady s p := by simp [ha, hb]
  have hconv := (fastConv_eq_naiveConv hinv h hsafe ha hb .shoup).trans (fastConv_eq_naiveConv hinv h hsafe ha hb .plain).symm
  exact ⟨exec_eq_of_polyValues_eq rfl rfl (nttForward_shoup_eq_plain hinv h hsafe ha) rfl rfl ha.context ha.bound one,
    exec_eq_of_polyValues_eq rfl rfl (nttInverse_shoup_eq_plain hinv h hsafe ha) rfl rfl ha.context ha.bound one,
    exec_eq_of_polyValues_eq rfl rfl hconv rfl rfl ha.context ha.bound two⟩

/-- Settles O60: in either mode the fast convolution computes the negacyclic product. -/
theorem theThreeConvolutionsAgree : Obligations.TheThreeConvolutionsAgree := by
  unfold Obligations.TheThreeConvolutionsAgree
  intro pd pa pb s hinv h hsafe ha hb
  have two : ∀ p ∈ [pa, pb], PolyReady s p := by simp [ha, hb]
  have agree := fun mode => fastConv_eq_naiveConv hinv h hsafe ha hb mode
  exact ⟨exec_eq_of_polyValues_eq rfl rfl (agree .plain) rfl rfl ha.context ha.bound two,
    exec_eq_of_polyValues_eq rfl rfl (agree .shoup) rfl rfl ha.context ha.bound two⟩

/-- Settles O59: the accumulators are the coefficients of the product. -/
theorem convnaiveIsTheNegacyclicProduct : Obligations.ConvnaiveIsTheNegacyclicProduct := by
  unfold Obligations.ConvnaiveIsTheNegacyclicProduct
  intro pd pa pb s hinv h hsafe ha hb
  have : NeZero s.q.toNat := ⟨(hinv.context ha.context).prime.ne_zero⟩
  have hvs : s.polyValues (.convnaive pd pa pb) = _ :=
    congrArg (fun vs => some (pd, vs)) (naiveConv_eq_negacyclic hinv h hsafe ha hb)
  obtain ⟨t, hexec, hresult, hwords⟩ := exec_residueVals s.q.isLt.le hvs rfl ha.context ha.bound (by simp [ha, hb])
  refine ⟨t, hexec, hresult, fun i hi => ?_⟩
  rw [hwords i hi]
  exact ⟨ZMod.val_lt _, ZMod.natCast_zmod_val _⟩

/-! ## Evaluation (R253) -/

/-- Settles O57: word k of the network is the value at g^(2·BitRev(k) + 1). -/
theorem nttEvaluatesAtTheOddPowers : Obligations.NttEvaluatesAtTheOddPowers := by
  unfold Obligations.NttEvaluatesAtTheOddPowers
  intro pa s g hinv ha ht hp hres evaluates
  have hc := hinv.context ha.context
  have hd := hinv.descriptor hc.modvalid
  have : NeZero s.q.toNat := ⟨hc.prime.ne_zero⟩
  obtain ⟨ginv, hg⟩ := exists_negacyclicRoot hc hp
  have hevaluates : ∀ {mode i}, ExactMode mode s.q.toNat → i.polySources = some [pa] →
      s.polyValues i = some (pa, nttForward mode s.ctx (s.coeffs pa)) → evaluates i := by
    intro mode i hmode hsrcs hvs
    have hexact := exactContext hc hp hd ht hmode hg.inverse rfl
    rw [coeffs_of_residues hres] at hvs
    obtain ⟨t, hexec, hresult, hwords⟩ := exec_residueVals s.q.isLt.le
      (hvs.trans (congrArg (fun vs => some (pa, vs)) (nttForward_residueVals hexact _))) hsrcs ha.context ha.bound
      (by simp [ha])
    refine ⟨t, hexec, hresult, fun k hk => ?_⟩
    rw [hwords k hk, forwardTransform_eq_sum hg _ (hc.degree ▸ hk), ← ZMod.val_natCast, ← hc.degree]
    simp [State.ringCoeff, pow_mul]
  exact ⟨hevaluates (.inl rfl) rfl rfl, fun hsafe => hevaluates (.inr (hc.safeModulus hd hsafe)) rfl rfl⟩

/-! ## The round trip (R258) -/

theorem State.ctx_congr {s t : State} (hc : SameContext s t) : t.ctx = s.ctx := by
  have htf : t.memRead .tf = s.memRead .tf := funext (State.memRead_congr hc.tf)
  have hitf : t.memRead .itf = s.memRead .itf := funext (State.memRead_congr hc.itf)
  have htfShoup : t.memRead .tfShoup = s.memRead .tfShoup := funext (State.memRead_congr hc.tfShoup)
  have hitfShoup : t.memRead .itfShoup = s.memRead .itfShoup := funext (State.memRead_congr hc.itfShoup)
  simp only [State.ctx, State.desc, State.load, htf, hitf, htfShoup, hitfShoup, hc.q, hc.logq, hc.mu, hc.n, hc.invN,
    hc.invNShoup]

/-- The two commands of a direction differ in their mode. -/
theorem polyValues_of_mem_forward {pa : Buf} {i : Instr} (hi : i ∈ [Instr.ntt pa, .nttsh pa]) :
    i.polySources = some [pa] ∧ ∃ mode, ∀ s : State, s.polyValues i = some (pa, nttForward mode s.ctx (s.coeffs pa)) := by
  obtain rfl | rfl : i = .ntt pa ∨ i = .nttsh pa := by simpa using hi
  · exact ⟨rfl, .plain, fun _ => rfl⟩
  · exact ⟨rfl, .shoup, fun _ => rfl⟩

theorem polyValues_of_mem_inverse {pa : Buf} {i : Instr} (hi : i ∈ [Instr.intt pa, .inttsh pa]) :
    i.polySources = some [pa] ∧ ∃ mode, ∀ s : State, s.polyValues i = some (pa, nttInverse mode s.ctx (s.coeffs pa)) := by
  obtain rfl | rfl : i = .intt pa ∨ i = .inttsh pa := by simpa using hi
  · exact ⟨rfl, .plain, fun _ => rfl⟩
  · exact ⟨rfl, .shoup, fun _ => rfl⟩

theorem PolyResult.sameContext {s t : State} {pd : Buf} {tq tn : Word} (h : PolyResult s t pd tq tn) : SameContext s t := by
  obtain ⟨hstate, -⟩ := h
  constructor <;> rw [hstate]

theorem PolyResult.fault {s t : State} {pd : Buf} {tq tn : Word} (h : PolyResult s t pd tq tn) : t.fault = s.fault := by
  obtain ⟨hstate, -⟩ := h
  rw [hstate]

/-- t passes PolyCheck for buffer p, in the context of s and with the words f of that buffer. -/
structure HoldsResidues (s t : State) (p : Buf) {q : Nat} (f : Nat → ZMod q) : Prop where
  ready : PolyReady t p
  context : t.ctx = s.ctx
  fault : t.fault = s.fault
  words : t.coeffs p = residueVals s.ctx.n f

/-- A transform in place of a buffer that holds residues: one that makes f' of f leaves f' in the buffer. -/
theorem HoldsResidues.exec {s t u : State} {p : Buf} {q : Nat} [NeZero q] (hq : q ≤ 2 ^ 64) {f f' : Nat → ZMod q}
    (h : HoldsResidues s t p f) {i : Instr} {transform : Ctx → List Val → List Val} (hsrcs : i.polySources = some [p])
    (hvs : t.polyValues i = some (p, transform t.ctx (t.coeffs p)))
    (hf : transform s.ctx (residueVals s.ctx.n f) = residueVals s.ctx.n f') (hexec : exec i t = .next u) :
    HoldsResidues s u p f' := by
  obtain ⟨hready, hctx, hfault, hwords⟩ := h
  have hn : t.n.toNat = s.ctx.n := congrArg Ctx.n hctx
  rw [hctx, hwords, hf, ← hn] at hvs
  obtain ⟨u', hexec', hresult, hu⟩ := exec_residueVals hq hvs hsrcs hready.context hready.bound (by simp [hready])
  obtain rfl : u' = u := by rw [hexec'] at hexec; cases hexec; rfl
  have hsame := hresult.sameContext
  have hkept := hresult.fault
  obtain ⟨-, hvalid, htq, htn, -⟩ := hresult
  refine ⟨⟨?_, hvalid, ?_, ?_, ?_⟩, ?_, ?_, ?_⟩
  · rw [hsame.ctxvalid, hready.context]
  · rw [htq, hsame.q]
  · rw [htn, hsame.n]
  · rw [hsame.n, hsame.cfg]; exact hready.bound
  · rw [State.ctx_congr hsame, hctx]
  · rw [hkept, hfault]
  · rw [← hsame.n] at hu hn
    rw [coeffs_eq_residueVals hu, hn]

/-- Equal values of the N words are equal words. -/
theorem memRead_eq_of_coeffs_eq {s t : State} {p : Buf} {n : Nat} (hs : s.n.toNat = n) (ht : t.n.toNat = n)
    (h : t.coeffs p = s.coeffs p) {k : Nat} (hk : k < n) : t.memRead (.poly p) k = s.memRead (.poly p) k := by
  have hentry := congrArg (entry · k) h
  simp only [State.coeffs, hs, ht, entry_load _ _ hk, Option.some.injEq] at hentry
  exact BitVec.eq_of_toNat_eq hentry

/-- Settles O58: each direction undoes the other as a function on arrays of residues, in either mode. -/
theorem transformsUndoEachOther : Obligations.TransformsUndoEachOther := by
  unfold Obligations.TransformsUndoEachOther
  intro pa s t u f b hinv h hsafe ha hfb hf hb
  have : NeZero s.q.toNat := ⟨(hinv.context ha.context).prime.ne_zero⟩
  obtain ⟨g, ginv, ninv, hg, hexact⟩ := exists_exactContext hinv h hsafe ha.context
  have hs : HoldsResidues s s pa (s.ringCoeff pa) := ⟨ha, rfl, rfl, coeffs_of_canonical h hsafe ha⟩
  have hu : HoldsResidues s u pa (s.ringCoeff pa) := by
    obtain ⟨hforward, hinverse⟩ | ⟨hinverse, hforward⟩ := hfb
    all_goals
      obtain ⟨hfsrcs, fmode, hfvs⟩ := polyValues_of_mem_forward hforward
      obtain ⟨hisrcs, imode, hivs⟩ := polyValues_of_mem_inverse hinverse
      have forward := nttForward_residueVals (hexact fmode)
      have inverse := nttInverse_residueVals (hexact imode)
    · have ht := hs.exec s.q.isLt.le hfsrcs (hfvs s) (forward _) hf
      have hu := ht.exec s.q.isLt.le hisrcs (hivs t) (inverse _) hb
      rwa [inverseTransform_forwardTransform hg] at hu
    · have ht := hs.exec s.q.isLt.le hisrcs (hivs s) (inverse _) hf
      have hu := ht.exec s.q.isLt.le hfsrcs (hfvs t) (forward _) hb
      rwa [forwardTransform_inverseTransform hg] at hu
  exact ⟨hu.fault, fun k hk =>
    memRead_eq_of_coeffs_eq rfl (congrArg Ctx.n hu.context) (hu.words.trans hs.words.symm) hk⟩

end Sys2Proof.Machine

/-! # Moves and status (O19, O20, O21)

MOVZ is MOVK on a zero register, so both are read off the bits of one replaced quarter. CSRR is one check and one register
write. -/

namespace Sys2Proof.Machine

/-! ## One quarter of a word (45_move_and_status.md R300, R301) -/

/-- The bits above the quarter, the quarter and the bits below it, each at its place. -/
theorem replaceQuarter_eq (old imm hw : Nat) : replaceQuarter old imm hw =
    2 ^ (16 * hw) * (2 ^ 16 * (old / 2 ^ (16 * hw) / 2 ^ 16) + imm) + old % 2 ^ (16 * hw) := by
  have hlow := Nat.div_add_mod old (2 ^ (16 * hw))
  have hquarter := Nat.div_add_mod (old / 2 ^ (16 * hw)) (2 ^ 16)
  have hparts : old / 2 ^ (16 * hw) % 2 ^ 16 * 2 ^ (16 * hw) +
      (2 ^ (16 * hw) * (2 ^ 16 * (old / 2 ^ (16 * hw) / 2 ^ 16)) + old % 2 ^ (16 * hw)) = old := by
    linear_combination hlow + 2 ^ (16 * hw) * hquarter
  rw [replaceQuarter, Nat.sub_eq_of_eq_add' hparts.symm]
  ring

theorem testBit_replaceQuarter {imm : Nat} (himm : imm < 2 ^ 16) (old hw j : Nat) : (replaceQuarter old imm hw).testBit j =
    if 16 * hw ≤ j ∧ j < 16 * hw + 16 then imm.testBit (j - 16 * hw) else old.testBit j := by
  rw [replaceQuarter_eq, Nat.testBit_two_pow_mul_add _ (Nat.mod_lt _ (Nat.two_pow_pos _)),
    Nat.testBit_two_pow_mul_add _ himm]
  by_cases hbelow : j < 16 * hw
  · rw [if_pos hbelow, if_neg (by omega), Nat.testBit_mod_two_pow, decide_eq_true hbelow, Bool.true_and]
  · rw [if_neg hbelow]
    by_cases hinside : j - 16 * hw < 16
    · rw [if_pos hinside, if_pos (by omega)]
    · rw [if_neg hinside, if_neg (by omega), Nat.testBit_div_two_pow, Nat.testBit_div_two_pow]
      congr 1
      omega

/-- The same of the word a register holds: no bit of it is cut off. -/
theorem getLsbD_replaceQuarter (old : Nat) (imm : BitVec 16) (hw : Nat) {j : Nat} (hj : j < 64) :
    (BitVec.ofNat 64 (replaceQuarter old imm.toNat hw)).getLsbD j =
      if 16 * hw ≤ j ∧ j < 16 * hw + 16 then imm.getLsbD (j - 16 * hw) else old.testBit j := by
  rw [BitVec.getLsbD_ofNat, decide_eq_true hj, Bool.true_and, testBit_replaceQuarter imm.isLt]
  rfl

/-! ## MOVZ, MOVK, GET (R300 to R302) -/

theorem exec_movz (rd : Reg) (imm : BitVec 16) (hw : Fin 4) (s : State) : exec (.movz rd imm hw) s =
    .next (wroteReg s rd (BitVec.ofNat 64 (replaceQuarter 0 imm.toNat hw))) := by
  have hzero : replaceQuarter 0 imm.toNat hw = imm.toNat * 2 ^ (16 * hw.val) := by simp [replaceQuarter]
  rw [hzero]
  rfl

theorem exec_movk (rd : Reg) (imm : BitVec 16) (hw : Fin 4) (s : State) : exec (.movk rd imm hw) s =
    .next (wroteReg s rd (BitVec.ofNat 64 (replaceQuarter s.sreg[rd].toNat imm.toNat hw))) := rfl

/-- Settles O19: one quarter replaced, of zero by MOVZ and of the register by MOVK. -/
theorem movzAndMovkWriteOneQuarter : Obligations.MovzAndMovkWriteOneQuarter := by
  unfold Obligations.MovzAndMovkWriteOneQuarter
  intro rd imm hw s quarter
  refine ⟨⟨_, exec_movz rd imm hw s, fun j hj => ?_⟩, ⟨_, exec_movk rd imm hw s, fun j hj => ?_⟩⟩
  · rw [getLsbD_replaceQuarter 0 imm hw hj, Nat.zero_testBit]
  · exact getLsbD_replaceQuarter s.sreg[rd].toNat imm hw hj

/-- Settles O20: GET has no check and no write. -/
theorem getAnswersTheRegister : Obligations.GetAnswersTheRegister := by
  unfold Obligations.GetAnswersTheRegister
  intro rs1 s
  rfl

/-! ## CSRR (R303; 10_state.md R38) -/

/-- The flag that makes a control register readable; STATUS, NMAX and NPOLY need none. -/
def State.readable (s : State) : Csr → Bool
  | .status | .nmax | .npoly => true
  | .q | .logq | .mu => s.modvalid
  | .n | .logn | .invN | .invNShoup => s.ctxvalid

theorem needReadable_eq (s : State) (c : Csr) : s.needReadable c = ensure (s.readable c) .notInitialised := by
  cases c <;> rfl

theorem exec_csrr (rd : Reg) (c : Csr) (s : State) : exec (.csrr rd c) s =
    if s.readable c = true then .next (wroteReg s rd (s.csr c)) else .next (faulted s .notInitialised) := by
  simp only [exec, execCsrr, needReadable_eq, ensure_bind, commit_ite]
  rfl

theorem exec_csrr_of_readable {s : State} (rd : Reg) (c : Csr) (h : s.readable c = true) :
    exec (.csrr rd c) s = .next (wroteReg s rd (s.csr c)) := by
  rw [exec_csrr, if_pos h]

theorem exec_csrr_of_not_readable {s : State} (rd : Reg) (c : Csr) (h : s.readable c = false) :
    exec (.csrr rd c) s = .next (faulted s .notInitialised) := by
  rw [exec_csrr, if_neg (by simp [h])]

theorem toNat_status (s : State) :
    s.status.toNat = (if s.modvalid then 1 else 0) + (if s.ctxvalid then 2 else 0) := by
  rw [State.status, BitVec.toNat_ofNat, Nat.mod_eq_of_lt]
  split_ifs <;> decide

theorem csr_logq (s : State) : s.csr .logq = BitVec.ofNat 64 s.logq.toNat := (BitVec.ofNat_toNat 64 s.logq).symm

theorem csr_logn (s : State) : s.csr .logn = BitVec.ofNat 64 s.logn.toNat := (BitVec.ofNat_toNat 64 s.logn).symm

/-- Settles O21: the clauses are the three cases of `State.readable`. -/
theorem csrrReadsTheControlRegister : Obligations.CsrrReadsTheControlRegister := by
  unfold Obligations.CsrrReadsTheControlRegister
  intro rd s
  refine ⟨⟨_, exec_csrr_of_readable rd .status rfl, toNat_status s⟩, exec_csrr_of_readable rd .nmax rfl,
    exec_csrr_of_readable rd .npoly rfl, fun hmod => ?_, fun hctx => ?_,
    fun hmod c hc => exec_csrr_of_not_readable rd c ?_, fun hctx c hc => exec_csrr_of_not_readable rd c ?_⟩
  · rw [← csr_logq]
    exact ⟨exec_csrr_of_readable rd .q hmod, exec_csrr_of_readable rd .logq hmod, exec_csrr_of_readable rd .mu hmod⟩
  · rw [← csr_logn]
    exact ⟨exec_csrr_of_readable rd .n hctx, exec_csrr_of_readable rd .logn hctx, exec_csrr_of_readable rd .invN hctx,
      exec_csrr_of_readable rd .invNShoup hctx⟩
  · simp only [List.mem_cons, List.not_mem_nil, or_false] at hc
    obtain rfl | rfl | rfl := hc <;> exact hmod
  · simp only [List.mem_cons, List.not_mem_nil, or_false] at hc
    obtain rfl | rfl | rfl | rfl := hc <;> exact hctx

end Sys2Proof.Machine

/-! # The sequencer (O5, O6, O7, O8, O9)

A step is read off the head of the inbox. A faulted block answers every word with its recorded cause, so a run of k steps
without a RESET has the closed form `State.afterRefusals`. -/

namespace Sys2Proof.Machine

/-! ## One step by the head of the inbox (60_exceptions.md R326, R331, R346) -/

section Step
variable {s : State} {w : CmdWord} {rest : List HostInput}

theorem step_idle (h : s.inbox = []) : step s = .next s := by simp [step, takeInput, h]

theorem step_cmd (h : s.inbox = .cmd w :: rest) : step s = runWord w { s with inbox := rest } := by
  simp [step, takeInput, h]

theorem runWord_of_faulted (h : s.fault = true) : runWord w s = .next s.refuse := by simp [runWord, h]

theorem runWord_of_legal {i : Instr} (h : s.fault = false) (hw : decodeLegal s.cfg.npoly w = some i) :
    runWord w s = exec i { s with cmd := w } := by
  simp [runWord, h, hw]

theorem runWord_of_illegal (h : s.fault = false) (hw : decodeLegal s.cfg.npoly w = none) :
    runWord w s = .next (faulted { s with cmd := w } .illegalCommand) := by
  simp [runWord, h, hw, raise_eq_faulted]

theorem step_cmd_of_faulted (h : s.fault = true) (hin : s.inbox = .cmd w :: rest) :
    step s = .next { s with inbox := rest }.refuse :=
  (step_cmd hin).trans (runWord_of_faulted h)

end Step

/-- Settles O5: steps 1 and 2 of R326 pass. -/
theorem stepRunsTheDecodedCommand : Obligations.StepRunsTheDecodedCommand := by
  unfold Obligations.StepRunsTheDecodedCommand
  intro s w rest i hfault hin hw
  exact (step_cmd hin).trans (runWord_of_legal hfault hw)

/-- Settles O6: the decode comes before every check of a flag or an operand. -/
theorem illegalWordRaisesIllegalCommand : Obligations.IllegalWordRaisesIllegalCommand := by
  unfold Obligations.IllegalWordRaisesIllegalCommand
  intro s w rest hfault hin hw
  exact (step_cmd hin).trans (runWord_of_illegal hfault hw)

/-- Settles O7: the refusal comes before the decode. -/
theorem faultedBlockRefusesEveryWord : Obligations.FaultedBlockRefusesEveryWord := by
  unfold Obligations.FaultedBlockRefusesEveryWord
  intro s w rest hfault hin
  exact step_cmd_of_faulted hfault hin

/-! ## Any number of steps without a RESET (R331, R332; 10_state.md R45) -/

/-- A faulted block after k steps without a RESET: up to k words taken, each refused. -/
def State.afterRefusals (s : State) (k : Nat) : State :=
  { s with
    inbox := s.inbox.drop k
    outbox := List.replicate (min k s.inbox.length) { fault := true, cause := s.cause, data := 0 } ++ s.outbox }

theorem State.afterRefusals_zero (s : State) : s.afterRefusals 0 = s := by simp [State.afterRefusals]

theorem State.afterRefusals_of_idle {s : State} (h : s.inbox = []) (k : Nat) : s.afterRefusals k = s := by
  cases s
  subst h
  simp [State.afterRefusals]

/-- The first refusal is the oldest answer of the run. -/
theorem State.afterRefusals_succ {s : State} {w : CmdWord} {rest : List HostInput} (h : s.inbox = .cmd w :: rest) (k : Nat) :
    s.afterRefusals (k + 1) = { s with inbox := rest }.refuse.afterRefusals k := by
  simp [State.afterRefusals, State.refuse, State.respond, h, Nat.succ_min_succ, List.replicate_succ']

theorem run_succ {M : Host.Core} {s t : M.State} (h : M.step s = .next t) (k : Nat) : M.run (k + 1) s = M.run k t := by
  simp [Host.Core.run, h]

/-- By induction on the steps: a refusal leaves a faulted block with the same cause and one word less to come. -/
theorem run_of_faulted {k : Nat} : ∀ {s : State}, s.fault = true → (∀ x ∈ s.inbox, x ≠ HostInput.reset) →
    core.run k s = .next (s.afterRefusals k) := by
  induction k with
  | zero => exact fun {s} _ _ => congrArg _ s.afterRefusals_zero.symm
  | succ k ih =>
    intro s hfault hreset
    match hin : s.inbox with
    | [] =>
      have hrun := ih hfault hreset
      rw [State.afterRefusals_of_idle hin] at hrun ⊢
      exact (run_succ (M := core) (step_idle hin) k).trans hrun
    | .reset :: rest => exact absurd rfl (hreset .reset (by simp [hin]))
    | .cmd w :: rest =>
      have hrest : ∀ x ∈ rest, x ≠ HostInput.reset := fun x hx => hreset x (by simp [hin, hx])
      rw [State.afterRefusals_succ hin]
      exact (run_succ (M := core) (step_cmd_of_faulted hfault hin) k).trans (ih hfault hrest)

/-- Settles O8. -/
theorem onlyResetLeavesTheFaultedState : Obligations.OnlyResetLeavesTheFaultedState := by
  unfold Obligations.OnlyResetLeavesTheFaultedState
  intro k s t hfault hreset hrun
  cases (run_of_faulted hfault hreset).symm.trans hrun
  exact ⟨rfl, rfl⟩

/-! ## A command that faults (R330) -/

/-- Settles O9: a command that completes leaves FAULT as it was, so one that faults has ended in `raise`. -/
theorem faultingCommandChangesNothingElse : Obligations.FaultingCommandChangesNothingElse := by
  unfold Obligations.FaultingCommandChangesNothingElse
  intro i s t hfault hexec ht
  cases exec_ends hexec with
  | raised c => exact ⟨c, raise_eq_faulted s c⟩
  | completed effect => exact absurd (effect.sameFlow.fault.symm.trans ht) (by simp [hfault])

end Sys2Proof.Machine
